-- ==== Sys2Proof/Word.lean ====
section
/-! DEFINITION. The word types of the block: bytes, 16-bit elements, 32-bit words, binary32 bit patterns. -/

namespace Sys2Proof

/-- An element of the byte spaces CALL9, PAYLOAD, CHUNKIN, OUT (rule R72). -/
abbrev Byte := BitVec 8

/-- A 16-bit element: a PCM sample of AUDIO, an identifier, a symbol of GF(2^16) (rules R72, R301). -/
abbrev Half := BitVec 16

/-- A command word, a response word, a pixel (rules R101, R110, R75). -/
abbrev Word := BitVec 32

/-- The bit pattern of a "single-precision float", read as IEEE 754 binary32 (rules R11, R431). -/
abbrev F32 := BitVec 32

end Sys2Proof
end

