-- ==== Sys2Proof/Config.lean ====
section
/-! DEFINITION. The open parameters of rule R7: what the source names and does not give.
Data-valued parameters form `Params`, which State carries (log entry 4); function-valued ones form `Functions`.
Both are opaque constants: no proof can use a value of them. -/

namespace Sys2Proof

/-- The five sample rates R (rules R2, R6). -/
inductive Rate where
  | r8000
  | r16000
  | r32000
  | r44100
  | r48000
  deriving DecidableEq, Repr, Inhabited

/-- A complex sample, "single-precision float pair (real, imag)" (rule R11). -/
structure Cplx where
  re : F32
  im : F32
  deriving DecidableEq, Repr, Inhabited

/-- One value for each sample rate. -/
structure PerRate (α : Type) where
  at8000 : α
  at16000 : α
  at32000 : α
  at44100 : α
  at48000 : α
  deriving DecidableEq, Repr, Inhabited

/-- `SOFT`: the polar soft-bit type (rules R2, R7, R232). -/
inductive SoftKind where
  | float
  | int8
  deriving DecidableEq, Repr, Inhabited

/-- A soft bit of type `SOFT` (rules R14, R34): a float32 or an 8-bit signed value. -/
inductive SoftBit where
  | float (v : F32)
  | int8 (v : BitVec 8)
  deriving DecidableEq, Repr, Inhabited

/-- `RESYNC`: what a detection does while a burst is being received (rule R377). -/
inductive Resync where
  | ignore
  | restart
  deriving DecidableEq, Repr, Inhabited

/-- The shift convention of a CRC register (rule R15). -/
inductive CrcShift where
  | msb
  | lsb
  deriving DecidableEq, Repr, Inhabited

/-- `CRC_CONV`: the convention of each of the three CRCs (rules R7, R15). -/
structure CrcConv where
  preamble : CrcShift
  polar : CrcShift
  erasure : CrcShift
  deriving DecidableEq, Repr, Inhabited

/-- `BCH_POS`: which power of x codeword position j stands for (rule R190): `x^(254-j)` or `x^j`. -/
inductive BchPos where
  | descending
  | ascending
  deriving DecidableEq, Repr, Inhabited

/-- `DC_FILTER`: the coefficients of a causal linear time-invariant filter with one real state s
(rule R132): output `c·s + d·x`, next state `a·s + b·x` (log entry 20). -/
structure DcCoef where
  a : F32
  b : F32
  c : F32
  d : F32
  deriving DecidableEq, Repr, Inhabited

/-- The data of `PSK(mod_bits)` (rule R226): the points and their Gray labels. -/
structure PskMap where
  points : List Cplx
  labels : List Nat
  deriving DecidableEq, Repr, Inhabited

/-- What the peak meter leaves open (rule R346): the levels at which cells 0 to 15 light, the three colours and the
two cell indices where the colour changes (log entry 32). -/
structure PeakStyle where
  thresholds : Vector Nat 16
  green : Word
  yellow : Word
  red : Word
  yellowFrom : Nat
  redFrom : Nat
  deriving DecidableEq, Repr, Inhabited

/-- The data-valued open parameters of rule R7. -/
structure Params where
  /-- `SOFT` -/
  soft : SoftKind
  /-- `RESYNC` -/
  resync : Resync
  /-- `CRC_CONV` -/
  crcConv : CrcConv
  /-- `BCH_GEN`, bit k the coefficient of x^k -/
  bchGen : Nat
  /-- `BCH_POS` -/
  bchPos : BchPos
  /-- `FROZEN_64800`, flag i is `frozen(i)` -/
  frozen64800 : List Bool
  /-- `FROZEN_64512` -/
  frozen64512 : List Bool
  /-- `SCRAMBLE_SEED` -/
  scrambleSeed : Word
  /-- `DC_FILTER` -/
  dcFilter : PerRate DcCoef
  /-- `HILBERT_TAPS`, tap k at list position k -/
  hilbertTaps : PerRate (List F32)
  /-- `GF_POLY`, a 17-bit literal -/
  gfPoly : Nat
  /-- `CRS_COL(j)` -/
  crsCol : Vector Half 12
  /-- `CHUNK_HDR` -/
  chunkHdr : Nat
  /-- the points and labels of `PSK(2)`, QPSK -/
  psk2 : PskMap
  /-- the points and labels of `PSK(3)`, 8-PSK -/
  psk3 : PskMap
  /-- the peak meter's open choices -/
  peak : PeakStyle
  deriving DecidableEq, Repr, Inhabited

/-- The four operations whose rounding `NUM.round` gives (rule R431). -/
inductive NumOp where
  | add
  | sub
  | mul
  | div
  deriving DecidableEq, Repr, Inhabited

/-- `NUM`, the numerics record (rules R7, R431). -/
structure Numerics where
  /-- rounding of +, −, ·, /: the float32 for an exact result that no float32 holds (log entry 14) -/
  round : Rat → F32
  /-- the result where an operand is infinite or not a number, or the divisor is zero (U14, U15; log entry 15) -/
  special : NumOp → F32 → F32 → F32
  /-- `arg(z)`, in (−π, π] -/
  arg : Cplx → F32
  /-- `cexp(φ) = cos φ + i·sin φ` -/
  cexp : F32 → Cplx
  /-- `sqrt`; the only square root of the rules is the palette's, whose pixel set rule R344 fixes -/
  sqrt : F32 → F32
  /-- bin k of the transform of a vector in float32 (rule R182); on finite samples the machine takes it only within
  `fftBound` of the exact transform (log entry 18) -/
  fft : List Cplx → Nat → Cplx
  /-- the bound on the error of `fft`, for a vector of the given length, per unit of `Σ(|re| + |im|)` (rule R431) -/
  fftBound : Nat → Rat
  /-- `sum_order`: for a list of the given length, which two remaining terms the sum adds next (log entry 17) -/
  sumOrder : Nat → Nat → Nat
  /-- whether the rounding to int8 takes a value halfway between two integers up (log entry 24) -/
  tieUp : Rat → Bool
  /-- the int8 soft bit of a value that is not a number (U15) -/
  nanToInt8 : F32 → BitVec 8
  deriving Inhabited

/-- `DETECT`, the correlator (rules R152, R155, R156). -/
structure Detector where
  /-- the detector's state after CREATE; it depends on R only through the lengths -/
  init : Rate → List Word
  /-- one step: its state, the ring newest sample first, and n_w -/
  step : Rate → List Word → List Cplx → Nat → List Word × Option (Int × F32)
  /-- `TRAIN_CARRIER(k)`, the carrier of reference value k (rule R152) -/
  trainCarrier : Nat → Int
  deriving Inhabited

/-- The function-valued open parameters of rule R7, and the free values (draws). -/
structure Functions where
  /-- `NUM` -/
  num : Numerics
  /-- `DETECT` -/
  detect : Detector
  /-- `OSD`: the generator matrix and the 255 soft bits to a codeword or failure (rule R191) -/
  osd : List (BitVec 255) → List F32 → Option (BitVec 255)
  /-- `PSK(mod_bits).decide`: the index of the point nearest to z, with a fixed rule for ties and z = 0 (R226) -/
  pskDecide : Nat → Cplx → Nat
  /-- `PSK(mod_bits).soft`: soft value number b of z (rule R226) -/
  pskSoft : Nat → Cplx → Nat → F32
  /-- `SCL`: whether lane l decides bit m as 1, from the lengthened code and the frozen flags (rule R266) -/
  sclBit : List SoftBit → List Bool → Nat → Nat → Bool
  /-- `SCL`: the path metric of lane l, smaller meaning more likely (rule R266) -/
  sclMetric : List SoftBit → List Bool → Nat → Rat
  /-- for a spectrum of the given length, the bin that column x of the spectrum pictures shows (rule R342) -/
  specBin : Nat → Nat → Nat
  /-- for a draw number and a spectrum, numbers a and b: the power that is 0 dB is `(a + 1)/(b + 1)` (rule R342) -/
  dbReference : Nat → List Cplx → Nat × Nat
  /-- for a draw number and a column, where in its bounds the error of the level lies (rule R431, log entry 31) -/
  levelError : Nat → Nat → Rat
  /-- for a draw number and a column, the level of a bin that is not finite (rule R342 states none) -/
  openLevel : Nat → Nat → Rat
  /-- free bits: draw number, index -/
  drawBit : Nat → Nat → Bool
  /-- free bytes: draw number, index (U9) -/
  drawByte : Nat → Nat → Byte
  /-- free pixels: draw number, index (rule R341) -/
  drawWord : Nat → Nat → Word
  /-- `MIN_SNR(mode)`, which no rule reads (rules R7, R162) -/
  minSnr : Nat → Rat
  /-- `FRACTION(mode)`, which no rule reads (rules R7, R162) -/
  fraction : Nat → Rat
  deriving Inhabited

/-- The value of every data-valued open parameter; State.reset copies it (log entry 4). -/
opaque Config.params : Params

/-- The value of every function-valued open parameter and of every free value (log entry 5). -/
opaque Config.functions : Functions

end Sys2Proof
end

