-- ==== Sys2Proof/Syntax.lean ====
section
/-! DEFINITION. The ten operations of the opcode table (rules R100 to R107), one constructor per row, and their
assembler syntax (rule R121). -/

namespace Sys2Proof

/-- The two kinds of unit that own a CMD register (rule R20). -/
inductive UnitId where
  | dec
  | ers
  deriving DecidableEq, Repr, Inhabited

/-- One constructor per row of spec/opcode_table.json. The fields are those of the row's format
(formats Z, S, K, V: rules R102 to R105), every value the format can encode. -/
inductive Instr where
  /-- CREATE, format S, `rate_sel` (R360) -/
  | create (rateSel : BitVec 3)
  /-- DESTROY, format Z (R361) -/
  | destroy
  /-- RATE, format Z (R362) -/
  | rate
  /-- PROCESS, format S, `channel` (R363) -/
  | process (channel : BitVec 3)
  /-- CACHED, format Z (R365) -/
  | cached
  /-- FETCH, format Z (R366) -/
  | fetch
  /-- ECREATE, format Z (R367) -/
  | ecreate
  /-- EDESTROY, format Z (R368) -/
  | edestroy
  /-- CHUNK, format K, `idx` and `ident` (R305) -/
  | chunk (idx : BitVec 4) (ident : BitVec 16)
  /-- RECOVER, format V, `count` and `total_size` (R310) -/
  | recover (count : BitVec 4) (totalSize : BitVec 20)
  deriving DecidableEq, Repr, Inhabited

/-- The kind of unit whose CMD accepts the operation (rule R107). -/
def Instr.unit : Instr → UnitId
  | .create _ | .destroy | .rate | .process _ | .cached | .fetch => .dec
  | .ecreate | .edestroy | .chunk _ _ | .recover _ _ => .ers

/-- The mnemonic of the operation (rule R100). -/
def Instr.mnemonic : Instr → String
  | .create _ => "CREATE"
  | .destroy => "DESTROY"
  | .rate => "RATE"
  | .process _ => "PROCESS"
  | .cached => "CACHED"
  | .fetch => "FETCH"
  | .ecreate => "ECREATE"
  | .edestroy => "EDESTROY"
  | .chunk _ _ => "CHUNK"
  | .recover _ _ => "RECOVER"

/-- The assembler's `CREATE <R>` (rules R103, R121): the five rates map to `rate_sel` 0 to 4, any other R is the
pseudo-instruction with `rate_sel` 7. -/
def Instr.createHz (hz : Nat) : Instr :=
  if hz = 8000 then .create 0
  else if hz = 16000 then .create 1
  else if hz = 32000 then .create 2
  else if hz = 44100 then .create 3
  else if hz = 48000 then .create 4
  else .create 7

/-- The operands in the order the assembler writes them (rule R121): CHUNK idx, ident and RECOVER total_size,
count; CREATE shows its selector. -/
def Instr.operands : Instr → List Nat
  | .create sel => [sel.toNat]
  | .process ch => [ch.toNat]
  | .chunk idx ident => [idx.toNat, ident.toNat]
  | .recover count size => [size.toNat, count.toNat]
  | .destroy | .rate | .cached | .fetch | .ecreate | .edestroy => []

end Sys2Proof
end

