-- ==== Sys2Proof/Machine/State.lean ====
section
/-! DEFINITION. The state of the block (10_state.md): the decoder unit, the erasure unit, the buffer spaces HOST
binds (20_memory.md), HOST's further moves, and the open data parameters. Plain data throughout. -/

namespace Sys2Proof.Machine

/-- Elements of a buffer space or a slot that are not zero, by index: indexes strictly rising, no zero listed, an
unlisted index reads zero (log entry 9). For bytes this is a list of `Host.Cell`. -/
abbrev Cells (w : Nat) := List (Nat × BitVec w)

/-- A buffer HOST has bound to a space: its length in elements and its content (rule R72). -/
structure Buffer (w : Nat) where
  len : Nat
  cells : Cells w
  deriving DecidableEq, Repr, Inhabited

/-- The pixel spaces (rule R72). -/
inductive PixelSpace where
  | spec
  | sgram
  | cons
  | peak
  deriving DecidableEq, Repr, Inhabited

/-- The byte spaces (rule R72). -/
inductive ByteSpace where
  | call9
  | payload
  | chunkin
  | out
  deriving DecidableEq, Repr, Inhabited

/-- The nine buffer spaces (rule R72). -/
inductive Space where
  | audio
  | pixel (p : PixelSpace)
  | byte (b : ByteSpace)
  deriving DecidableEq, Repr, Inhabited

/-- The buffers bound to the nine spaces (rule R72). -/
structure Buffers where
  audio : Buffer 16
  spec : Buffer 32
  sgram : Buffer 32
  cons : Buffer 32
  peak : Buffer 32
  call9 : Buffer 8
  payload : Buffer 8
  chunkin : Buffer 8
  out : Buffer 8
  deriving DecidableEq, Repr, Inhabited

/-- Whether a unit has been constructed (rule R21). -/
inductive Life where
  | absent
  | created
  deriving DecidableEq, Repr, Inhabited

/-- The burst state machine (rule R24). -/
inductive Fsm where
  | idle
  | synced
  | done
  deriving DecidableEq, Repr, Inhabited

/-- Which frozen table a mode selects (rules R28, R40). -/
inductive FrozenSel where
  | t64800
  | t64512
  deriving DecidableEq, Repr, Inhabited

/-- The mode registers, loaded together at SYNC (rules R28, R40). -/
structure ModeRegs where
  operMode : Nat
  carrierCount : Nat
  symbolCount : Nat
  modBits : Nat
  consBits : Nat
  mesgBits : Nat
  frozenSel : FrozenSel
  carrierOffset : Int
  deriving DecidableEq, Repr, Inhabited

/-- The state of the decoder unit (10_state.md sections 1 to 3 and 5). -/
structure Dec where
  /-- `DEC.alive` (R21) -/
  alive : Life
  /-- `RSP` (R46, R110) -/
  rsp : Word
  /-- `R`, the rate register (R46) -/
  rate : Rate
  /-- `FSM` (R24) -/
  fsm : Fsm
  /-- `symbol_number` (R25) -/
  symbolNumber : Nat
  /-- `symbol_pos_abs` (R26) -/
  symbolPosAbs : Int
  /-- `cfo_rad` (R26) -/
  cfoRad : F32
  /-- `det_pending` (R26) -/
  detPending : Bool
  /-- `symbol_position_abs` (R27) -/
  symbolPositionAbs : Int
  /-- `cfo_burst` (R27) -/
  cfoBurst : F32
  /-- the mode registers (R28) -/
  mode : ModeRegs
  /-- `cached_mode` (R29) -/
  cachedMode : BitVec 8
  /-- `cached_call` (R29) -/
  cachedCall : BitVec 47
  /-- `cached_any` (R29) -/
  cachedAny : Bool
  /-- `payload_ready` (R36) -/
  payloadReady : Bool
  /-- `ring`, newest sample first (R30): list position p holds sample `n_w - 1 - p` -/
  ring : List Cplx
  /-- `n_w` (R30) -/
  nW : Nat
  /-- the DC blocker's state (R31, R132) -/
  dcState : F32
  /-- the Hilbert delay line, newest first (R31, R133) -/
  hilbert : List F32
  /-- `corr_state` (R32) -/
  corrState : List Word
  /-- `prev` (R33) -/
  prev : List Cplx
  /-- `code` (R34) -/
  code : List SoftBit
  /-- `tdom`, scratch (R35) -/
  tdom : List Cplx
  /-- `fdom`, scratch (R35) -/
  fdom : List Cplx
  /-- `cons`, scratch (R35) -/
  consPts : List Cplx
  /-- `peak_prev` (R45) -/
  peakPrev : Nat
  /-- the `CFO` register (R46) -/
  cfoReg : F32
  /-- the `MODE` register (R46) -/
  modeReg : Word
  deriving DecidableEq, Repr, Inhabited

/-- One slot of the chunk store (rules R42, R43): `ident[s]`, `data[s]` (5376 bytes), `valid[s]`. -/
structure Slot where
  ident : Half
  data : Cells 8
  valid : Bool
  deriving DecidableEq, Repr, Inhabited

/-- The state of the erasure unit (10_state.md sections 4 and 5). -/
structure Ers where
  /-- `ERS.alive` (R21) -/
  alive : Life
  /-- `RSP` (R46) -/
  rsp : Word
  /-- `CRC` (R46) -/
  crc : Word
  /-- the chunk store (R42, R43) -/
  slots : Vector Slot 12
  deriving DecidableEq, Repr, Inhabited

/-- What HOST can do to the block (rules R70, R452), between operations. -/
inductive HostMove where
  /-- write a command word to a unit's CMD, which starts one operation -/
  | command (unit : UnitId) (word : Word)
  /-- bind AUDIO to a buffer with this content -/
  | bindAudio (samples : List Half)
  /-- bind a pixel space to a buffer with this content -/
  | bindPixels (space : PixelSpace) (pixels : List Word)
  /-- bind a byte space to a buffer with this content -/
  | bindBytes (space : ByteSpace) (bytes : List Byte)
  /-- which pairs of bound buffers overlap in storage (rule R86) -/
  | bindOverlaps (pairs : List (Space × Space))
  /-- the environment's bit `alloc_ok` from here on (rule R360) -/
  | setAllocOk (ok : Bool)
  /-- a power-on reset between two operations (rule R440) -/
  | powerOn
  deriving DecidableEq, Repr, Inhabited

/-- The state of the whole block and of what HOST will do. -/
structure State where
  /-- the data-valued open parameters; no step writes them (log entry 4) -/
  params : Params
  /-- HOST's further moves, oldest first (log entry 1) -/
  host : List HostMove
  /-- the environment's input bit `alloc_ok` (R360; log entry 6) -/
  allocOk : Bool
  /-- the pairs of buffers HOST bound to overlapping storage (R86; log entry 11); DESIGN CHOICE: no write to one space
  changes another, whatever pairs stand here, so HOST binds again what an operation is to read (log entry 57) -/
  overlaps : List (Space × Space)
  /-- how many draws of free values were made, the model's own counter (log entry 30) -/
  draws : Nat
  /-- the bound buffers (R72) -/
  bufs : Buffers
  /-- the decoder unit -/
  dec : Dec
  /-- the erasure unit -/
  ers : Ers
  deriving DecidableEq, Repr, Inhabited

/-- Machine-stopping faults: there are none. No condition of this block stops it: illegal words and operations on
an ABSENT unit are answered in RSP (rules R406, R410, R414), which is a next state, and 93_implementation_defined.md
says that nothing in this block stops. -/
inductive Fault
  deriving DecidableEq, Repr

/-- Situations the spec gives no meaning and in which "the model refuses" (rules R13, R411). Each is safe: the model
stops where hardware may go on. -/
inductive Refusal where
  /-- an arm of exec without a meaning; none is left (safe) -/
  | notModelled (mnemonic : String)
  /-- CACHED while `cached_any = 0` (R365, R411, U3), raised by CACHED; safe -/
  | cachedNothing
  /-- FETCH while `payload_ready = 0` (R366, R411, U4), raised by FETCH; safe -/
  | noPayload
  /-- the frozen table has not 65536 flags or not `mesg_bits` zero flags (R262, R411), raised by FETCH; safe -/
  | frozenTableCount
  /-- a ring read outside the held samples (R30, R411), raised by PROCESS if `DETECT` breaks P6; safe -/
  | ringReadOutside
  /-- a buffer that has not the exact length of rule R72 (R72, R76, U6), raised by PROCESS, CACHED and FETCH; safe -/
  | bufferWrongLength (space : Space)
  /-- a buffer shorter than the least length its rule gives (R306, R313 Q6), raised by CHUNK and RECOVER; safe -/
  | bufferTooShort (space : Space)
  /-- two buffers of one operation overlap (R86, R411), raised by PROCESS; safe -/
  | buffersOverlap
  /-- RECOVER with an invalid slot among `0 .. count-1` (R313 Q2), raised by RECOVER; safe -/
  | slotInvalid
  /-- RECOVER with two equal identifiers (R313 Q3, R319), raised by RECOVER; safe -/
  | identifiersEqual
  /-- RECOVER with an identifier equal to a column point (R313 Q4), raised by RECOVER; safe -/
  | identifierIsColumn
  /-- RECOVER with `total_size > 5376·count` (R313 Q5), raised by RECOVER; safe -/
  | totalSizeTooLarge
  /-- `GF_POLY` is not irreducible of degree 16 (R302, R411), raised by RECOVER; safe -/
  | fieldPolyReducible
  /-- the column points are not distinct (R307; log entry 35), raised by RECOVER; safe -/
  | columnPointsEqual
  deriving DecidableEq, Repr

/-- Mode registers before the first SYNC (log entry 7). -/
def ModeRegs.none : ModeRegs :=
  { operMode := 0, carrierCount := 0, symbolCount := 0, modBits := 0, consBits := 0, mesgBits := 0,
    frozenSel := .t64800, carrierOffset := 0 }

/-- The decoder unit when ABSENT: it "holds no other state" (R47), so everything but RSP is at a named value
(log entries 7, 8). -/
def Dec.absent (rsp : Word) : Dec :=
  { alive := .absent, rsp := rsp, rate := .r8000, fsm := .idle, symbolNumber := 0, symbolPosAbs := 0, cfoRad := 0,
    detPending := false, symbolPositionAbs := 0, cfoBurst := 0, mode := .none, cachedMode := 0, cachedCall := 0,
    cachedAny := false, payloadReady := false, ring := [], nW := 0, dcState := 0, hilbert := [], corrState := [],
    prev := [], code := [], tdom := [], fdom := [], consPts := [], peakPrev := 0, cfoReg := 0, modeReg := 0 }

/-- A slot nothing has written (R42, R43; log entry 7). -/
def Slot.blank : Slot := { ident := 0, data := [], valid := false }

/-- The erasure unit when ABSENT (R47). -/
def Ers.absent (rsp : Word) : Ers :=
  { alive := .absent, rsp := rsp, crc := 0, slots := Vector.replicate 12 Slot.blank }

/-- A space with no buffer bound to it (log entry 10). -/
def Buffer.unbound (w : Nat) : Buffer w := { len := 0, cells := [] }

/-- No buffer is bound to any space. -/
def Buffers.unbound : Buffers :=
  { audio := .unbound 16, spec := .unbound 32, sgram := .unbound 32, cons := .unbound 32, peak := .unbound 32,
    call9 := .unbound 8, payload := .unbound 8, chunkin := .unbound 8, out := .unbound 8 }

/-- The block right after power-on reset (rule R440): both units ABSENT with `RSP = 0`, no buffer bound, no move of
HOST pending. -/
def State.reset : State :=
  { params := Config.params, host := [], allocOk := true, overlaps := [], draws := 0, bufs := .unbound,
    dec := .absent 0, ers := .absent 0 }

end Sys2Proof.Machine
end

