-- ==== Sys2Proof/Machine/Tables.lean ====
section
/-! DEFINITION. The constant tables of the block: the lengths of rule R6, the carrier-to-bin map of rule R12 and the
mode table of rule R40. No operation writes them (rules R39, R442). -/

namespace Sys2Proof.Machine

/-- The sample rate in Hz (rule R6). -/
def Rate.hz : Rate → Nat
  | .r8000 => 8000
  | .r16000 => 16000
  | .r32000 => 32000
  | .r44100 => 44100
  | .r48000 => 48000

/-- `rate_sel` selects a rate; 5, 6 and 7 select none (rule R103). -/
def Rate.ofSel (sel : BitVec 3) : Option Rate :=
  match sel.toNat with
  | 0 => some .r8000
  | 1 => some .r16000
  | 2 => some .r32000
  | 3 => some .r44100
  | 4 => some .r48000
  | _ => none

/-- `L_sym = 1280·R/8000` (rule R6). -/
def Rate.lSym (r : Rate) : Nat := 1280 * Rate.hz r / 8000

/-- `L_guard = L_sym/8` (rule R6). -/
def Rate.lGuard (r : Rate) : Nat := Rate.lSym r / 8

/-- `L_ext = L_sym + L_guard` (rule R6). -/
def Rate.lExt (r : Rate) : Nat := Rate.lSym r + Rate.lGuard r

/-- `RING_CAP = 4·L_ext` (rule R6). -/
def Rate.ringCap (r : Rate) : Nat := 4 * Rate.lExt r

/-- `HILBERT_LEN = ((21·R/8000) & ~3) | 1` with floor division (rules R6, R133). -/
def Rate.hilbertLen (r : Rate) : Nat :=
  ((BitVec.ofNat 16 (21 * Rate.hz r / 8000) &&& ~~~(3#16)) ||| 1#16).toNat

/-- The entry of a per-rate table for a rate. -/
def PerRate.get {α : Type} (t : PerRate α) : Rate → α
  | .r8000 => t.at8000
  | .r16000 => t.at16000
  | .r32000 => t.at32000
  | .r44100 => t.at44100
  | .r48000 => t.at48000

/-- `LIST` (rule R6). -/
def listWidth : Nat := 16

/-- `CODE_ORDER` (rule R6). -/
def codeOrder : Nat := 16

/-- The length of the polar mother code, `1 << code_order` (rule R261). -/
def codeLen : Nat := 65536

/-- `DATA_BITS` (rule R6). -/
def dataBits : Nat := 43040

/-- `CRC_BITS` (rule R6). -/
def crcBits : Nat := 43072

/-- The bytes FETCH delivers, `DATA_BITS / 8` (rule R6). -/
def payloadLen : Nat := 5380

/-- `SLOTS` (rule R6). -/
def slotCount : Nat := 12

/-- `CHUNK_LEN` (rule R6). -/
def chunkLen : Nat := 5376

/-- `bin(c) = (c + L_sym) mod L_sym` (rule R12). -/
def binOf (lSym : Nat) (c : Int) : Nat := ((c + lSym) % (lSym : Int)).toNat

/-- One row of the mode table (rule R40) with the derived `carrier_offset = -carrier_count/2` (rule R28). -/
def modeRow (mode carriers symbols bits : Nat) (sel : FrozenSel) : ModeRegs :=
  { operMode := mode
    carrierCount := carriers
    symbolCount := symbols
    modBits := bits
    consBits := match sel with
      | .t64800 => 64800
      | .t64512 => 64512
    mesgBits := match sel with
      | .t64800 => 43808
      | .t64512 => 44096
    frozenSel := sel
    carrierOffset := -((carriers / 2 : Nat) : Int) }

/-- The mode table (rule R40); a mode outside 6..13 has no row. -/
def modeTable (mode : Nat) : Option ModeRegs :=
  match mode with
  | 6 => some (modeRow 6 432 50 3 .t64800)
  | 7 => some (modeRow 7 400 54 3 .t64800)
  | 8 => some (modeRow 8 400 81 2 .t64800)
  | 9 => some (modeRow 9 360 90 2 .t64800)
  | 10 => some (modeRow 10 512 42 3 .t64512)
  | 11 => some (modeRow 11 384 56 3 .t64512)
  | 12 => some (modeRow 12 384 84 2 .t64512)
  | 13 => some (modeRow 13 256 126 2 .t64512)
  | _ => none

/-- The frozen table a mode's registers select (rules R28, R262). -/
def Params.frozen (p : Params) : FrozenSel → List Bool
  | .t64800 => p.frozen64800
  | .t64512 => p.frozen64512

/-- The exclusive upper bound of a call sign, "a literal constant of the protocol" (rule R41). -/
def callBound : Nat := 129961739795077

/-- The points and labels of `PSK(mod_bits)` (rule R226): QPSK for 2, 8-PSK for 3. -/
def Params.psk (p : Params) (modBits : Nat) : PskMap := if modBits = 2 then p.psk2 else p.psk3

end Sys2Proof.Machine
end

