-- ==== Sys2Proof/Machine/Flags.lean ====
section
/-! DEFINITION. Statuses, response words and the flags of the block (rules R37, R110, R111, R400, R410). -/

namespace Sys2Proof.Machine

/-- The six status values of PROCESS (rule R400). -/
inductive Status where
  | okay
  | fail
  | sync
  | done
  | heap
  | nope
  deriving DecidableEq, Repr, Inhabited

/-- Status codes (rule R111). -/
def Status.code : Status → Nat
  | .okay => 0
  | .fail => 1
  | .sync => 2
  | .done => 3
  | .heap => 4
  | .nope => 5

/-- `ERR` set and every other bit 0 (rules R110, R410). -/
def rspErr : Word := 0x80000000#32

/-- Bit 0 of RSP is a boolean result (rule R110: CREATE, ECREATE, CHUNK). -/
def rspBool (b : Bool) : Word := if b then 1#32 else 0#32

/-- `RSP` of PROCESS: bits 2:0 are the status code (rule R110). -/
def rspStatus (st : Status) : Word := BitVec.ofNat 32 (Status.code st)

/-- `RSP` of RATE: bits 15:0 are R in Hz (rule R110). -/
def rspRate (r : Rate) : Word := BitVec.ofNat 32 (Rate.hz r)

/-- `RSP` of a successful FETCH: bit 0 is `OK`, bits 30:8 the flip count (rules R110, R366). -/
def rspFetch (flips : Nat) : Word := 1#32 ||| (BitVec.ofNat 32 flips <<< 8)

end Sys2Proof.Machine
end

