-- ==== Sys2Proof/Machine/Ops.lean ====
section
/-! DEFINITION. Named operations over buffers, the ring and the two units: reading and writing elements, the
response of a unit, what construction and destruction leave, and the ring window. The block has no trap, no entry and
no return (rules R412 to R416): what it has in their place is the one shared answer `ERR` below (rule R410). -/

namespace Sys2Proof.Machine

/-! ### Elements by index -/

/-- Element i; an unlisted element is 0 (log entry 9). -/
def Cells.read {w : Nat} (c : Cells w) (i : Nat) : BitVec w :=
  match c with
  | [] => 0
  | (j, v) :: rest => if i = j then v else Cells.read rest i

/-- Set element i, keeping the indexes rising and listing no zero. -/
def Cells.write {w : Nat} (c : Cells w) (i : Nat) (v : BitVec w) : Cells w :=
  match c with
  | [] => if v = 0 then [] else [(i, v)]
  | (j, x) :: rest =>
    if j < i then (j, x) :: Cells.write rest i v
    else if j = i then (if v = 0 then rest else (i, v) :: rest)
    else if v = 0 then (j, x) :: rest
    else (i, v) :: (j, x) :: rest

/-- Set the elements from index `start` on to the given values, in increasing index order. -/
def Cells.writeFrom {w : Nat} (c : Cells w) (start : Nat) (vs : List (BitVec w)) : Cells w :=
  match vs with
  | [] => c
  | v :: rest => Cells.writeFrom (Cells.write c start v) (start + 1) rest

/-- The canonical form: indexes at least `lo`, below `hi` and strictly rising, and no zero listed. -/
def Cells.wfIn {w : Nat} (lo hi : Nat) : Cells w → Bool
  | [] => true
  | (i, v) :: rest => decide (lo ≤ i) && decide (i < hi) && decide (v ≠ 0) && Cells.wfIn (i + 1) hi rest

/-- The elements `start .. start + n`, moved down to index 0: what a copy of that range holds. -/
def Cells.slice {w : Nat} (c : Cells w) (start n : Nat) : Cells w :=
  match c with
  | [] => []
  | (i, v) :: rest =>
    if start ≤ i ∧ i < start + n then (i - start, v) :: Cells.slice rest start n else Cells.slice rest start n

/-- Element i of a bound buffer. -/
def Buffer.read {w : Nat} (b : Buffer w) (i : Nat) : BitVec w := Cells.read b.cells i

/-- Write consecutive elements of a bound buffer; its length is HOST's and stays. -/
def Buffer.writeFrom {w : Nat} (b : Buffer w) (start : Nat) (vs : List (BitVec w)) : Buffer w :=
  { b with cells := Cells.writeFrom b.cells start vs }

/-- A buffer with the given content (rule R70: HOST may put any content into a buffer). -/
def Buffer.ofList {w : Nat} (vs : List (BitVec w)) : Buffer w :=
  { len := vs.length, cells := Cells.writeFrom [] 0 vs }

/-- A buffer's content is in canonical form and within its length. -/
def Buffer.wf {w : Nat} (b : Buffer w) : Bool := Cells.wfIn 0 b.len b.cells

/-- Every bound buffer is in canonical form. -/
def Buffers.wf (b : Buffers) : Bool :=
  Buffer.wf b.audio && Buffer.wf b.spec && Buffer.wf b.sgram && Buffer.wf b.cons && Buffer.wf b.peak
    && Buffer.wf b.call9 && Buffer.wf b.payload && Buffer.wf b.chunkin && Buffer.wf b.out

/-- The length in elements of the buffer bound to a space. -/
def Buffers.lenOf (b : Buffers) : Space → Nat
  | .audio => b.audio.len
  | .pixel .spec => b.spec.len
  | .pixel .sgram => b.sgram.len
  | .pixel .cons => b.cons.len
  | .pixel .peak => b.peak.len
  | .byte .call9 => b.call9.len
  | .byte .payload => b.payload.len
  | .byte .chunkin => b.chunkin.len
  | .byte .out => b.out.len

/-- HOST binds a pixel space (rule R70). -/
def Buffers.bindPixels (b : Buffers) (space : PixelSpace) (buf : Buffer 32) : Buffers :=
  match space with
  | .spec => { b with spec := buf }
  | .sgram => { b with sgram := buf }
  | .cons => { b with cons := buf }
  | .peak => { b with peak := buf }

/-- HOST binds a byte space (rule R70). -/
def Buffers.bindBytes (b : Buffers) (space : ByteSpace) (buf : Buffer 8) : Buffers :=
  match space with
  | .call9 => { b with call9 := buf }
  | .payload => { b with payload := buf }
  | .chunkin => { b with chunkin := buf }
  | .out => { b with out := buf }

/-! ### Answers of a unit -/

/-- The decoder unit answers and changes nothing else. -/
def State.decRespond (s : State) (rsp : Word) : State := { s with dec := { s.dec with rsp := rsp } }

/-- The erasure unit answers and changes nothing else. -/
def State.ersRespond (s : State) (rsp : Word) : State := { s with ers := { s.ers with rsp := rsp } }

/-- The unit answers `ERR` and nothing was done: an illegal command word (rule R120) or an operation that cannot act
on an ABSENT unit (rules R406, R410). It is the block's one shared error entry; there is no trap (rule R414). -/
def State.err (s : State) (u : UnitId) : State :=
  match u with
  | .dec => s.decRespond rspErr
  | .ers => s.ersRespond rspErr

/-! ### Construction and destruction -/

/-- The soft bit 0 of type `SOFT`. -/
def SoftKind.zero : SoftKind → SoftBit
  | .float => .float 0
  | .int8 => .int8 0

/-- The decoder unit right after a successful CREATE (rules R47, R360). Registers the spec gives no value hold the
values of log entry 7. -/
def Dec.created (f : Functions) (p : Params) (r : Rate) : Dec :=
  { Dec.absent 1 with
    alive := .created
    rate := r
    ring := List.replicate (Rate.ringCap r) default
    nW := Rate.ringCap r
    hilbert := List.replicate (Rate.hilbertLen r) 0
    corrState := f.detect.init r
    code := List.replicate codeLen (SoftKind.zero p.soft) }

/-- The erasure unit right after a successful ECREATE (rules R47, R367). -/
def Ers.created : Ers := { Ers.absent 1 with alive := .created }

/-! ### The ring (rule R30) -/

/-- `ring_at(n)`: sample n, numbered absolutely; none outside the held range (rule R30). -/
def Dec.ringAt (d : Dec) (n : Int) : Option Cplx :=
  if (d.nW : Int) - Rate.ringCap d.rate ≤ n ∧ n < (d.nW : Int) then d.ring[((d.nW : Int) - 1 - n).toNat]? else none

/-- `n` consecutive samples from `base` on; none if one of them is not held (rule R30). -/
def Dec.readRing (d : Dec) (base : Int) : Nat → Option (List Cplx)
  | 0 => some []
  | n + 1 =>
    match d.ringAt base, d.readRing (base + 1) n with
    | some z, some zs => some (z :: zs)
    | _, _ => none

/-- The `L_sym` samples of the symbol that starts at `base` (rules R181, R221). -/
def Dec.window (d : Dec) (base : Int) : Option (List Cplx) := d.readRing base (Rate.lSym d.rate)

end Sys2Proof.Machine
end

