-- ==== Sys2Proof/Machine/Float.lean ====
section
/-! DEFINITION. Numbers: binary32 as IEEE 754 lays it out (rule R431), arithmetic computed exactly and narrowed by
`NUM.round` (rules R11, R431), complex samples (rule R11), sums in `NUM`'s order, sorting and medians (rule R228). -/

namespace Sys2Proof.Machine

/-! ### binary32 -/

/-- The sign bit. -/
def F32.negative (x : F32) : Bool := x.msb

/-- The biased exponent, bits 30:23. -/
def F32.exponent (x : F32) : Nat := (x.extractLsb' 23 8).toNat

/-- The fraction, bits 22:0. -/
def F32.fraction (x : F32) : Nat := (x.extractLsb' 0 23).toNat

/-- Not a number. -/
def F32.isNaN (x : F32) : Bool := decide (F32.exponent x = 255) && decide (F32.fraction x ≠ 0)

/-- A finite value (not infinite, a number). -/
def F32.isFinite (x : F32) : Bool := decide (F32.exponent x ≠ 255)

/-- +0 or −0. -/
def F32.isZero (x : F32) : Bool := decide (x.extractLsb' 0 31 = 0)

/-- The magnitude of a finite float32 with the given exponent and fraction fields. DESIGN CHOICE: a subnormal is read
by its value, not flushed to zero (log entry 52). -/
def F32.magnitude (exponent fraction : Nat) : Rat :=
  if exponent = 0 then mkRat fraction (2 ^ 149)
  else if 150 ≤ exponent then (((2 ^ 23 + fraction) * 2 ^ (exponent - 150) : Nat) : Rat)
  else mkRat (2 ^ 23 + fraction : Nat) (2 ^ (150 - exponent))

/-- The exact value of a finite float32; none for an infinity or a NaN. -/
def F32.toRat? (x : F32) : Option Rat :=
  if F32.isFinite x then
    let m := F32.magnitude (F32.exponent x) (F32.fraction x)
    some (if F32.negative x then -m else m)
  else none

/-- The significand `n·2^(-k)` scaled to the unit in the last place `2^u`, where that is a whole number. -/
def F32.significand (n k : Nat) (u : Int) : Option Nat :=
  let sh : Int := -(k : Int) - u
  if 0 ≤ sh then some (n * 2 ^ sh.toNat)
  else if n % 2 ^ (-sh).toNat = 0 then some (n / 2 ^ (-sh).toNat)
  else none

/-- The float32 whose value is exactly n/d (in lowest terms), if there is one. DESIGN CHOICE: it may be subnormal, so
an exact subnormal result is kept, not flushed to zero (log entry 52). -/
def F32.exactMag (n d : Nat) : Option F32 :=
  if n = 0 then some 0
  else
    let k := Nat.log2 d
    let e : Int := (Nat.log2 n : Int) - k
    if d ≠ 2 ^ k ∨ 127 < e then none
    else
      match F32.significand n k (max (e - 23) (-149)) with
      | none => none
      | some m =>
        if m < 2 ^ 23 then some (BitVec.ofNat 32 m)
        else some (BitVec.ofNat 32 ((e + 127).toNat * 2 ^ 23 + (m - 2 ^ 23)))

/-- The opposite number: the sign bit flipped. -/
def F32.neg (x : F32) : F32 := x ^^^ 0x80000000#32

/-- The float32 whose value is exactly q, if there is one; zero is +0 (log entry 14). -/
def F32.exact? (q : Rat) : Option F32 :=
  match F32.exactMag q.num.natAbs q.den with
  | none => none
  | some m => some (if q < 0 then F32.neg m else m)

/-- Narrow an exact result: the float32 that holds it, or what `NUM.round` gives where none does (log entry 14). -/
def narrow (num : Numerics) (q : Rat) : F32 := (F32.exact? q).getD (num.round q)

/-- The exact result of an operation on finite numbers; none for a division by zero. -/
def exactOp (op : NumOp) (x y : Rat) : Option Rat :=
  match op with
  | .add => some (x + y)
  | .sub => some (x - y)
  | .mul => some (x * y)
  | .div => if y = 0 then none else some (x / y)

/-- A float32 operation: exact, then narrowed; `NUM.special` where an operand is not finite or the divisor is zero
(rule R431, log entry 15). -/
def arith (num : Numerics) (op : NumOp) (a b : F32) : F32 :=
  match F32.toRat? a, F32.toRat? b with
  | some x, some y =>
    match exactOp op x y with
    | some q => narrow num q
    | none => num.special op a b
  | _, _ => num.special op a b

def F32.add (num : Numerics) (a b : F32) : F32 := arith num .add a b
def F32.sub (num : Numerics) (a b : F32) : F32 := arith num .sub a b
def F32.mul (num : Numerics) (a b : F32) : F32 := arith num .mul a b
def F32.div (num : Numerics) (a b : F32) : F32 := arith num .div a b

/-- The float32 of an integer. -/
def F32.ofInt (num : Numerics) (n : Int) : F32 := narrow num (n : Rat)

/-- The place of a number in the order of the reals, as an integer; −0 and +0 have one place. -/
def F32.key (x : F32) : Int :=
  if F32.negative x then -((x.extractLsb' 0 31).toNat : Int) else ((x.extractLsb' 0 31).toNat : Int)

/-- `a < b`, false where one is not a number. -/
def F32.lt (a b : F32) : Bool := !F32.isNaN a && !F32.isNaN b && decide (F32.key a < F32.key b)

/-- `a ≤ b`, false where one is not a number. -/
def F32.le (a b : F32) : Bool := !F32.isNaN a && !F32.isNaN b && decide (F32.key a ≤ F32.key b)

/-- The sum of a list in `NUM`'s order: two of the remaining terms are added until one is left (log entry 17). -/
def sumLoop (num : Numerics) (order : Nat → Nat) : Nat → List F32 → F32
  | 0, xs => xs.headD 0
  | k + 1, xs =>
    match xs with
    | [] => 0
    | [x] => x
    | x0 :: x1 :: rest =>
      let all := x0 :: x1 :: rest
      let i := order (2 * k) % all.length
      let others := all.eraseIdx i
      let j := order (2 * k + 1) % others.length
      sumLoop num order k (F32.add num (all.getD i 0) (others.getD j 0) :: others.eraseIdx j)

/-- `Σ xs` (rule R431: the order is `NUM.sum_order`). -/
def F32.sum (num : Numerics) (xs : List F32) : F32 := sumLoop num (num.sumOrder xs.length) xs.length xs

/-- A 16-bit PCM value or the sum of two, divided by a power of two: exact in float32 (rule R131). -/
def pcm (num : Numerics) (v : Int) (scale : Nat) : F32 := narrow num (mkRat v scale)

/-! ### complex samples -/

/-- A complex zero, the value of an erasure (rule R17). -/
def Cplx.zero : Cplx := { re := 0, im := 0 }

/-- Both parts are zero. -/
def Cplx.isZero (z : Cplx) : Bool := F32.isZero z.re && F32.isZero z.im

/-- A part is not a number. -/
def Cplx.hasNaN (z : Cplx) : Bool := F32.isNaN z.re || F32.isNaN z.im

/-- The opposite of z. -/
def Cplx.neg (z : Cplx) : Cplx := { re := F32.neg z.re, im := F32.neg z.im }

/-- `conj(z)` (rule R11). -/
def Cplx.conj (z : Cplx) : Cplx := { re := z.re, im := F32.neg z.im }

/-- `z·w` (log entry 16). -/
def Cplx.mul (num : Numerics) (z w : Cplx) : Cplx :=
  { re := F32.sub num (F32.mul num z.re w.re) (F32.mul num z.im w.im)
    im := F32.add num (F32.mul num z.re w.im) (F32.mul num z.im w.re) }

/-- `z − w`. -/
def Cplx.sub (num : Numerics) (z w : Cplx) : Cplx :=
  { re := F32.sub num z.re w.re, im := F32.sub num z.im w.im }

/-- `|z|² = re² + im²` (rule R11). -/
def Cplx.norm (num : Numerics) (z : Cplx) : F32 := F32.add num (F32.mul num z.re z.re) (F32.mul num z.im z.im)

/-- `z/w`, the product with the conjugate over `|w|²` (rule R11, log entry 16). -/
def Cplx.div (num : Numerics) (z w : Cplx) : Cplx :=
  let n := Cplx.norm num w
  { re := F32.div num (F32.add num (F32.mul num z.re w.re) (F32.mul num z.im w.im)) n
    im := F32.div num (F32.sub num (F32.mul num z.im w.re) (F32.mul num z.re w.im)) n }

/-- `exp(−i·φ)` (rules R181, R221, R229). -/
def rotor (num : Numerics) (phi : F32) : Cplx := num.cexp (F32.neg phi)

/-- 2π, the nearest float32 (rule R365; log entry 19). -/
def F32.twoPi : F32 := 0x40C90FDB#32

/-- 4, the erasure threshold of rule R17, "a fixed protocol choice". -/
def F32.four : F32 := 0x40800000#32

/-- `demod_or_erase(curr, prev)` (rule R17). A NaN argument or result is an erasure (rule R17, U14). DESIGN CHOICE: a
ratio with no NaN part whose `|q|²` is a NaN is an erasure too (log entry 56). -/
def demodOrErase (num : Numerics) (curr prev : Cplx) : Cplx :=
  if Cplx.hasNaN curr || Cplx.hasNaN prev then Cplx.zero
  else if F32.le (Cplx.norm num prev) 0 then Cplx.zero
  else
    let q := Cplx.div num curr prev
    if Cplx.hasNaN q || F32.isNaN (Cplx.norm num q) || F32.lt F32.four (Cplx.norm num q) then Cplx.zero else q

/-- The samples of a symbol de-rotated by an offset: sample n times `exp(−i·cfo·n)` (rules R181, R221). DESIGN CHOICE:
the phase `cfo·n` is rounded to one float32 for each sample and `cexp` taken of it; no phasor is accumulated
(log entry 46). -/
def derotate (num : Numerics) (cfo : F32) (xs : List Cplx) : List Cplx :=
  xs.mapIdx fun n z => Cplx.mul num z (rotor num (F32.mul num cfo (F32.ofInt num n)))

/-! ### order -/

/-- Insert before the first element that `before` puts after x: equal elements keep their order. -/
def insertBy {α : Type} (before : α → α → Bool) (x : α) : List α → List α
  | [] => [x]
  | y :: ys => if before x y then x :: y :: ys else y :: insertBy before x ys

/-- The list in the order of `before`, equal elements in the order they stood. -/
def sortBy {α : Type} (before : α → α → Bool) (xs : List α) : List α :=
  xs.foldl (fun sorted x => insertBy before x sorted) []

/-- The median of rule R228: of q values the element of rank `floor(q/2)` in increasing order. -/
def median (xs : List F32) : F32 := (sortBy F32.lt xs).getD (xs.length / 2) 0

/-! ### soft bits -/

/-- The whole number a value is rounded to: the nearest, `NUM` deciding halves (rule R232, log entry 24). -/
def roundNearest (num : Numerics) (q : Rat) : Int :=
  let low := q.floor
  let rest := q - (low : Rat)
  if rest < 1 / 2 then low
  else if 1 / 2 < rest then low + 1
  else if num.tieUp q then low + 1
  else low

/-- Saturation to −127 .. 127 (rule R232). -/
def saturate127 (n : Int) : BitVec 8 := BitVec.ofInt 8 (max (-127) (min 127 n))

/-- `to_SOFT` for `SOFT = int8` (rule R232); an infinity saturates (U15). -/
def toInt8 (num : Numerics) (v : F32) : BitVec 8 :=
  match F32.toRat? v with
  | some q => saturate127 (roundNearest num q)
  | none => if F32.isNaN v then num.nanToInt8 v else saturate127 (if F32.negative v then -127 else 127)

/-- `to_SOFT` (rule R232): the identity for float. -/
def toSoft (num : Numerics) (kind : SoftKind) (v : F32) : SoftBit :=
  match kind with
  | .float => .float v
  | .int8 => .int8 (toInt8 num v)

/-- `hard(s) = 1` if `s < 0`, else 0 (rule R14). -/
def SoftBit.hard : SoftBit → Bool
  | .float v => F32.lt v 0
  | .int8 v => v.msb

/-- 9000.0 in binary32. -/
def F32.nineThousand : F32 := 0x460CA000#32

/-- `quant(9000)`: 9000.0 for float, 127 for int8 (rule R264). -/
def quant9000 (num : Numerics) (kind : SoftKind) : SoftBit := toSoft num kind F32.nineThousand

end Sys2Proof.Machine
end

