-- ==== Sys2Proof/Machine/Operands.lean ====
section
/-! DEFINITION. Operand forms: channel modes and audio frames (rules R72, R85, R364), and the checks on the buffers an
operation is handed (rules R72, R76, R86). -/

namespace Sys2Proof.Machine

/-- The channel modes "{0=mono, 1=left, 2=right, 3=sum, 4=IQ}" (rules R103, R131). -/
inductive Channel where
  | mono
  | left
  | right
  | sum
  | iq
  deriving DecidableEq, Repr, Inhabited

/-- The channel selector; 5 to 7 are reserved (rules R103, R120). -/
def Channel.ofSel (sel : BitVec 3) : Option Channel :=
  match sel.toNat with
  | 0 => some .mono
  | 1 => some .left
  | 2 => some .right
  | 3 => some .sum
  | 4 => some .iq
  | _ => none

/-- The int16 values of AUDIO one PROCESS reads: `L_ext` in channel 0, `2·L_ext` in channels 1 to 4 (rules R72, R364). -/
def audioLen (r : Rate) : Channel → Nat
  | .mono => Rate.lExt r
  | .left | .right | .sum | .iq => 2 * Rate.lExt r

/-- One sample frame: the mono value, or the left and right values (rule R364). -/
structure Frame where
  left : Half
  right : Half
  deriving DecidableEq, Repr, Inhabited

/-- Frame f of AUDIO: `AUDIO[f]` in channel 0, (`AUDIO[2f]`, `AUDIO[2f+1]`) otherwise, left first (rule R85). -/
def frameAt (audio : Buffer 16) (ch : Channel) (f : Nat) : Frame :=
  match ch with
  | .mono => { left := audio.read f, right := 0 }
  | .left | .right | .sum | .iq => { left := audio.read (2 * f), right := audio.read (2 * f + 1) }

/-- The `L_ext` frames of one block, in index order (rules R85, R130). -/
def framesOf (audio : Buffer 16) (ch : Channel) (r : Rate) : List Frame :=
  (List.range (Rate.lExt r)).map (frameAt audio ch)

/-- The first space whose bound buffer has not the length given for it, "Lengths are exact" (rule R72, U6). -/
def misfitBuffer (b : Buffers) : List (Space × Nat) → Option Space
  | [] => none
  | (sp, n) :: rest => if b.lenOf sp = n then misfitBuffer b rest else some sp

/-- Two different spaces of the list are bound to overlapping storage (rule R86). -/
def spacesOverlap (pairs : List (Space × Space)) (handed : List Space) : Bool :=
  pairs.any fun p => decide (p.1 ≠ p.2) && handed.contains p.1 && handed.contains p.2

/-- The buffers of PROCESS and their lengths (rule R72). -/
def processLengths (r : Rate) (ch : Channel) : List (Space × Nat) :=
  [(.audio, audioLen r ch), (.pixel .spec, 640 * 64), (.pixel .sgram, 640 * 256), (.pixel .cons, 64 * 64),
    (.pixel .peak, 16)]

end Sys2Proof.Machine
end

