-- ==== Sys2Proof/Machine/Conditioner.lean ====
section
/-! DEFINITION. Stage 1, the sample conditioner, and the append to the ring (40_sample_conditioner.md). -/

namespace Sys2Proof.Machine

/-- The real scalar of a frame in channels 0 to 3 (rule R131); the sum is taken without wrap. Channel 4 has no scalar
and `Dec.condition` asks for none. -/
def channelScalar (num : Numerics) (ch : Channel) (fr : Frame) : F32 :=
  match ch with
  | .mono | .left | .iq => pcm num fr.left.toInt 32768
  | .right => pcm num fr.right.toInt 32768
  | .sum => pcm num (fr.left.toInt + fr.right.toInt) 65536

/-- The pair of a frame in channel 4, `(L + i·R)/32768` (rule R131). -/
def channelPair (num : Numerics) (fr : Frame) : Cplx :=
  { re := pcm num fr.left.toInt 32768, im := pcm num fr.right.toInt 32768 }

/-- The output of the DC blocker in state st on input x (rule R132, log entry 20). -/
def dcOutput (num : Numerics) (k : DcCoef) (st x : F32) : F32 := F32.add num (F32.mul num k.c st) (F32.mul num k.d x)

/-- The next state of the DC blocker (rule R132, log entry 20). -/
def dcNext (num : Numerics) (k : DcCoef) (st x : F32) : F32 := F32.add num (F32.mul num k.a st) (F32.mul num k.b x)

/-- Shift a sample into the Hilbert delay line, newest first (rule R133). -/
def hilbertShift (r : Rate) (y : F32) (h : List F32) : List F32 := (y :: h).take (Rate.hilbertLen r)

/-- The complex sample the Hilbert filter gives: `h[D]` and `Σ HILBERT_TAPS[k]·h[k]` (rule R133). -/
def hilbertOutput (num : Numerics) (r : Rate) (taps h : List F32) : Cplx :=
  { re := h.getD ((Rate.hilbertLen r - 1) / 2) 0
    im := F32.sum num ((List.range (Rate.hilbertLen r)).map fun k => F32.mul num (taps.getD k 0) (h.getD k 0)) }

/-- Condition a real scalar: DC blocker, then Hilbert filter (rules R132 to R134). -/
def Dec.conditionReal (f : Functions) (p : Params) (d : Dec) (x : F32) : Dec × Cplx :=
  let k := PerRate.get p.dcFilter d.rate
  let h := hilbertShift d.rate (dcOutput f.num k d.dcState x) d.hilbert
  ({ d with dcState := dcNext f.num k d.dcState x, hilbert := h },
    hilbertOutput f.num d.rate (PerRate.get p.hilbertTaps d.rate) h)

/-- Condition one frame (rules R130 to R135): channel 4 bypasses both filters and leaves their state. -/
def Dec.condition (f : Functions) (p : Params) (ch : Channel) (d : Dec) (fr : Frame) : Dec × Cplx :=
  match ch with
  | .iq => (d, channelPair f.num fr)
  | .mono | .left | .right | .sum => d.conditionReal f p (channelScalar f.num ch fr)

/-- Append a sample to the ring, dropping the oldest (rules R30, R136). -/
def Dec.append (d : Dec) (z : Cplx) : Dec :=
  { d with ring := (z :: d.ring).take (Rate.ringCap d.rate), nW := d.nW + 1 }

end Sys2Proof.Machine
end

