-- ==== Sys2Proof/Machine/Correlator.lean ====
section
/-! DEFINITION. Stage 2, the burst correlator as the contract of 41_burst_correlator.md, and the sample loop of
PROCESS (rule R363). -/

namespace Sys2Proof.Machine

/-- Record a detection: the correlator's output registers (rules R155, R158). -/
def Dec.report (d : Dec) (pos : Int) (cfo : F32) : Dec :=
  { d with symbolPosAbs := pos, cfoRad := cfo, detPending := true }

/-- One step of the correlator on the ring and its own state (rule R155); it runs in every state of FSM. -/
def Dec.correlate (f : Functions) (d : Dec) : Dec :=
  match f.detect.step d.rate d.corrState d.ring d.nW with
  | (cs, none) => { d with corrState := cs }
  | (cs, some (pos, cfo)) => { d with corrState := cs }.report pos cfo

/-- One frame of the sample loop: condition, append, correlate (rules R130, R363). -/
def Dec.sampleStep (f : Functions) (p : Params) (ch : Channel) (d : Dec) (fr : Frame) : Dec :=
  let (d, z) := d.condition f p ch fr
  (d.append z).correlate f

/-- The sample loop over the frames of a block, in index order (rules R134, R363). -/
def Dec.sampleLoop (f : Functions) (p : Params) (ch : Channel) (d : Dec) (frames : List Frame) : Dec :=
  frames.foldl (Dec.sampleStep f p ch) d

/-- The window index of the source for an absolute sample index (rules R30, R159). -/
def Dec.windowIndex (d : Dec) (n : Int) : Int := n - ((d.nW : Int) - Rate.ringCap d.rate)

end Sys2Proof.Machine
end

