-- ==== Sys2Proof/Machine/Transform.lean ====
section
/-! DEFINITION. The transform of rule R182: the forward discrete Fourier transform without scaling, on the exact values
of float32 samples, and the float32 spectrum that `NUM.fft` gives of it up to the error the record bounds (rule R431). -/

namespace Sys2Proof.Machine

/-! ### Exact complex numbers -/

/-- A complex number with rational parts. -/
structure CRat where
  re : Rat
  im : Rat
  deriving DecidableEq, Repr, Inhabited

/-- `z + w`. -/
def CRat.add (z w : CRat) : CRat := { re := z.re + w.re, im := z.im + w.im }

/-- `z·w`. -/
def CRat.mul (z w : CRat) : CRat := { re := z.re * w.re - z.im * w.im, im := z.re * w.im + z.im * w.re }

/-- `z/q`. -/
def CRat.over (z : CRat) (q : Rat) : CRat := { re := z.re / q, im := z.im / q }

/-- The exact value of a complex sample; none where a part is not finite. -/
def Cplx.exact? (z : Cplx) : Option CRat :=
  match F32.toRat? z.re, F32.toRat? z.im with
  | some x, some y => some { re := x, im := y }
  | _, _ => none

/-- The exact values of a vector; none where a sample is not finite. -/
def exactSamples : List Cplx → Option (List CRat)
  | [] => some []
  | z :: zs =>
    match Cplx.exact? z, exactSamples zs with
    | some q, some qs => some (q :: qs)
    | _, _ => none

/-- `Σ(|re| + |im|)`, which no part of a bin and no sum on the way to one exceeds. -/
def absSum (zs : List CRat) : Rat := (zs.map fun z => |z.re| + |z.im|).sum

/-! ### The forward transform -/

/-- The power series term `z^m/m!`. -/
def expTerm (z : CRat) : Nat → CRat
  | 0 => { re := 1, im := 0 }
  | m + 1 => ((expTerm z m).mul z).over (m + 1 : Nat)

/-- The first n terms of `exp(z)`. -/
def expSum (z : CRat) : Nat → CRat
  | 0 => { re := 0, im := 0 }
  | n + 1 => (expSum z n).add (expTerm z n)

/-- π to twenty digits. -/
def piDigits : Rat := 314159265358979323846 / 100000000000000000000

/-- The kernel `exp(−2πi·j/N)` of rule R182, to eighteen digits (log entry 18). -/
def twiddle (size j : Nat) : CRat := expSum { re := 0, im := -(2 * piDigits * j / size) } 48

/-- `Σ z[n]·exp(−2πi·n·k/N)`, without scaling (rule R182). -/
def dft (zs : List CRat) (k : Nat) : CRat :=
  (zs.mapIdx fun n z => z.mul (twiddle zs.length (n * k % zs.length))).foldr CRat.add { re := 0, im := 0 }

/-! ### The spectrum in float32 -/

/-- The largest finite float32. -/
def F32.largest : Rat := F32.magnitude 254 (2 ^ 23 - 1)

/-- The error `NUM` allows a transform of these samples, and that of the digits of the kernel (rule R431). -/
def fftTolerance (num : Numerics) (zs : List CRat) : Rat := (|num.fftBound zs.length| + 1 / 10 ^ 18) * absSum zs

/-- One part of a bin: the float32 that `NUM.fft` gives, where it lies within the bound of the exact value q, or where
a sum may overflow and it is not finite; else the float32 of q (rule R431, log entry 18). -/
def boundedPart (num : Numerics) (zs : List CRat) (given : F32) (q : Rat) : F32 :=
  match F32.toRat? given with
  | some v => if |v - q| ≤ fftTolerance num zs then given else narrow num q
  | none => if F32.largest < absSum zs + fftTolerance num zs then given else narrow num q

/-- Bin k of the transform of finite samples; of a vector with a sample that is not finite it is what `NUM` gives
(rules R182, R431, U14). -/
def fftBin (num : Numerics) (xs : List Cplx) (k : Nat) : Cplx :=
  match exactSamples xs with
  | some zs =>
    { re := boundedPart num zs (num.fft xs k).re (dft zs k).re
      im := boundedPart num zs (num.fft xs k).im (dft zs k).im }
  | none => num.fft xs k

/-- The transform of a vector, one bin per sample (rules R182, R222). -/
def transform (num : Numerics) (xs : List Cplx) : List Cplx := (List.range xs.length).map (fftBin num xs)

end Sys2Proof.Machine
end

