-- ==== Sys2Proof/Machine/Demodulator.lean ====
section
/-! DEFINITION. Stage 4, the symbol demodulator (43_symbol_demodulator.md): one data symbol to soft bits. -/

namespace Sys2Proof.Machine

/-- The carriers of the mode, `F[bin(c_k)]` for k = 0 .. carrier_count - 1 (rules R223, R224). -/
def carrierValues (lSym : Nat) (m : ModeRegs) (spectrum : List Cplx) : List Cplx :=
  (List.range m.carrierCount).map fun (k : Nat) =>
    spectrum.getD (binOf lSym (m.carrierOffset + (k : Int))) Cplx.zero

/-- The differential demap against the same bins of the previous symbol (rule R225). -/
def demapCarriers (num : Numerics) (m : ModeRegs) (curr prev : List Cplx) : List Cplx :=
  (List.range m.carrierCount).map fun k => demodOrErase num (curr.getD k Cplx.zero) (prev.getD k Cplx.zero)

/-- `PSK.decide(z)`, the ideal point (rule R226). -/
def idealPoint (f : Functions) (p : Params) (m : ModeRegs) (z : Cplx) : Cplx :=
  (Params.psk p m.modBits).points.getD (f.pskDecide m.modBits z) Cplx.zero

/-- The points of the slope estimate: `(c_k, arg(cons[k]·conj(ideal)))` of every non-erased carrier (rule R227). -/
def slopePoints (f : Functions) (p : Params) (m : ModeRegs) (cons : List Cplx) : List (Int × F32) :=
  (cons.zipIdx.filter fun zk => !Cplx.isZero zk.1).map fun zk =>
    (m.carrierOffset + (zk.2 : Int), f.num.arg (Cplx.mul f.num zk.1 (Cplx.conj (idealPoint f p m zk.1))))

/-- The slope between two points (rule R228).
DESIGN CHOICE: the difference is rounded, then the quotient (log entry 60). -/
def slopeOf (num : Numerics) (a b : Int × F32) : F32 :=
  F32.div num (F32.sub num b.2 a.2) (F32.ofInt num (b.1 - a.1))

/-- The pairwise slopes, `0 ≤ a < b < m` (rule R228). -/
def pairSlopes (num : Numerics) : List (Int × F32) → List F32
  | [] => []
  | a :: rest => rest.map (slopeOf num a) ++ pairSlopes num rest

/-- The Theil–Sen line (slope, intercept) of the points (rule R228). DESIGN CHOICE: `slope·x` is rounded, then each
residual (log entry 60). -/
def theilSen (num : Numerics) (pts : List (Int × F32)) : F32 × F32 :=
  match pts with
  | [] => (0, 0)
  | [a] => (0, a.2)
  | a :: b :: rest =>
    let slope := median (pairSlopes num (a :: b :: rest))
    (slope, median ((a :: b :: rest).map fun q => F32.sub num q.2 (F32.mul num slope (F32.ofInt num q.1))))

/-- `line(x) = icpt + slope·x` (rule R228). DESIGN CHOICE: the product is rounded, then the sum (log entry 60). -/
def lineAt (num : Numerics) (line : F32 × F32) (x : Int) : F32 :=
  F32.add num line.2 (F32.mul num line.1 (F32.ofInt num x))

/-- Rotate every bin by `exp(−i·line(c_k))`; an erased bin stays 0 (rule R229). DESIGN CHOICE: the phase is one float32
for each carrier and `cexp` taken of it; no phasor is accumulated from carrier to carrier (log entry 46). -/
def compensate (num : Numerics) (m : ModeRegs) (line : F32 × F32) (cons : List Cplx) : List Cplx :=
  cons.mapIdx fun k z =>
    if Cplx.isZero z then z else Cplx.mul num z (rotor num (lineAt num line (m.carrierOffset + (k : Int))))

/-- `precision = 2·Σ|hard|² / Σ|error|²` over all carriers (rule R231). -/
def precision (f : Functions) (p : Params) (m : ModeRegs) (cons : List Cplx) : F32 :=
  let se := F32.sum f.num (cons.map fun z => Cplx.norm f.num (Cplx.sub f.num z (idealPoint f p m z)))
  let sh := F32.sum f.num (cons.map fun z => Cplx.norm f.num (idealPoint f p m z))
  F32.div f.num (F32.mul f.num (F32.ofInt f.num 2) sh) se

/-- The soft bits of one symbol, carrier by carrier (rules R232, R237). -/
def softBits (f : Functions) (p : Params) (m : ModeRegs) (cons : List Cplx) : List SoftBit :=
  let pr := precision f p m cons
  cons.flatMap fun z =>
    (List.range m.modBits).map fun b => toSoft f.num p.soft (F32.mul f.num pr (f.pskSoft m.modBits z b))

/-- Overwrite the entries from `off` on by ys (rule R237). -/
def splice {α : Type} (xs : List α) (off : Nat) (ys : List α) : List α :=
  xs.mapIdx fun i x => if off ≤ i ∧ i < off + ys.length then ys.getD (i - off) x else x

/-- The demapped, compensated points of a symbol with the given carriers (rules R225 to R229). -/
def equalize (f : Functions) (p : Params) (m : ModeRegs) (curr prev : List Cplx) : List Cplx :=
  let cons := demapCarriers f.num m curr prev
  compensate f.num m (theilSen f.num (slopePoints f p m cons)) cons

/-- Where data symbol `symbol_number + 1` starts: `symbol_position_abs + i·L_ext` (rules R27, R221). -/
def Dec.dataBase (d : Dec) : Int := d.symbolPositionAbs + ((d.symbolNumber : Int) + 1) * Rate.lExt d.rate

/-- One data symbol of samples `xs` (rules R221 to R238): soft bits appended to `code`, `prev` replaced,
`symbol_number` incremented. -/
def Dec.demodulate (f : Functions) (p : Params) (d : Dec) (xs : List Cplx) : Dec :=
  let tdom := derotate f.num d.cfoBurst xs
  let spectrum := transform f.num tdom
  let curr := carrierValues (Rate.lSym d.rate) d.mode spectrum
  let cons := equalize f p d.mode curr d.prev
  { d with
    tdom := tdom
    fdom := spectrum
    consPts := cons
    code := splice d.code (d.mode.modBits * d.symbolNumber * d.mode.carrierCount) (softBits f p d.mode cons)
    prev := curr
    symbolNumber := d.symbolNumber + 1 }

end Sys2Proof.Machine
end

