-- ==== Sys2Proof/Machine/Field.lean ====
section
/-! DEFINITION. The field GF(2^16) (rules R301 to R303) and the Cauchy matrix with its inverse (rules R307, R309). -/

namespace Sys2Proof.Machine

/-- The loop of `gf_mul` on plain numbers, at most `fuel` bits of b (rule R302). -/
def gfMulLoop (poly : Nat) : Nat → Nat → Nat → Nat → Nat
  | 0, _, _, r => r
  | fuel + 1, a, b, r =>
    if b = 0 then r
    else
      let r := if b.testBit 0 then r ^^^ a else r
      let a := a <<< 1
      gfMulLoop poly fuel (if a &&& 0x10000 ≠ 0 then a ^^^ poly else a) (b >>> 1) r

/-- `gf_mul(a, b)`, multiplication modulo `GF_POLY` (rule R302). -/
def gfMul (poly : Nat) (a b : Half) : Half := BitVec.ofNat 16 (gfMulLoop poly 16 a.toNat b.toNat 0)

/-- The product of `x^2, x^4, …`, n factors: with n = 15 it is x to the power 65534. -/
def gfPowLoop (poly : Nat) : Nat → Half → Half → Half
  | 0, _, r => r
  | n + 1, x, r => gfPowLoop poly n (gfMul poly x x) (gfMul poly r (gfMul poly x x))

/-- `gf_inv(a)`, a raised to the power 65534 (rule R303). -/
def gfInv (poly : Nat) (a : Half) : Half := gfPowLoop poly 15 a 1

/-- `gf_div(a, b)` (rule R303). -/
def gfDiv (poly : Nat) (a b : Half) : Half := gfMul poly a (gfInv poly b)

/-- The product of a list of field elements. -/
def gfProd (poly : Nat) (xs : List Half) : Half := xs.foldl (gfMul poly) 1

/-- The remainder of `r` (degree below `d + n`) on division by `q` of degree `d`, polynomials over GF(2). -/
def polyRem (q d : Nat) : Nat → Nat → Nat
  | 0, r => r
  | n + 1, r => polyRem q d n (if r.testBit (d + n) then r ^^^ (q <<< n) else r)

/-- `GF_POLY` has degree 16 and no divisor of degree 1 to 8: it is irreducible of degree 16 (rule R302). -/
def gfIrreducible (p : Nat) : Bool :=
  decide (2 ^ 16 ≤ p) && decide (p < 2 ^ 17)
    && (List.range 510).all fun k => decide (polyRem (k + 2) (Nat.log2 (k + 2)) (17 - Nat.log2 (k + 2)) p ≠ 0)

/-- The matrix entry `a(x, j) = gf_inv(x ^ CRS_COL(j))` (rule R307). -/
def cauchyEntry (poly : Nat) (x y : Half) : Half := gfInv poly (x ^^^ y)

/-- Entry (i, r) of the inverse `B = A^{-1}` of the Cauchy matrix on the rows xs and columns ys, by the closed form of
rule R309 (log entry 36). -/
def cauchyInverse (poly : Nat) (xs ys : List Half) (i r : Nat) : Half :=
  let x (k : Nat) := xs.getD k 0
  let y (k : Nat) := ys.getD k 0
  let ks := List.range xs.length
  let num := gfProd poly (ks.map fun k => gfMul poly (x r ^^^ y k) (x k ^^^ y i))
  let den :=
    gfMul poly (x r ^^^ y i)
      (gfMul poly (gfProd poly ((ks.filter (· ≠ r)).map fun k => x r ^^^ x k))
        (gfProd poly ((ks.filter (· ≠ i)).map fun k => y i ^^^ y k)))
  gfDiv poly num den

end Sys2Proof.Machine
end

