-- ==== Sys2Proof/Machine/Bch.lean ====
section
/-! DEFINITION. The code BCH(255,71) (rules R189, R190) and the candidates of an order-2 ordered-statistics decoder
(rule R192). A 255-bit word holds codeword position j in bit j. -/

namespace Sys2Proof.Machine

/-- A word of n positions as a polynomial, in the map `BCH_POS` (rule R190). -/
def bchPoly {n : Nat} (pos : BchPos) (cw : BitVec n) : Nat :=
  match pos with
  | .ascending => cw.toNat
  | .descending => cw.reverse.toNat

/-- The word is a codeword: its polynomial is a multiple of `BCH_GEN` (rule R189). -/
def bchIsCodeword (p : Params) (cw : BitVec 255) : Bool :=
  decide (polyRem p.bchGen 184 71 (bchPoly p.bchPos cw) = 0)

/-- The 184 parity bits of a message, position 71 + t in bit t (rule R190). -/
def bchParity (p : Params) (msg : BitVec 71) : BitVec 184 :=
  let rem := BitVec.ofNat 184 (polyRem p.bchGen 184 71 (bchPoly p.bchPos msg <<< 184))
  match p.bchPos with
  | .ascending => rem
  | .descending => rem.reverse

/-- The systematic codeword: message bits in positions 0 .. 70, parity in 71 .. 254 (rule R190). -/
def bchEncode (p : Params) (msg : BitVec 71) : BitVec 255 := bchParity p msg ++ msg

/-- The "BCH generator matrix", 71 rows of 255 bits (rules R39, R190). -/
def bchMatrix (p : Params) : List (BitVec 255) :=
  (List.range 71).map fun k => bchEncode p ((1 : BitVec 71) <<< k)

/-- A generator of degree 184 that divides `x^255 + 1` (rule R189). -/
def bchGenOk (g : Nat) : Bool :=
  decide (2 ^ 184 ≤ g) && decide (g < 2 ^ 185) && decide (polyRem g 184 72 (2 ^ 255 + 1) = 0)

/-- The magnitude of a soft bit, as an order (rule R192 step 1). -/
def softMagnitude (s : F32) : Nat := (s.extractLsb' 0 31).toNat

/-- The 255 positions by decreasing reliability (rule R192 step 1). DESIGN CHOICE: of positions with equal |s[j]| the
lower comes first (log entry 47). -/
def osdOrder (s : List F32) : List Nat :=
  sortBy (fun a b => decide (softMagnitude (s.getD b 0) < softMagnitude (s.getD a 0))) (List.range 255)

/-- Remove position j from a row by adding the pivot row, where it is set. -/
def clearPosition (pivot : BitVec 255) (j : Nat) (row : BitVec 255) : BitVec 255 :=
  if row.getLsbD j then row ^^^ pivot else row

/-- Reduce the matrix over the positions in order: the most reliable independent positions get an identity
(rule R192 step 2). `basis` are the pivots found so far, `rows` the rows without a pivot. -/
def osdReduce : List Nat → List (Nat × BitVec 255) → List (BitVec 255) → List (Nat × BitVec 255)
  | [], basis, _ => basis
  | j :: js, basis, rows =>
    match rows.find? (·.getLsbD j) with
    | none => osdReduce js basis rows
    | some pivot =>
      osdReduce js (basis.map (fun b => (b.1, clearPosition pivot j b.2)) ++ [(j, pivot)])
        ((rows.erase pivot).map (clearPosition pivot j))

/-- The sums of at most two rows of a list, the empty sum first (rule R192 step 3). -/
def osdFlips : List (BitVec 255) → List (BitVec 255)
  | [] => [0]
  | r :: rs => osdFlips rs ++ (r :: rs.map (r ^^^ ·))

/-- The candidate codewords of order 2 (rule R192 step 3): the re-encoded hard decisions of the basis, and every one
or two of its positions flipped. -/
def osdCandidates (matrix : List (BitVec 255)) (s : List F32) : List (BitVec 255) :=
  let basis := osdReduce (osdOrder s) [] matrix
  let hard := basis.foldl (fun cw b => if F32.lt (s.getD b.1 0) 0 then cw ^^^ b.2 else cw) 0
  (osdFlips (basis.map Prod.snd)).map (hard ^^^ ·)

/-- The correlation `Σ_j s[j]·nrz(cw[j])`, exact (rules R191, R192), for finite soft bits; one that is not finite counts
as 0, and no claim rests on it (log entry 49). -/
def osdCorrelation (s : List F32) (cw : BitVec 255) : Rat :=
  ((List.range 255).map fun j =>
    let v := (F32.toRat? (s.getD j 0)).getD 0
    if cw.getLsbD j then -v else v).sum

end Sys2Proof.Machine
end

