-- ==== Sys2Proof/Machine/Checksum.lean ====
section
/-! DEFINITION. The bit-serial CRC register (rule R15) and its three instances (rules R196, R276, R316), the MLS
generator (rule R16), the xorshift32 stream (rule R282) and the base-37 call-sign text (rule R18). -/

namespace Sys2Proof.Machine

/-- `crc_msb_step`: the register shifts left (rule R15). -/
def crcMsbStep {w : Nat} (poly c : BitVec w) (b : Bool) : BitVec w :=
  if (c.msb != b) then (c <<< 1) ^^^ poly else c <<< 1

/-- `crc_lsb_step`: the register shifts right (rule R15). -/
def crcLsbStep {w : Nat} (poly c : BitVec w) (b : Bool) : BitVec w :=
  if (c.getLsbD 0 != b) then (c >>> 1) ^^^ poly else c >>> 1

/-- The step function a convention selects (rule R15). -/
def crcStep {w : Nat} (conv : CrcShift) (poly c : BitVec w) (b : Bool) : BitVec w :=
  match conv with
  | .msb => crcMsbStep poly c b
  | .lsb => crcLsbStep poly c b

/-- `crc(w, poly, init, conv, bits)`: a fold over the bits in index order (rule R15). -/
def crcBitsOf {w : Nat} (conv : CrcShift) (poly init : BitVec w) (bits : List Bool) : BitVec w :=
  bits.foldl (crcStep conv poly) init

/-- The bits of a value from bit 0 up. -/
def bitsLow {w : Nat} (v : BitVec w) : List Bool := (List.range w).map v.getLsbD

/-- The CRC-16 of the preamble over `v = md << 9`, bit 0 first, initial all-ones (rule R196). -/
def crcPreamble (p : Params) (v : BitVec 64) : BitVec 16 :=
  crcBitsOf p.crcConv.preamble 0xA8F4#16 0xFFFF#16 (bitsLow v)

/-- The CRC-32 of a polar message, initial value 0 (rule R276). -/
def crcPolar (p : Params) (bits : List Bool) : Word := crcBitsOf p.crcConv.polar 0xD419CC15#32 0#32 bits

/-- `crc_byte` of the erasure output: bits 0 to 7 of the byte (rule R316). -/
def crcErasureByte (p : Params) (c : Word) (b : Byte) : Word :=
  crcBitsOf p.crcConv.erasure 0x8F6E37A0#32 c (bitsLow b)

/-- The streaming CRC-32 of the emitted bytes, initial value 0 (rule R316). -/
def crcErasure (p : Params) (bytes : List Byte) : Word := bytes.foldl (crcErasureByte p) 0#32

/-- The next n output bits of the MLS register (rule R16): `poly` of degree d, register `reg`. -/
def mlsFrom (poly d : Nat) : Nat → Nat → List Bool
  | _, 0 => []
  | reg, n + 1 =>
    let fb := reg.testBit (d - 1)
    fb :: mlsFrom poly d (if fb then (reg <<< 1) ^^^ poly else reg <<< 1) n

/-- `mls(0b10001001)`, 127 bits: the training reference (rules R16, R152). -/
def mlsTraining : List Bool := mlsFrom 0b10001001 7 1 127

/-- `mls(0b100101011)`, 255 bits: the preamble mask (rules R16, R184). -/
def mlsMask : List Bool := mlsFrom 0b100101011 8 1 255

/-- `nrz(b) = 1 − 2·b` (rule R14). -/
def nrz (b : Bool) : Int := if b then -1 else 1

/-- `ref[k] = nrz(m[k])`, the training reference (rule R152). -/
def trainRef (k : Nat) : Int := nrz (mlsTraining.getD k false)

/-- One step of the generator (rule R282). -/
def xorshift32 (y : Word) : Word :=
  let y := y ^^^ (y <<< 13)
  let y := y ^^^ (y >>> 17)
  y ^^^ (y <<< 5)

/-- The descrambler bytes from state y on: one step per byte, the low eight bits of each output (rule R282). -/
def scrambleFrom (y : Word) : Nat → List Byte
  | 0 => []
  | n + 1 => (xorshift32 y).extractLsb' 0 8 :: scrambleFrom (xorshift32 y) n

/-- `SCRAMBLE(0 .. 5380)` (rule R282). -/
def scrambleStream (p : Params) : List Byte := scrambleFrom p.scrambleSeed payloadLen

/-- The character of a base-37 digit (rule R18): space, '0' to '9', 'A' to 'Z'. -/
def base37Char (digit : Nat) : Byte :=
  if digit = 0 then 0x20#8
  else if digit ≤ 10 then BitVec.ofNat 8 (0x30 + (digit - 1))
  else BitVec.ofNat 8 (0x41 + (digit - 11))

/-- The digit of a base-37 character (rule R18). -/
def base37Digit (c : Byte) : Nat :=
  if c = 0x20#8 then 0
  else if c.toNat ≤ 0x39 then c.toNat - 0x30 + 1
  else c.toNat - 0x41 + 11

/-- The n least significant base-37 digits of v as text, most significant first (rule R18). -/
def base37Digits (v : Nat) : Nat → List Byte
  | 0 => []
  | n + 1 => base37Digits (v / 37) n ++ [base37Char (v % 37)]

/-- `base37_text(v)`, nine characters (rule R18). -/
def base37Text (v : Nat) : List Byte := base37Digits v 9

/-- `base37_value(s)` (rule R18). -/
def base37Value (s : List Byte) : Nat := s.foldl (fun v c => 37 * v + base37Digit c) 0

end Sys2Proof.Machine
end

