-- ==== Sys2Proof/Machine/Preamble.lean ====
section
/-! DEFINITION. Stage 3, the preamble decoder (42_preamble_bch_osd.md): the metadata symbol to 255 soft bits, the
OSD, the metadata word, its CRC-16, and the classification OKAY, NOPE, FAIL. -/

namespace Sys2Proof.Machine

/-- The result of the preamble decoder (rules R197 to R199). -/
inductive PreambleResult where
  | okay (mode : BitVec 8) (call : BitVec 47)
  | nope (mode : BitVec 8) (call : BitVec 47)
  | fail
  deriving DecidableEq, Repr, Inhabited

/-- The useful samples of the metadata symbol, de-rotated (rule R181); none if the ring does not hold them. -/
def Dec.metadataSamples (f : Functions) (d : Dec) : Option (List Cplx) :=
  match d.window (d.symbolPosAbs + Rate.lExt d.rate) with
  | none => none
  | some xs => some (derotate f.num d.cfoRad xs)

/-- Multiply a value by `nrz(b)`, an exact sign change (rules R14, R184). -/
def signed (b : Bool) (z : Cplx) : Cplx := if b then Cplx.neg z else z

/-- The window bins multiplied by the MLS mask, `fdom[bin(-127+j)]·nrz(m1[j])` (rules R183, R184). -/
def maskSpectrum (lSym : Nat) (fdom : List Cplx) : List Cplx :=
  (List.range 255).foldl (fun acc (j : Nat) => acc.modify (binOf lSym (-127 + (j : Int))) (signed (mlsMask.getD j false))) fdom

/-- `d[j]`, each window bin against the bin of the carrier one lower (rules R185, R186). -/
def metadataRatios (num : Numerics) (lSym : Nat) (masked : List Cplx) : List Cplx :=
  (List.range 255).map fun (j : Nat) =>
    demodOrErase num (masked.getD (binOf lSym (-127 + (j : Int))) Cplx.zero)
      (masked.getD (binOf lSym (-128 + (j : Int))) Cplx.zero)

/-- The 255 soft bits `s[j] = Re(d[j])` (rule R187). -/
def preambleSoft (ratios : List Cplx) : List F32 := ratios.map Cplx.re

/-- `md`, the 55 metadata bits of the word (rule R194). -/
def wordMd (cw : BitVec 255) : BitVec 55 := cw.extractLsb' 0 55

/-- `mode`, bits 7:0 of md (rule R194). -/
def wordMode (cw : BitVec 255) : BitVec 8 := (wordMd cw).extractLsb' 0 8

/-- `call`, bits 54:8 of md (rule R194). -/
def wordCall (cw : BitVec 255) : BitVec 47 := (wordMd cw).extractLsb' 8 47

/-- `rx`, the received CRC-16, word bits 55 .. 70 (rule R194). -/
def wordRx (cw : BitVec 255) : BitVec 16 := cw.extractLsb' 55 16

/-- `v = md << 9`, 64 bits (rule R196). -/
def wordProtected (cw : BitVec 255) : BitVec 64 := (wordMd cw).zeroExtend 64 <<< 9

/-- `crc_ok` (rule R196). -/
def wordCrcOk (p : Params) (cw : BitVec 255) : Bool := decide (crcPreamble p (wordProtected cw) = wordRx cw)

/-- `mode ∈ [6,13]` (rule R197). -/
def modeValid (mode : BitVec 8) : Bool := decide (6 ≤ mode.toNat) && decide (mode.toNat ≤ 13)

/-- `call ∈ [1, 129961739795077)` (rules R41, R197). -/
def callValid (call : BitVec 47) : Bool := decide (1 ≤ call.toNat) && decide (call.toNat < callBound)

/-- The checks in their order: OSD, CRC, ranges (rules R197 to R199, R203). -/
def classify (p : Params) (decoded : Option (BitVec 255)) : PreambleResult :=
  match decoded with
  | none => .fail
  | some cw =>
    if wordCrcOk p cw then
      if modeValid (wordMode cw) && callValid (wordCall cw) then .okay (wordMode cw) (wordCall cw)
      else .nope (wordMode cw) (wordCall cw)
    else .fail

/-- The registers the result writes (rules R200 to R202): on NOPE an invalid call is cleared. -/
def Dec.cachePreamble (d : Dec) (res : PreambleResult) : Dec :=
  match res with
  | .okay mode call => { d with cachedMode := mode, cachedCall := call, cachedAny := true }
  | .nope mode call =>
    { d with cachedMode := mode, cachedCall := if callValid call then call else 0, cachedAny := true }
  | .fail => d

/-- The decoder's result for the de-rotated metadata samples (rules R182 to R199). -/
def preambleResult (f : Functions) (p : Params) (lSym : Nat) (tdom : List Cplx) : PreambleResult :=
  let masked := maskSpectrum lSym (transform f.num tdom)
  classify p (f.osd (bchMatrix p) (preambleSoft (metadataRatios f.num lSym masked)))

/-- What the preamble decoder writes besides the cached registers: the scratch arrays (rule R35), and the detection is
consumed (rules R26, R372). -/
def Dec.consumeDetection (f : Functions) (d : Dec) (tdom : List Cplx) : Dec :=
  { d with tdom := tdom, fdom := maskSpectrum (Rate.lSym d.rate) (transform f.num tdom), detPending := false }

end Sys2Proof.Machine
end

