-- ==== Sys2Proof/Machine/Burst.lean ====
section
/-! DEFINITION. The burst state machine (47_control_ops.md section 3), one step at the end of the sample loop of every
PROCESS. -/

namespace Sys2Proof.Machine

/-- What one step of the machine yields: the unit, the status, and the constellation points if a data symbol was
demodulated (rules R371, R345). -/
structure Turn where
  dec : Dec
  status : Status
  points : Option (List Cplx)
  deriving DecidableEq, Repr, Inhabited

/-- The SYNC transition (rule R373): mode registers, positions and the first reference are latched. -/
def Dec.sync (d : Dec) (row : ModeRegs) (spectrum : List Cplx) : Dec :=
  { d with
    mode := row
    symbolPositionAbs := d.symbolPosAbs + Rate.lExt d.rate
    cfoBurst := d.cfoRad
    prev := carrierValues (Rate.lSym d.rate) row spectrum
    symbolNumber := 0
    payloadReady := false
    fsm := .synced }

/-- The DONE transition (rule R375). -/
def Dec.finish (d : Dec) : Dec := { d with fsm := .done, payloadReady := true }

/-- A data symbol (rules R374, R375): refused if the ring does not hold it (rule R30). -/
def Dec.dataSymbol (f : Functions) (p : Params) (d : Dec) : Except Refusal Turn :=
  match d.window d.dataBase with
  | none => .error .ringReadOutside
  | some xs =>
    let d' := d.demodulate f p xs
    if d'.symbolNumber < d'.mode.symbolCount then .ok { dec := d', status := .okay, points := some d'.consPts }
    else .ok { dec := d'.finish, status := .done, points := some d'.consPts }

/-- What the result of the preamble decoder leads to (rules R372, R373, R376); `rejected` is the state FSM takes on
FAIL or NOPE. An OKAY result has its mode in 6..13, so its row exists (rule R197). -/
def Dec.settle (d : Dec) (res : PreambleResult) (spectrum : List Cplx) (rejected : Fsm) : Turn :=
  match res with
  | .fail => { dec := { d with fsm := rejected }, status := .fail, points := none }
  | .nope _ _ => { dec := { d.cachePreamble res with fsm := rejected }, status := .nope, points := none }
  | .okay mode _ =>
    { dec := (d.cachePreamble res).sync ((modeTable mode.toNat).getD .none) spectrum, status := .sync, points := none }

/-- A pending detection the machine acts on (rule R372): the preamble decoder runs once. -/
def Dec.detection (f : Functions) (p : Params) (d : Dec) (rejected : Fsm) : Except Refusal Turn :=
  match d.metadataSamples f with
  | none => .error .ringReadOutside
  | some tdom =>
    .ok ((d.consumeDetection f tdom).settle (preambleResult f p (Rate.lSym d.rate) tdom) (transform f.num tdom)
      rejected)

/-- One step of the burst state machine (rules R371, R377, R413). -/
def Dec.machineStep (f : Functions) (p : Params) (d : Dec) : Except Refusal Turn :=
  match d.fsm, d.detPending with
  | .synced, false => d.dataSymbol f p
  | .synced, true =>
    match p.resync with
    | .ignore => Dec.dataSymbol f p { d with detPending := false }
    | .restart => d.detection f p .idle
  | .idle, false => .ok { dec := d, status := .okay, points := none }
  | .done, false => .ok { dec := d, status := .okay, points := none }
  | .idle, true => d.detection f p .idle
  | .done, true => d.detection f p .done

end Sys2Proof.Machine
end

