-- ==== Sys2Proof/Machine/Polar.lean ====
section
/-! DEFINITION. Stage 5, the polar decoder of FETCH (44_polar_cascl.md): lengthen, list decoding, systematic
re-encoding, CRC-32 selection, emission and descrambling. -/

namespace Sys2Proof.Machine

/-- A frozen table is admissible for a mode: 65536 flags, `mesg_bits` of them zero (rule R262). -/
def frozenOk (frozen : List Bool) (mesg : Nat) : Bool :=
  decide (frozen.length = codeLen) && decide (frozen.count false = mesg)

/-- The lengthening of rule R263, working downward: `flags` are the frozen flags from the top position down, `m` counts
the non-frozen positions still to come (the message index of the next one is `m - 1`), `rx` the received soft bits from
`code[cons_bits - 1]` down, `out` the positions already filled. -/
def lengthenDown (limit : Nat) (konst : SoftBit) : List Bool → Nat → List SoftBit → List SoftBit → List SoftBit
  | [], _, _, out => out
  | true :: flags, m, rx, out => lengthenDown limit konst flags m rx.tail (rx.headD konst :: out)
  | false :: flags, m, rx, out =>
    if m - 1 < limit then lengthenDown limit konst flags (m - 1) rx.tail (rx.headD konst :: out)
    else lengthenDown limit konst flags (m - 1) rx (konst :: out)

/-- Rate matching (rule R263): the first `cons` entries of the code spread over the mother code; the non-frozen
positions of message index `limit` or more get the constant. -/
def lengthen (limit : Nat) (konst : SoftBit) (frozen : List Bool) (cons mesg : Nat) (code : List SoftBit) :
    List SoftBit :=
  lengthenDown limit konst frozen.reverse mesg (code.take cons).reverse []

/-- Put message bits on the non-frozen positions and 0 on the frozen ones: the input U of rule R279. -/
def scatter : List Bool → List Bool → List Bool
  | [], _ => []
  | true :: flags, u => false :: scatter flags u
  | false :: flags, u => u.headD false :: scatter flags u.tail

/-- Pick the non-frozen positions, `x[pos(m)]` (rules R262, R279). -/
def gather : List Bool → List Bool → List Bool
  | false :: flags, x :: xs => x :: gather flags xs
  | true :: flags, _ :: xs => gather flags xs
  | [], _ => []
  | _, [] => []

/-- The polar transform of length `2^n` in natural order: `X[i]` is the sum of all `U[j]` with `j & i = i`
(rule R279). -/
def polarTransform : Nat → List Bool → List Bool
  | 0, u => u
  | n + 1, u =>
    let low := polarTransform n (u.take (2 ^ n))
    let high := polarTransform n (u.drop (2 ^ n))
    List.zipWith Bool.xor low high ++ high

/-- What one lane emits: its re-encoded word, its systematic message and its path metric (rules R266, R279). -/
structure Lane where
  word : List Bool
  message : List Bool
  metric : Rat
  deriving DecidableEq, Repr, Inhabited

/-- Lane l of the list decoder on a lengthened code vector (rules R266, R279). -/
def laneOf (f : Functions) (frozen : List Bool) (mesg : Nat) (code : List SoftBit) (l : Nat) : Lane :=
  let u := (List.range mesg).map (f.sclBit code frozen l)
  let x := polarTransform codeOrder (scatter frozen u)
  { word := x, message := gather frozen x, metric := f.sclMetric code frozen l }

/-- The 16 lanes (rules R266, R268). -/
def lanesOf (f : Functions) (frozen : List Bool) (mesg : Nat) (code : List SoftBit) : List Lane :=
  (List.range listWidth).map (laneOf f frozen mesg code)

/-- The lane passes: the CRC-32 of its first 43072 message bits is 0 (rule R276). -/
def lanePasses (p : Params) (lane : Lane) : Bool := decide (crcPolar p (lane.message.take crcBits) = 0)

/-- The order in which lanes are tried: by metric for float (ties: lower lane first), by lane for int8
(rules R277, R280). -/
def laneOrder (kind : SoftKind) (lanes : List Lane) : List Lane :=
  match kind with
  | .float => sortBy (fun a b => decide (a.metric < b.metric)) lanes
  | .int8 => lanes

/-- The lane selected, if one passes (rules R277, R280). -/
def selectLane (p : Params) (lanes : List Lane) : Option Lane := (laneOrder p.soft lanes).find? (lanePasses p)

/-- Flip count: where the hard decision of the lengthened input differs from the winner's word (rule R280); 0 for
float. -/
def flipCount (kind : SoftKind) (code : List SoftBit) (lane : Lane) : Nat :=
  match kind with
  | .float => 0
  | .int8 => (List.zipWith (fun s x => SoftBit.hard s != x) code lane.word).count true

/-- Eight message bits as a byte, least significant first (rules R75, R281). -/
def byteOf (bits : List Bool) : Byte := BitVec.ofNat 8 (bits.foldr (fun b n => 2 * n + b.toNat) 0)

/-- The first n payload bytes of a message, LSB first (rule R281). -/
def packBytes : Nat → List Bool → List Byte
  | 0, _ => []
  | n + 1, bits => byteOf (bits.take 8) :: packBytes n (bits.drop 8)

/-- The 5380 descrambled payload bytes (rules R281, R282). -/
def payloadBytes (p : Params) (message : List Bool) : List Byte :=
  List.zipWith (· ^^^ ·) (packBytes payloadLen message) (scrambleStream p)

end Sys2Proof.Machine
end

