-- ==== Sys2Proof/Machine/Visual.lean ====
section
/-! DEFINITION. The pixel buffers (46_visualization.md). Where the rules leave a pixel open it is a draw of the set
they allow (rule R341, log entry 31): `n` is the number of the draw, the index below separates the uses. -/

namespace Sys2Proof.Machine

/-- "cleared background", read as 0x00000000 (rule R342, D43). -/
def pixelOff : Word := 0x00000000#32

/-- "full intensity", read as 0xFFFFFFFF (rule R342, D43). -/
def pixelOn : Word := 0xFFFFFFFF#32

/-- A whole number, or one of the two next to a value by the open rounding. -/
def roundOpen (up : Bool) (q : Rat) : Nat :=
  let low := q.floor.toNat
  if q = (low : Rat) then low else if up then low + 1 else low

/-- A level limited to [−96, 0] dB (rule R342). -/
def clampDb (q : Rat) : Rat := max (-96) (min 0 q)

/-- The spectrum the pictures show (rule R342): of the data symbol this PROCESS demodulated (rule R374), else of the
newest `L_sym` samples of the ring, the one that returned SYNC included (log entry 31). -/
def Dec.shownSpectrum (f : Functions) (d : Dec) (points : Option (List Cplx)) : List Cplx :=
  match points with
  | some _ => d.fdom
  | none => transform f.num (d.ring.take (Rate.lSym d.rate)).reverse

/-- `10·log10(q)` of a positive ratio of powers, in hundredths of a decibel taken down, plus an error that leaves it
within 0.02 dB (rules R342, R431, log entry 31). -/
def decibels (err q : Rat) : Rat := ((Int.log 10 (q ^ 1000) : Rat) + max (-1) (min 2 err)) / 100

/-- The power that is 0 dB, which may differ from PROCESS to PROCESS and with the spectrum (rule R342 leaves it open). -/
def zeroDb (f : Functions) (n : Nat) (spectrum : List Cplx) : Rat :=
  (((f.dbReference n spectrum).1 + 1 : Nat) : Rat) / (((f.dbReference n spectrum).2 + 1 : Nat) : Rat)

/-- The bin that column x shows; which one is open (rule R342). -/
def shownBin (f : Functions) (spectrum : List Cplx) (x : Nat) : Cplx :=
  spectrum.getD (f.specBin spectrum.length x % spectrum.length) Cplx.zero

/-- The level `p_x` of column x: the power `re² + im²` of the bin it shows, in dB against the 0 dB reference, limited to
[−96, 0] (rule R342); no power is −96 dB, and of a bin that is not finite the rule states no level (log entry 31). -/
def columnLevel (f : Functions) (n : Nat) (spectrum : List Cplx) (x : Nat) : Rat :=
  match Cplx.exact? (shownBin f spectrum x) with
  | none => clampDb (f.openLevel n x)
  | some z =>
    if z.re ^ 2 + z.im ^ 2 = 0 then -96
    else clampDb (decibels (f.levelError n x) ((z.re ^ 2 + z.im ^ 2) / zeroDb f n spectrum))

/-- `y = (H − 1)·(−p/96)` with H = 64, the rounding open (rule R342). -/
def specRow (f : Functions) (n : Nat) (level : Nat → Rat) (x : Nat) : Nat :=
  roundOpen (f.drawBit n (8 * x)) (63 * (-(level x)) / 96)

/-- The row lies between two rows, the ends included. -/
def rowBetween (y a b : Nat) : Bool := (decide (a ≤ y) && decide (y ≤ b)) || (decide (b ≤ y) && decide (y ≤ a))

/-- How many rows lie between two rows. -/
def rowDistance (a b : Nat) : Nat := (a - b) + (b - a)

/-- Where the segment from column x to column x + 1 passes from one column to the other: after this many rows from its
left end, at least one row before its right end; the place is open (log entry 31). -/
def segmentSplit (f : Functions) (n : Nat) (row : Nat → Nat) (x : Nat) : Nat :=
  (f.drawWord n (4096 + x)).toNat % rowDistance (row x) (row (x + 1))

/-- Row y of the left column belongs to the segment between rows a and b that changes column after k rows. -/
def onLeftPart (a b k y : Nat) : Bool := rowBetween y a b && decide (rowDistance y a ≤ k)

/-- Row y of the right column belongs to that segment. -/
def onRightPart (a b k y : Nat) : Bool := rowBetween y a b && decide (k < rowDistance y a)

/-- The polyline of width one pixel through the points (x, `row x`): each row of a segment is lit in one of its two
columns (rule R342). -/
def onPolyline (row split : Nat → Nat) (x y : Nat) : Bool :=
  decide (y = row x)
    || (decide (x + 1 < 640) && onLeftPart (row x) (row (x + 1)) (split x) y)
    || (decide (0 < x) && onRightPart (row (x - 1)) (row x) (split (x - 1)) y)

/-- SPEC, 640 × 64: the polyline on the cleared background (rule R342). -/
@[irreducible] def specImage (f : Functions) (n : Nat) (level : Nat → Rat) : List Word :=
  (List.range (640 * 64)).map fun i =>
    if onPolyline (specRow f n level) (segmentSplit f n (specRow f n level)) (i % 640) (i / 640) then pixelOn
    else pixelOff

/-- `clamp01` (rule R344). -/
def clamp01 (q : Rat) : Rat := max 0 (min 1 q)

/-- The largest b of 0 .. 255 with `b² ≤ m`. -/
def sqrtByte (m : Nat) : Nat := ((List.range 256).filter fun b => decide (b * b ≤ m)).length - 1

/-- `q(c^0.5)`: the byte next to `255·√c`, the rounding open (rule R344). -/
def gammaByte (up : Bool) (c : Rat) : Byte :=
  let m := 65025 * c
  let b := sqrtByte m.floor.toNat
  BitVec.ofNat 8 (if ((b * b : Nat) : Rat) = m then b else if up then b + 1 else b)

/-- The "rainbow" palette of a normalized level (rule R344); `up` are the four open roundings. -/
def palette (up : Nat → Bool) (v : Rat) : Word :=
  let t := 4 * v - 2
  let a := gammaByte (up 0) (clamp01 (4 * v))
  let r := gammaByte (up 1) (clamp01 t)
  let g := gammaByte (up 2) (clamp01 (1 - max t (-t)))
  let b := gammaByte (up 3) (clamp01 (-t))
  ((a ++ r : BitVec 16) ++ (g ++ b : BitVec 16) : BitVec 32)

/-- `v_x = (p_x + 96)/96` (rule R343). -/
def normalizedDb (p : Rat) : Rat := (p + 96) / 96

/-- SGRAM, 640 × 256: rows 1 to 255 are the old rows 0 to 254, row 0 is drawn (rule R343). -/
@[irreducible] def sgramImage (f : Functions) (n : Nat) (level : Nat → Rat) (old : Buffer 32) : List Word :=
  (List.range (640 * 256)).map fun i =>
    if i < 640 then palette (fun c => f.drawBit n (8 * i + 1 + c)) (normalizedDb (level i)) else old.read (i - 640)

/-- The column or row of a constellation coordinate, `(v + 2)·64/4` taken down to an integer (rule R345).
DESIGN CHOICE: a value that is not a finite number has none, so such a carrier lights no pixel (log entry 51). -/
def consCoord (v : F32) : Option Nat :=
  match F32.toRat? v with
  | none => none
  | some q =>
    let k := ((q + 2) * 16).floor
    if 0 ≤ k ∧ k < 64 then some k.toNat else none

/-- The pixel a carrier lights; an erased carrier lights none (rule R345). -/
def consIndex (z : Cplx) : Option Nat :=
  if Cplx.isZero z then none
  else
    match consCoord z.re, consCoord z.im with
    | some x, some y => some (y * 64 + x)
    | _, _ => none

/-- CONS, 64 × 64 (rule R345): the points of a demodulated data symbol; in every other PROCESS the mapping is open and
each pixel is a draw. -/
@[irreducible] def consImage (f : Functions) (n : Nat) (points : Option (List Cplx)) : List Word :=
  match points with
  | some pts =>
    let lit := pts.filterMap consIndex
    (List.range (64 * 64)).map fun i => if lit.contains i then pixelOn else pixelOff
  | none => (List.range (64 * 64)).map (f.drawWord n)

/-- The largest |value| this PROCESS read from AUDIO, 0 .. 32768 (rule R346). -/
def peakOf (frames : List Frame) : Nat :=
  frames.foldl (fun m fr => max m (max fr.left.toInt.natAbs fr.right.toInt.natAbs)) 0

/-- The number of lit cells: non-decreasing, 0 for 0 and 16 for 32768 (rule R346, log entry 32). -/
def peakCells (st : PeakStyle) (shown : Nat) : Nat :=
  (st.thresholds.toList.filter fun t => decide (max 1 (min 32768 t) ≤ shown)).length

/-- The colour of a lit cell, "green/yellow/red by cell index" (rule R346). -/
def peakColour (st : PeakStyle) (cell : Nat) : Word :=
  if cell < st.yellowFrom then st.green else if cell < st.redFrom then st.yellow else st.red

/-- PEAK, 16 × 1 (rule R346). -/
def peakImage (st : PeakStyle) (shown : Nat) : List Word :=
  (List.range 16).map fun i => if i < peakCells st shown then peakColour st i else pixelOff

/-- Overwrite the four pixel spaces from index 0 on. -/
def Buffers.drawPixels (b : Buffers) (spec sgram cons peak : List Word) : Buffers :=
  { b with
    spec := b.spec.writeFrom 0 spec
    sgram := b.sgram.writeFrom 0 sgram
    cons := b.cons.writeFrom 0 cons
    peak := b.peak.writeFrom 0 peak }

/-- The four pixel buffers after a PROCESS (rules R340, R347): d is the unit after the decoding work, `peakPrev` still
the previous call's. -/
def drawBuffers (f : Functions) (p : Params) (n : Nat) (d : Dec) (points : Option (List Cplx)) (frames : List Frame)
    (b : Buffers) : Buffers :=
  let level := columnLevel f n (d.shownSpectrum f points)
  b.drawPixels (specImage f n level) (sgramImage f n level b.sgram) (consImage f n points)
    (peakImage p.peak (max (peakOf frames) d.peakPrev))

end Sys2Proof.Machine
end

