-- ==== Sys2Proof/Machine/Decoder.lean ====
section
/-! DEFINITION. The six operations of a decoder unit (47_control_ops.md section 1): CREATE, DESTROY, RATE, PROCESS,
CACHED, FETCH. -/

namespace Sys2Proof.Machine

/-- An outcome of a meaning: the next state, a fault or a refusal. -/
abbrev Result := Host.Outcome State Fault Refusal

/-- An operation that cannot act on an ABSENT decoder unit answers `ERR` there (rule R406). -/
def whenDecCreated (s : State) (body : Result) : Result :=
  match s.dec.alive with
  | .absent => .next (s.err .dec)
  | .created => body

/-- The operation refuses where a buffer has not its exact length (rules R72, R76, U6). -/
def whenLengthsFit (s : State) (lengths : List (Space × Nat)) (body : Result) : Result :=
  match misfitBuffer s.bufs lengths with
  | some sp => .refused (.bufferWrongLength sp)
  | none => body

/-- CREATE (rule R360): fails on a unit already CREATED, for a rate outside the five, and when `alloc_ok = 0`. -/
def execCreate (sel : BitVec 3) (s : State) : Result :=
  match s.dec.alive, Rate.ofSel sel, s.allocOk with
  | .absent, some r, true => .next { s with dec := Dec.created Config.functions s.params r }
  | _, _, _ => .next (s.decRespond (rspBool false))

/-- DESTROY (rule R361): the unit is ABSENT and nothing of it survives. -/
def execDestroy (s : State) : Result := whenDecCreated s (.next { s with dec := Dec.absent 0 })

/-- RATE (rule R362): the R that was used. -/
def execRate (s : State) : Result := whenDecCreated s (.next (s.decRespond (rspRate s.dec.rate)))

/-- The frames one PROCESS of the unit reads from AUDIO (rules R85, R364). -/
def processFrames (ch : Channel) (s : State) : List Frame := framesOf s.bufs.audio ch s.dec.rate

/-- What PROCESS leaves when its burst machine took the given turn: the unit, the pixel buffers drawn from it,
`peak_prev` and the status (rules R346, R347, R363). -/
def processNext (f : Functions) (ch : Channel) (s : State) (turn : Turn) : State :=
  { s with
    draws := s.draws + 1
    bufs := drawBuffers f s.params s.draws turn.dec turn.points (processFrames ch s) s.bufs
    dec := { turn.dec with peakPrev := peakOf (processFrames ch s), rsp := rspStatus turn.status } }

/-- The decoding work of one PROCESS: the sample loop, then one step of the burst state machine (rule R363). -/
def processTurn (f : Functions) (ch : Channel) (s : State) : Except Refusal Turn :=
  (s.dec.sampleLoop f s.params ch (processFrames ch s)).machineStep f s.params

/-- PROCESS on a created unit for given functions (rules R363, R340): the buffers are checked, then the decoding work is
done, then the pixel buffers are drawn and the status is answered. -/
def processWith (f : Functions) (ch : Channel) (s : State) : Result :=
  if spacesOverlap s.overlaps ((processLengths s.dec.rate ch).map Prod.fst) then .refused .buffersOverlap
  else
    whenLengthsFit s (processLengths s.dec.rate ch)
      (match processTurn f ch s with
      | .error r => .refused r
      | .ok turn => .next (processNext f ch s turn))

/-- PROCESS (rules R363, R413): an illegal channel answers `ERR`, an ABSENT unit HEAP with no work done. -/
def execProcess (sel : BitVec 3) (s : State) : Result :=
  match Channel.ofSel sel with
  | none => .next (s.err .dec)
  | some ch =>
    match s.dec.alive with
    | .absent => .next (s.decRespond (rspStatus .heap))
    | .created => processWith Config.functions ch s

/-- `CFO` in Hz, `cfo_rad·R/(2π)` (rules R46, R161, R365): the product, then the quotient by the float32 of 2π
(log entry 19). -/
def cfoHz (num : Numerics) (cfo : F32) (r : Rate) : F32 :=
  F32.div num (F32.mul num cfo (F32.ofInt num (Rate.hz r))) F32.twoPi

/-- What CACHED writes: CFO, MODE, RSP and the nine characters of CALL9 (rule R365). -/
def cachedNext (f : Functions) (s : State) : State :=
  { s with
    bufs := { s.bufs with call9 := s.bufs.call9.writeFrom 0 (base37Text s.dec.cachedCall.toNat) }
    dec := { s.dec with
      cfoReg := cfoHz f.num s.dec.cfoRad s.dec.rate
      modeReg := s.dec.cachedMode.zeroExtend 32
      rsp := 0 } }

/-- CACHED (rule R365): refused before the first preamble that passed its CRC. -/
def execCached (s : State) : Result :=
  whenDecCreated s
    (if s.dec.cachedAny then
      whenLengthsFit s [(.byte .call9, 9)] (.next (cachedNext Config.functions s))
    else .refused .cachedNothing)

/-- The code vector after the lengthening of the unit's burst (rules R263, R366). -/
def Dec.lengthened (f : Functions) (p : Params) (d : Dec) : List SoftBit :=
  lengthen crcBits (quant9000 f.num p.soft) (Params.frozen p d.mode.frozenSel) d.mode.consBits d.mode.mesgBits d.code

/-- The unit after FETCH: `code` rewritten, `payload_ready` cleared (rule R366). -/
def Dec.fetched (d : Dec) (code : List SoftBit) (rsp : Word) : Dec :=
  { d with code := code, payloadReady := false, rsp := rsp }

/-- The bytes a failed FETCH leaves in PAYLOAD, each a draw (U9, log entry 30). -/
def freePayload (f : Functions) (n : Nat) : List Byte := (List.range payloadLen).map (f.drawByte n)

/-- What FETCH leaves (rule R366): the payload of the selected lane and the flip count, or the failure answer and
unspecified bytes. -/
def fetchNext (f : Functions) (s : State) : State :=
  let frozen := Params.frozen s.params s.dec.mode.frozenSel
  let code := s.dec.lengthened f s.params
  match selectLane s.params (lanesOf f frozen s.dec.mode.mesgBits code) with
  | some lane =>
    { s with
      bufs := { s.bufs with payload := s.bufs.payload.writeFrom 0 (payloadBytes s.params lane.message) }
      dec := s.dec.fetched code (rspFetch (flipCount s.params.soft code lane)) }
  | none =>
    { s with
      draws := s.draws + 1
      bufs := { s.bufs with payload := s.bufs.payload.writeFrom 0 (freePayload f s.draws) }
      dec := s.dec.fetched code 0 }

/-- FETCH (rule R366): refused while `payload_ready = 0` and for a frozen table with the wrong counts
(rule R262). DESIGN CHOICE: a frozen table with a wrong count is refused here and by no other operation, and only
the table that the mode selects (log entry 62). -/
def execFetch (s : State) : Result :=
  whenDecCreated s
    (if s.dec.payloadReady then
      if frozenOk (Params.frozen s.params s.dec.mode.frozenSel) s.dec.mode.mesgBits then
        whenLengthsFit s [(.byte .payload, payloadLen)] (.next (fetchNext Config.functions s))
      else .refused .frozenTableCount
    else .refused .noPayload)

end Sys2Proof.Machine
end

