-- ==== Sys2Proof/WellFormed.lean ====
section
/-! DEFINITION. Which operations are legal commands (rule R120). -/

namespace Sys2Proof

/-- PROCESS takes the channel modes 0 to 4; 5 to 7 are illegal (rules R103, R120). -/
def channelLegal (channel : BitVec 3) : Bool := decide (channel.toNat ≤ 4)

/-- RECOVER takes a count of 1 to 12; 0 and 13 to 15 are illegal (rules R105, R120). -/
def countLegal (count : BitVec 4) : Bool := decide (1 ≤ count.toNat) && decide (count.toNat ≤ 12)

/-- An operation is a legal command (rule R120). CREATE with `rate_sel` 5 to 7 and CHUNK with `idx` 12 to 15 are
legal: they have documented failure results. -/
def Instr.wf : Instr → Bool
  | .process channel => channelLegal channel
  | .recover count _ => countLegal count
  | .create _ | .destroy | .rate | .cached | .fetch | .ecreate | .edestroy | .chunk _ _ => true

end Sys2Proof
end

