-- ==== Sys2Proof/Machine/Erasure.lean ====
section
/-! DEFINITION. The four operations of an erasure unit: ECREATE, EDESTROY (47_control_ops.md section 2), CHUNK and
RECOVER (45_erasure_crs.md). -/

namespace Sys2Proof.Machine

/-- An operation that cannot act on an ABSENT erasure unit answers `ERR` there (rule R406). -/
def whenErsCreated (s : State) (body : Result) : Result :=
  match s.ers.alive with
  | .absent => .next (s.err .ers)
  | .created => body

/-- ECREATE (rule R367); it has no failure but the unit already CREATED (log entry 6). -/
def execEcreate (s : State) : Result :=
  match s.ers.alive with
  | .created => .next (s.ersRespond (rspBool false))
  | .absent => .next { s with ers := Ers.created }

/-- EDESTROY (rule R368): the chunk store ceases to exist. -/
def execEdestroy (s : State) : Result := whenErsCreated s (.next { s with ers := Ers.absent 0 })

/-- The slot CHUNK writes: 5376 bytes of CHUNKIN from `CHUNK_HDR` on, and the identifier (rule R305). -/
def chunkSlot (s : State) (ident : Half) : Slot :=
  { ident := ident, data := Cells.slice s.bufs.chunkin.cells s.params.chunkHdr chunkLen, valid := true }

/-- CHUNK (rule R305): false for a slot above 11; a CHUNKIN shorter than `CHUNK_HDR + 5376` is refused (rule R306).
DESIGN CHOICE: the slot number is checked first, as R305 writes it, so a slot above 11 answers false whatever the length
(log entry 50). -/
def execChunk (idx : BitVec 4) (ident : BitVec 16) (s : State) : Result :=
  whenErsCreated s
    (if h : idx.toNat < 12 then
      if s.bufs.chunkin.len < s.params.chunkHdr + chunkLen then .refused (.bufferTooShort (.byte .chunkin))
      else
        .next
          { s with
            ers := { s.ers with slots := s.ers.slots.set idx.toNat (chunkSlot s ident) h, rsp := rspBool true } }
    else .next (s.ersRespond (rspBool false)))

/-- Slot k of the store. -/
def Ers.slot (e : Ers) (k : Nat) : Slot := e.slots.toList.getD k Slot.blank

/-- The identifiers of slots `0 .. count - 1` (rule R312). -/
def Ers.idents (e : Ers) (count : Nat) : List Half := (List.range count).map fun k => (e.slot k).ident

/-- The column points `CRS_COL(0 .. count)` (rule R307). -/
def columnPoints (p : Params) (count : Nat) : List Half := p.crsCol.toList.take count

/-- Element e of slot k, low byte first (rules R74, R304). -/
def Ers.symbol (e : Ers) (k elem : Nat) : Half :=
  Cells.read (e.slot k).data (2 * elem + 1) ++ Cells.read (e.slot k).data (2 * elem)

/-- Element `elem` of block i: `XOR over r of gf_mul(B[i][r], sym[r][elem])` (rule R309). -/
def Ers.blockElement (p : Params) (e : Ers) (count i elem : Nat) : Half :=
  ((List.range count).map fun r =>
    gfMul p.gfPoly (cauchyInverse p.gfPoly (e.idents count) (columnPoints p count) i r) (e.symbol r elem)).foldl
      (· ^^^ ·) 0

/-- Byte t of block i, the low byte of an element first (rules R74, R310). -/
def Ers.blockByte (p : Params) (e : Ers) (count i t : Nat) : Byte :=
  (e.blockElement p count i (t / 2)).extractLsb' (8 * (t % 2)) 8

/-- `S = ceil_div(total_size, count)` (rule R310). -/
def sliceLen (total count : Nat) : Nat := (total + count - 1) / count

/-- `n_i`, how many bytes of block i are written (rule R311). -/
def sliceOf (total count i : Nat) : Nat := min (sliceLen total count) (total - i * sliceLen total count)

/-- The bytes RECOVER writes, in order (rules R310, R311). -/
def Ers.recovered (p : Params) (e : Ers) (total count : Nat) : List Byte :=
  (List.range count).flatMap fun i => (List.range (sliceOf total count i)).map (e.blockByte p count i)

/-- The precondition of RECOVER that fails, if one does (rules R302, R307, R313). DESIGN CHOICE: a `GF_POLY` that is not
irreducible is refused here and by no other operation, and the first of several that fail gives the name (log entry
61). -/
def recoverRefusal (s : State) (total count : Nat) : Option Refusal :=
  let ids := s.ers.idents count
  let cols := columnPoints s.params count
  if ¬ gfIrreducible s.params.gfPoly then some .fieldPolyReducible
  else if ¬ cols.Nodup then some .columnPointsEqual
  else if ¬ (List.range count).all (fun k => (s.ers.slot k).valid) then some .slotInvalid
  else if ¬ ids.Nodup then some .identifiersEqual
  else if ids.any (cols.contains ·) then some .identifierIsColumn
  else if 5376 * count < total then some .totalSizeTooLarge
  else if s.bufs.out.len < total then some (.bufferTooShort (.byte .out))
  else none

/-- What RECOVER leaves (rules R310, R317, R318): OUT, CRC, RSP, and every `valid` cleared. -/
def recoverNext (s : State) (total count : Nat) : State :=
  let bytes := s.ers.recovered s.params total count
  { s with
    bufs := { s.bufs with out := s.bufs.out.writeFrom 0 bytes }
    ers := { s.ers with
      crc := crcErasure s.params bytes
      rsp := 0
      slots := s.ers.slots.map fun sl => { sl with valid := false } } }

/-- RECOVER (rule R310): an illegal count answers `ERR` (rule R120) before anything else. -/
def execRecover (count : BitVec 4) (totalSize : BitVec 20) (s : State) : Result :=
  if countLegal count then
    whenErsCreated s
      (match recoverRefusal s totalSize.toNat count.toNat with
      | some r => .refused r
      | none => .next (recoverNext s totalSize.toNat count.toNat))
  else .next (s.err .ers)

end Sys2Proof.Machine
end

