-- ==== Sys2Proof/Machine/Dispatch.lean ====
section
/-! DEFINITION. One arm per operation (rule R107). -/

namespace Sys2Proof.Machine

def exec (i : Instr) (s : State) : Host.Outcome State Fault Refusal :=
  match i with
  | .create sel => Sys2Proof.Machine.execCreate sel s
  | .destroy => Sys2Proof.Machine.execDestroy s
  | .rate => Sys2Proof.Machine.execRate s
  | .process ch => Sys2Proof.Machine.execProcess ch s
  | .cached => Sys2Proof.Machine.execCached s
  | .fetch => Sys2Proof.Machine.execFetch s
  | .ecreate => Sys2Proof.Machine.execEcreate s
  | .edestroy => Sys2Proof.Machine.execEdestroy s
  | .chunk idx ident => Sys2Proof.Machine.execChunk idx ident s
  | .recover count totalSize => Sys2Proof.Machine.execRecover count totalSize s

end Sys2Proof.Machine
end

