-- ==== Sys2Proof/Decode.lean ====
section
/-! DEFINITION. Decoding a command word (rules R101 to R107, R120) and encoding an operation.
Both are written from the field tables of rules R102 to R105 and the opcode map of rule R107. -/

namespace Sys2Proof

/-- Why a command word is no row of the opcode map (rule R120). -/
inductive DecodeError where
  /-- bits 7:0 are not an opcode of rule R107 -/
  | reservedOpcode
  /-- a bit marked `zero` in the word's format is 1 -/
  | reservedBit
  deriving DecidableEq, Repr

/-- Bits 7:0, the opcode of every format (rule R101). -/
def opcodeOf (w : Word) : BitVec 8 := w.extractLsb' 0 8

/-- Format Z (rule R102): bits 31:8 are zero. -/
def decodeZ (w : Word) (i : Instr) : Except DecodeError Instr :=
  if w.extractLsb' 8 24 = 0 then .ok i else .error .reservedBit

/-- Format S (rule R103): `sel` is bits 10:8, bits 31:11 are zero. -/
def decodeS (w : Word) (i : BitVec 3 → Instr) : Except DecodeError Instr :=
  if w.extractLsb' 11 21 = 0 then .ok (i (w.extractLsb' 8 3)) else .error .reservedBit

/-- Format K (rule R104): `idx` is bits 11:8, `ident` bits 27:12, bits 31:28 are zero. -/
def decodeK (w : Word) (i : BitVec 4 → BitVec 16 → Instr) : Except DecodeError Instr :=
  if w.extractLsb' 28 4 = 0 then .ok (i (w.extractLsb' 8 4) (w.extractLsb' 12 16)) else .error .reservedBit

/-- Format V (rule R105): `count` is bits 11:8, `total_size` bits 31:12. -/
def decodeV (w : Word) (i : BitVec 4 → BitVec 20 → Instr) : Except DecodeError Instr :=
  .ok (i (w.extractLsb' 8 4) (w.extractLsb' 12 20))

/-- The opcode map (rule R107). A word that selects a row is read as that row with whatever its selector fields
hold; that a selector is out of its range makes the operation ill-formed (`Instr.wf`), and its meaning answers
`ERR` (rule R120, log entry 13). -/
def decode (w : Word) : Except DecodeError Instr :=
  match (opcodeOf w).toNat with
  | 0x00 => decodeS w .create
  | 0x01 => decodeZ w .destroy
  | 0x02 => decodeZ w .rate
  | 0x03 => decodeS w .process
  | 0x04 => decodeZ w .cached
  | 0x05 => decodeZ w .fetch
  | 0x10 => decodeZ w .ecreate
  | 0x11 => decodeZ w .edestroy
  | 0x12 => decodeK w .chunk
  | 0x13 => decodeV w .recover
  | _ => .error .reservedOpcode

/-- A format Z word (rule R102). -/
def encodeZ (opcode : BitVec 8) : Word := (0 : BitVec 24) ++ opcode

/-- A format S word (rule R103). -/
def encodeS (opcode : BitVec 8) (sel : BitVec 3) : Word := (0 : BitVec 21) ++ (sel ++ opcode : BitVec 11)

/-- A format K word (rule R104). -/
def encodeK (opcode : BitVec 8) (idx : BitVec 4) (ident : BitVec 16) : Word :=
  (0 : BitVec 4) ++ (ident ++ (idx ++ opcode : BitVec 12) : BitVec 28)

/-- A format V word (rule R105). -/
def encodeV (opcode : BitVec 8) (count : BitVec 4) (totalSize : BitVec 20) : Word :=
  totalSize ++ (count ++ opcode : BitVec 12)

/-- The command word of an operation (rules R102 to R107). -/
def encode : Instr → Word
  | .create sel => encodeS 0x00 sel
  | .destroy => encodeZ 0x01
  | .rate => encodeZ 0x02
  | .process channel => encodeS 0x03 channel
  | .cached => encodeZ 0x04
  | .fetch => encodeZ 0x05
  | .ecreate => encodeZ 0x10
  | .edestroy => encodeZ 0x11
  | .chunk idx ident => encodeK 0x12 idx ident
  | .recover count totalSize => encodeV 0x13 count totalSize

/-- The `match` column of rule R107. -/
def rowMatch : Instr → Word
  | .create _ => 0x00000000
  | .destroy => 0x00000001
  | .rate => 0x00000002
  | .process _ => 0x00000003
  | .cached => 0x00000004
  | .fetch => 0x00000005
  | .ecreate => 0x00000010
  | .edestroy => 0x00000011
  | .chunk _ _ => 0x00000012
  | .recover _ _ => 0x00000013

/-- The `mask` column of rule R107: the opcode and every `zero` bit of the format. -/
def rowMask : Instr → Word
  | .create _ | .process _ => 0xFFFFF8FF
  | .destroy | .rate | .cached | .fetch | .ecreate | .edestroy => 0xFFFFFFFF
  | .chunk _ _ => 0xF00000FF
  | .recover _ _ => 0x000000FF

/-- The operation the decoder reads from a table word: one 32-bit command word, numbered as the table numbers it;
bits above `nbits` are zero. -/
def decodeTableWord (nbits w : Nat) : Option Instr :=
  match decode (BitVec.ofNat 32 (w % 2 ^ nbits)) with
  | .ok i => some i
  | .error _ => none

end Sys2Proof
end

