-- ==== Sys2Proof/Machine/HostMoves.lean ====
section
/-! DEFINITION. What HOST's moves other than commands do, and to which unit a command goes (rules R70, R107, R120). -/

namespace Sys2Proof.Machine

/-- The operation a unit reads from a command word: none if the word is illegal as a word or its opcode belongs to the
other kind of unit (rule R120). -/
def acceptedBy (u : UnitId) (w : Word) : Option Instr :=
  match decode w with
  | .ok i => if i.unit = u then some i else none
  | .error _ => none

/-- Power-on reset: both units ABSENT with `RSP = 0` and no other state; the buffers are HOST's (rules R47, R70, R440). -/
def State.powerOnReset (s : State) : State := { s with dec := .absent 0, ers := .absent 0 }

/-- A move of HOST that is no command: binding buffers, the environment's inputs, power-on reset (rules R70, R360, R440,
R452). -/
def State.hostSets (s : State) (m : HostMove) : State :=
  match m with
  | .command _ _ => s
  | .bindAudio samples => { s with bufs := { s.bufs with audio := .ofList samples } }
  | .bindPixels sp pixels => { s with bufs := s.bufs.bindPixels sp (.ofList pixels) }
  | .bindBytes sp bytes => { s with bufs := s.bufs.bindBytes sp (.ofList bytes) }
  | .bindOverlaps pairs => { s with overlaps := pairs }
  | .setAllocOk ok => { s with allocOk := ok }
  | .powerOn => s.powerOnReset

/-- The unit a table word is for: the one whose CMD accepts its operation; a word no unit accepts goes to DEC. -/
def unitForWord (w : Word) : UnitId :=
  match decode w with
  | .ok i => i.unit
  | .error _ => .dec

end Sys2Proof.Machine
end

