-- ==== Sys2Proof/Machine/Step.lean ====
section
/-! DEFINITION. One step of the block: HOST's next move. A command word is one whole operation (rule R80); an illegal
word is answered `ERR` (rule R120); with no move left nothing happens (rule R453, log entry 1). -/

namespace Sys2Proof.Machine

/-- A command word written to a unit's CMD (rules R70, R84, R120). -/
def runCommand (u : UnitId) (w : Word) (s : State) : Host.Outcome State Fault Refusal :=
  match acceptedBy u w with
  | some i => exec i s
  | none => .next (s.err u)

/-- One step: take HOST's next move. -/
def step (s : State) : Host.Outcome State Fault Refusal :=
  match s.host with
  | [] => .next s
  | .command u w :: rest => runCommand u w { s with host := rest }
  | m :: rest => .next (State.hostSets { s with host := rest } m)

/-- The state with the table word as HOST's next move: a command to the unit that accepts it. -/
def State.withFetchWord (s : State) (nbits w : Nat) : State :=
  let word := BitVec.ofNat 32 (w % 2 ^ nbits)
  { s with host := .command (unitForWord word) word :: s.host }

end Sys2Proof.Machine
end

