-- ==== Sys2Proof/Machine/ListDecoder.lean ====
section
/-! DEFINITION. Successive-cancellation list decoding "in its usual form" (rule R267, from general knowledge), on exact
soft values. `SCL` is a parameter (rule R266); this is what a claim may compare it with (Safety.lean). -/

namespace Sys2Proof.Machine

/-- `f(a, b) = sign(a)·sign(b)·min(|a|, |b|)` (rule R267). -/
def nodeF (a b : Rat) : Rat :=
  let m := min (max a (-a)) (max b (-b))
  if (decide (a < 0)) != (decide (b < 0)) then -m else m

/-- `g(a, b, u) = b + nrz(u)·a` (rule R267). -/
def nodeG (a b : Rat) (u : Bool) : Rat := b + (nrz u : Rat) * a

/-- One path: its metric, the message bits decided so far (latest first), the soft values of the open nodes and the
re-encoded bits of the finished ones (innermost first). -/
structure Path where
  metric : Rat
  decided : List Bool
  soft : List (List Rat)
  sums : List (List Bool)
  deriving DecidableEq, Repr, Inhabited

/-- The innermost node's soft values. -/
def Path.top (q : Path) : List Rat := q.soft.headD []

/-- Decide the innermost position as u: the metric grows by |λ| where u disagrees with the sign of λ (rule R267). -/
def Path.decide (q : Path) (isMessage u : Bool) : Path :=
  let l := q.top.headD 0
  let against := if u then (if l < 0 then 0 else l) else (if l < 0 then -l else 0)
  { metric := q.metric + against
    decided := if isMessage then u :: q.decided else q.decided
    soft := q.soft.tail
    sums := [u] :: q.sums }

/-- Open the low half of the innermost node: its soft values by f. -/
def Path.openLow (half : Nat) (q : Path) : Path :=
  { q with soft := List.zipWith nodeF (q.top.take half) (q.top.drop half) :: q.soft }

/-- Replace the innermost node by its high half: its soft values by g and the low half's bits. -/
def Path.openHigh (half : Nat) (q : Path) : Path :=
  let low := q.sums.headD []
  let pairs := List.zip (q.top.take half) (q.top.drop half)
  { q with soft := List.zipWith (fun ab u => nodeG ab.1 ab.2 u) pairs low :: q.soft.tail }

/-- Close a node: join the bits of its halves. -/
def Path.close (q : Path) : Path :=
  match q.sums with
  | high :: low :: rest => { q with sums := (List.zipWith Bool.xor low high ++ high) :: rest }
  | _ => q

/-- The 16 paths of smallest metric (rule R267). DESIGN CHOICE: equal metrics keep the order they stood in
(log entry 48). -/
def prune (paths : List Path) : List Path :=
  (sortBy (fun a b => Decidable.decide (a.metric < b.metric)) paths).take listWidth

/-- Decode a node of `2^n` positions with the given frozen flags on every path (rule R267). -/
def decodeNode : Nat → List Bool → List Path → List Path
  | 0, flags, paths =>
    if flags.headD true then paths.map fun q => q.decide false false
    else prune (paths.flatMap fun q => [q.decide true false, q.decide true true])
  | n + 1, flags, paths =>
    let low := decodeNode n (flags.take (2 ^ n)) (paths.map (Path.openLow (2 ^ n)))
    let high := decodeNode n (flags.drop (2 ^ n)) (low.map (Path.openHigh (2 ^ n)))
    high.map Path.close

/-- The exact value of a finite soft bit. DESIGN CHOICE: an infinity or a NaN counts as 0, and the premise that uses it
asks for finite soft bits (log entry 49). -/
def softValue : SoftBit → Rat
  | .float v => (F32.toRat? v).getD 0
  | .int8 v => (v.toInt : Rat)

/-- The surviving paths for a code vector of `2^n` soft bits (rule R267). -/
def usualPaths (n : Nat) (frozen : List Bool) (code : List SoftBit) : List Path :=
  decodeNode n frozen [{ metric := 0, decided := [], soft := [code.map softValue], sums := [] }]

/-- The message bits of a path in the order of `pos` (rules R262, R266). -/
def Path.message (q : Path) : List Bool := q.decided.reverse

end Sys2Proof.Machine
end

