-- ==== Sys2Proof/Safety.lean ====
section
/-! DEFINITION. What claims are stated in: the invariants of a run, and the named properties of the open parameters
that a claim may take as premises (rules R7, R156, R157, R191, R226, R266, R431). No definition of the machine assumes
any of the named properties. -/

namespace Sys2Proof.Machine

/-! ### Invariants of the state -/

/-- The ring holds every sample of the symbol that starts at `base` (rule R30). -/
abbrev Dec.HoldsSymbol (d : Dec) (base : Int) : Prop :=
  (d.nW : Int) - Rate.ringCap d.rate ≤ base ∧ base + Rate.lSym d.rate ≤ (d.nW : Int)

/-- The mode registers are a row of the mode table (rule R40). -/
def ModeRegs.IsRow (m : ModeRegs) : Prop := ∃ mode, modeTable mode = some m

/-- What every CREATED decoder unit satisfies between operations. -/
structure Dec.Live (d : Dec) : Prop where
  /-- the ring holds exactly `RING_CAP` samples (R30) -/
  ring : d.ring.length = Rate.ringCap d.rate
  /-- `n_w` counts whole blocks from `RING_CAP` on (R23, R30, R136) -/
  blocks : ∃ k, d.nW = Rate.ringCap d.rate + k * Rate.lExt d.rate
  /-- the Hilbert delay line has `HILBERT_LEN` samples (R31) -/
  hilbert : d.hilbert.length = Rate.hilbertLen d.rate
  /-- the code vector has 65536 entries (R34) -/
  code : d.code.length = codeLen
  /-- no detection is pending between operations (R26) -/
  pending : d.detPending = false
  /-- the cached call is valid or cleared (R29, R41, R201) -/
  call : d.cachedCall.toNat < callBound
  /-- `peak_prev` is 0 .. 32768 (R346) -/
  peak : d.peakPrev ≤ 32768
  /-- a payload waits only in DONE (R24, R36) -/
  ready : d.payloadReady = true → d.fsm = .done
  /-- a burst, running or complete, has a mode of the table and a cached preamble (R28, R200, R373) -/
  locked : d.fsm ≠ .idle → d.mode.IsRow ∧ d.cachedAny = true ∧ d.prev.length = d.mode.carrierCount
  /-- in SYNCED some data symbol is still to come, and the last symbol read is still in the ring (R25, R374) -/
  running : d.fsm = .synced → d.symbolNumber < d.mode.symbolCount ∧
    d.HoldsSymbol (d.symbolPositionAbs + (d.symbolNumber : Int) * Rate.lExt d.rate)
  /-- in DONE all data symbols were counted (R375) -/
  complete : d.fsm = .done → d.symbolNumber = d.mode.symbolCount

/-- A decoder unit: ABSENT and holding nothing else (R47), or CREATED and live. -/
def Dec.Inv (d : Dec) : Prop :=
  match d.alive with
  | .absent => d = Dec.absent d.rsp
  | .created => d.Live

/-- An erasure unit: ABSENT and holding nothing else (R47), or CREATED with slots of 5376 bytes (R42). -/
def Ers.Inv (e : Ers) : Prop :=
  match e.alive with
  | .absent => e = Ers.absent e.rsp
  | .created => ∀ s ∈ e.slots.toList, Cells.wfIn 0 chunkLen s.data = true

/-- The invariant of the block: buffers and slots in canonical form, both units as their rules say. -/
structure State.Inv (s : State) : Prop where
  bufs : s.bufs.wf = true
  dec : s.dec.Inv
  ers : s.ers.Inv

/-! ### Named properties of the parameters -/

/-- The exact value of a float32, 0 where it is not finite. -/
def F32.value (x : F32) : Rat := (F32.toRat? x).getD 0

/-- A soft bit whose value is a number and not infinite. -/
def SoftBit.isFinite : SoftBit → Bool
  | .float v => F32.isFinite v
  | .int8 _ => true

/-- What the correlator reports over a stream of samples, from a state of its own, a ring and `n_w` (rule R155). -/
def Detector.reportsFrom (det : Detector) (r : Rate) : List Word → List Cplx → Nat → List Cplx → List (Int × F32)
  | _, _, _, [] => []
  | cs, ring, nW, z :: zs =>
    let held := (z :: ring).take (Rate.ringCap r)
    let answer := det.step r cs held (nW + 1)
    answer.2.toList ++ Detector.reportsFrom det r answer.1 held (nW + 1) zs

/-- The reports (pos, cfo) over the samples appended since CREATE (rules R30, R155). -/
def Detector.reports (det : Detector) (r : Rate) (zs : List Cplx) : List (Int × F32) :=
  Detector.reportsFrom det r (det.init r) (List.replicate (Rate.ringCap r) Cplx.zero) (Rate.ringCap r) zs

/-- P1: at most one detection for each burst (rule R157): at most one reported position lies in it. `bursts` says which
stretches (first sample, length) of a stream are bursts; the transmitter is outside the model (R5 (c)). -/
def Detector.P1 (det : Detector) (bursts : Rate → List Cplx → List (Int × Nat)) : Prop :=
  ∀ r zs, ∀ b ∈ bursts r zs,
    (Detector.reports det r zs).countP (fun q => decide (b.1 ≤ q.1) && decide (q.1 < b.1 + b.2)) ≤ 1

/-- P2: a reported position lies within the last `2·L_ext` written positions (rule R157). DESIGN CHOICE: it is asked of
every state, ring and `n_w`, also of those no stream of samples since CREATE reaches (log entry 54). -/
def Detector.P2 (det : Detector) : Prop :=
  ∀ r cs ring nW cs' pos cfo, det.step r cs ring nW = (cs', some (pos, cfo)) →
    (nW : Int) - 2 * Rate.lExt r ≤ pos ∧ pos < (nW : Int)

/-- Whether one step of the correlator on a unit reports a detection. -/
def Dec.reports (f : Functions) (d : Dec) : Bool := (f.detect.step d.rate d.corrState d.ring d.nW).2.isSome

/-- How many steps of the sample loop report a detection. -/
def Dec.reportCount (f : Functions) (p : Params) (ch : Channel) (d : Dec) : List Frame → Nat
  | [] => 0
  | fr :: rest =>
    let before := (d.condition f p ch fr).1.append (d.condition f p ch fr).2
    (if before.reports f then 1 else 0) + (d.sampleStep f p ch fr).reportCount f p ch rest

/-- P3: during one PROCESS at most one detection is reported (rule R157). DESIGN CHOICE: it is asked of every live unit,
also of one that no run reaches (log entry 54). -/
def Functions.P3 (f : Functions) : Prop :=
  ∀ (p : Params) (ch : Channel) (d : Dec) (frames : List Frame), d.Live →
    frames.length = Rate.lExt d.rate → d.reportCount f p ch frames ≤ 1

/-- P6: at the end of the PROCESS that detected, the metadata symbol is held by the ring (rule R157). DESIGN CHOICE: it
is asked of every live unit, also of one that no run reaches (log entry 54). -/
def Functions.P6 (f : Functions) : Prop :=
  ∀ (p : Params) (ch : Channel) (d : Dec) (frames : List Frame), d.Live →
    frames.length = Rate.lExt d.rate → (d.sampleLoop f p ch frames).detPending = true →
    (d.sampleLoop f p ch frames).HoldsSymbol
      ((d.sampleLoop f p ch frames).symbolPosAbs + Rate.lExt d.rate)

/-- The detector's state after k steps on a ring of zeros. -/
def silentState (det : Detector) (r : Rate) : Nat → List Word
  | 0 => det.init r
  | k + 1 =>
    (det.step r (silentState det r k) (List.replicate (Rate.ringCap r) Cplx.zero) (Rate.ringCap r + k + 1)).1

/-- P7: a stream of samples that are all (0, 0) gives no detection (rules R157, R160). -/
def Detector.P7 (det : Detector) : Prop :=
  ∀ r k,
    (det.step r (silentState det r k) (List.replicate (Rate.ringCap r) Cplx.zero) (Rate.ringCap r + k + 1)).2 = none

/-- The value of reference carrier j: `ref[j] = nrz(m[j])`, or its running product where the sequence is sent
differentially, which the source does not say (rule R152, N3). DESIGN CHOICE: the product starts at carrier 0 of the 127
with the value `ref[0]`, and no carrier is sent before it as a reference (log entry 58). -/
def trainingValue (differential : Bool) (j : Nat) : Int :=
  if differential then nrz ((mlsTraining.take (j + 1)).foldl xor false) else trainRef j

/-- Sample n of a stream appended since CREATE, numbered absolutely: first the `RING_CAP` zeros that CREATE writes, then
the samples appended (rules R30, R47). DESIGN CHOICE: those zeros count as samples of the stream; there is none below 0
or past the last one appended (log entry 55). -/
def streamAt (r : Rate) (zs : List Cplx) (n : Int) : Option Cplx :=
  if n < 0 then none
  else if n < Rate.ringCap r then some Cplx.zero
  else zs[(n - Rate.ringCap r).toNat]?

/-- From sample `pos` on the stream carries the `L_sym` useful samples of the training symbol, up to a complex gain and
an error, turning by `omega` radians per sample (rules R151, R152, R157). DESIGN CHOICE: asked of every sample of the
stream, the zeros of CREATE included, and of none where the stream has no sample (log entry 55). -/
def Detector.TrainingAt (det : Detector) (r : Rate) (zs : List Cplx) (differential : Bool) (tol : ℝ) (pos : Int)
    (omega : ℝ) : Prop :=
  ∃ gain : ℂ, gain ≠ 0 ∧ ∀ k < Rate.lSym r, ∀ z, streamAt r zs (pos + (k : Int)) = some z →
    let tone : ℂ := ∑ j ∈ Finset.range 127, ((trainingValue differential j : Int) : ℂ) *
      Complex.exp (Complex.I * ((2 * Real.pi * (det.trainCarrier j : ℝ) * (k : ℝ) / (Rate.lSym r : ℝ) : ℝ) : ℂ))
    ‖(⟨(F32.value z.re : ℝ), (F32.value z.im : ℝ)⟩ : ℂ)
        - gain * Complex.exp (Complex.I * ((omega * (k : ℝ) : ℝ) : ℂ)) * tone‖ ≤ tol * ‖gain‖

/-- P4: a reported position is where the guard of the preamble's first symbol ends, the index of the first useful sample
of the training symbol (rule R157). -/
def Detector.P4 (det : Detector) (differential : Bool) (tol : ℝ) : Prop :=
  ∀ r zs, ∀ q ∈ Detector.reports det r zs, ∃ omega : ℝ, Detector.TrainingAt det r zs differential tol q.1 omega

/-- P5: a reported offset is a number of radians per sample in (−π, π], the rate at which the training symbol at the
reported position turns (rule R157; the interval is from general knowledge). -/
def Detector.P5 (det : Detector) (differential : Bool) (tol : ℝ) : Prop :=
  ∀ r zs, ∀ q ∈ Detector.reports det r zs, F32.isFinite q.2 = true ∧ -Real.pi < (F32.value q.2 : ℝ) ∧
    (F32.value q.2 : ℝ) ≤ Real.pi ∧ Detector.TrainingAt det r zs differential tol q.1 (F32.value q.2 : ℝ)

/-- The two admissible readings of `TRAIN_CARRIER` (rule R152). -/
def Detector.TrainPlaced (det : Detector) : Prop :=
  (∀ k < 127, det.trainCarrier k = -126 + (k : Int)) ∨ (∀ k < 127, det.trainCarrier k = -126 + 2 * (k : Int))

/-- One term `x[n+k]·conj(x[n+k+H])` of the correlation of the two halves (rule R153). -/
def schmidlTerm (num : Numerics) (xs : List Cplx) (half k : Nat) : Cplx :=
  Cplx.mul num (xs.getD k Cplx.zero) (Cplx.conj (xs.getD (k + half) Cplx.zero))

/-- `P`, the correlation of the two halves of a candidate symbol (rule R153). -/
def schmidlP (num : Numerics) (xs : List Cplx) (half : Nat) : Cplx :=
  { re := F32.sum num ((List.range half).map fun k => (schmidlTerm num xs half k).re)
    im := F32.sum num ((List.range half).map fun k => (schmidlTerm num xs half k).im) }

/-- `E`, the energy of the second half (rule R153). -/
def schmidlE (num : Numerics) (xs : List Cplx) (half : Nat) : F32 :=
  F32.sum num ((List.range half).map fun k => Cplx.norm num (xs.getD (k + half) Cplx.zero))

/-- `M = |P|²/E²`, the timing metric (rule R153). -/
def schmidlM (num : Numerics) (xs : List Cplx) (half : Nat) : F32 :=
  F32.div num (Cplx.norm num (schmidlP num xs half)) (F32.mul num (schmidlE num xs half) (schmidlE num xs half))

/-- A detector whose reports all have a timing metric of at least a threshold at the reported position: the shape
rule R153 gives a Schmidl–Cox detector (from general knowledge). DESIGN CHOICE: the metric is compared as it is, without
smoothing, with one threshold, and at the reported position, without a floor on E; it is asked of every unit, live or not,
and of the reports whose symbol the ring holds (log entry 59). -/
def Functions.DetectsAbove (f : Functions) (threshold : F32) : Prop :=
  ∀ (d : Dec) cs pos cfo xs, f.detect.step d.rate d.corrState d.ring d.nW = (cs, some (pos, cfo)) →
    d.window pos = some xs → F32.le threshold (schmidlM f.num xs (Rate.lSym d.rate / 2)) = true

/-- O1: a returned word is a codeword (rule R191). -/
def Functions.O1 (f : Functions) (p : Params) : Prop :=
  ∀ s cw, f.osd (bchMatrix p) s = some cw → bchIsCodeword p cw = true

/-- O2: for finite soft bits a returned word is a candidate of order 2 of the best correlation (rules R191, R192). The
order of positions with equal |s[j]| is the model's (log entry 47). -/
def Functions.O2 (f : Functions) (p : Params) : Prop :=
  ∀ s cw, (∀ x ∈ s, F32.isFinite x = true) → f.osd (bchMatrix p) s = some cw →
    cw ∈ osdCandidates (bchMatrix p) s ∧
      ∀ c ∈ osdCandidates (bchMatrix p) s, osdCorrelation s c ≤ osdCorrelation s cw

/-- `SCL` decides and ranks as the usual list decoder does (rule R267, from general knowledge) on finite soft bits. In
which lane a survivor lands is open: the lanes hold the surviving paths in some order. That equal metrics keep their
order and that nothing saturates is the model's (log entry 48). -/
def Functions.SclUsual (f : Functions) : Prop :=
  ∀ frozen code, frozen.length = codeLen → code.length = codeLen → (∀ s ∈ code, SoftBit.isFinite s = true) →
    ∃ lanes : List Path, lanes.Perm (usualPaths codeOrder frozen code) ∧
      ∀ l q, lanes[l]? = some q → f.sclMetric code frozen l = q.metric ∧
        ∀ m < q.message.length, f.sclBit code frozen l m = q.message.getD m false

/-- The exact value of a constellation point. -/
def Params.pskPoint (p : Params) (modBits k : Nat) : CRat :=
  (Cplx.exact? ((Params.psk p modBits).points.getD k Cplx.zero)).getD { re := 0, im := 0 }

/-- The square of the distance of two complex numbers. -/
def CRat.distSq (z w : CRat) : Rat := (z.re - w.re) ^ 2 + (z.im - w.im) ^ 2

/-- `PSK(mod_bits)` (rule R226): `2^mod_bits` points of modulus 1 at equal angular spacing, up to what float32 can hold,
listed in the order of their angles; Gray labels on neighbouring points; for every finite z, `decide` an index of a point
nearest to z in exact numbers, and `hard` of the soft values (rule R14) the bits of that point's label. -/
structure Functions.PskOk (f : Functions) (p : Params) (modBits : Nat) (eps : ℝ) : Prop where
  count : (Params.psk p modBits).points.length = 2 ^ modBits
  finite : ∀ z ∈ (Params.psk p modBits).points, (Cplx.exact? z).isSome = true
  circle : ∃ phi : ℝ, ∀ k < 2 ^ modBits,
    |((Params.pskPoint p modBits k).re : ℝ) - Real.cos (phi + 2 * Real.pi * k / 2 ^ modBits)| ≤ eps ∧
      |((Params.pskPoint p modBits k).im : ℝ) - Real.sin (phi + 2 * Real.pi * k / 2 ^ modBits)| ≤ eps
  labels : (Params.psk p modBits).labels.Perm (List.range (2 ^ modBits))
  gray : ∀ k < 2 ^ modBits, ∃ b < modBits,
    (Params.psk p modBits).labels.getD k 0 ^^^ (Params.psk p modBits).labels.getD ((k + 1) % 2 ^ modBits) 0 = 2 ^ b
  nearest : ∀ z q, Cplx.exact? z = some q → f.pskDecide modBits z < 2 ^ modBits ∧ ∀ k < 2 ^ modBits,
    q.distSq (Params.pskPoint p modBits (f.pskDecide modBits z)) ≤ q.distSq (Params.pskPoint p modBits k)
  signs : ∀ z q, Cplx.exact? z = some q → ∀ b < modBits,
    SoftBit.hard (.float (f.pskSoft modBits z b)) =
      ((Params.psk p modBits).labels.getD (f.pskDecide modBits z) 0).testBit b

/-- `NUM.round` takes a value to a nearest finite float32. -/
def Numerics.RoundsNearest (num : Numerics) : Prop :=
  ∀ q : Rat, |q| ≤ F32.magnitude 254 (2 ^ 23 - 1) → ∃ v, F32.toRat? (num.round q) = some v ∧
    ∀ x w, F32.toRat? x = some w → |q - v| ≤ |q - w|

/-- `DC_FILTER` has zero gain at zero frequency (rule R132): on the exact values the pole a lies inside the unit circle
and the gain `d + c·b/(1 − a)` is 0. DEDUCED: a filter has a gain at zero frequency only where it is stable (log entry
20). -/
def DcCoef.ZeroGain (k : DcCoef) : Prop :=
  ∃ a b c d, F32.toRat? k.a = some a ∧ F32.toRat? k.b = some b ∧ F32.toRat? k.c = some c ∧ F32.toRat? k.d = some d ∧
    |a| < 1 ∧ d + c * b / (1 - a) = 0

/-- The constraints the source states on the data parameters (rules R7, R132, R189, R262, R302, R307). -/
structure Params.Admissible (p : Params) : Prop where
  dcFilter : ∀ r, DcCoef.ZeroGain (PerRate.get p.dcFilter r)
  bch : bchGenOk p.bchGen = true
  frozen64800 : frozenOk p.frozen64800 43808 = true
  frozen64512 : frozenOk p.frozen64512 44096 = true
  seed : p.scrambleSeed ≠ 0
  field : gfIrreducible p.gfPoly = true
  columns : p.crsCol.toList.Nodup


/-! ### Terms that claims use -/

/-- A `zero` bit of the word's format is 1 (rules R102 to R105). -/
def zeroBitSet (w : Word) : Prop :=
  ((opcodeOf w).toNat ∈ [0x00, 0x03] ∧ w.extractLsb' 11 21 ≠ 0) ∨
    ((opcodeOf w).toNat ∈ [0x01, 0x02, 0x04, 0x05, 0x10, 0x11] ∧ w.extractLsb' 8 24 ≠ 0) ∨
    ((opcodeOf w).toNat = 0x12 ∧ w.extractLsb' 28 4 ≠ 0)

/-- A command word is illegal for a unit, the five clauses of rule R120. -/
def illegalFor (u : UnitId) (w : Word) : Prop :=
  (opcodeOf w).toNat ∉ [0x00, 0x01, 0x02, 0x03, 0x04, 0x05, 0x10, 0x11, 0x12, 0x13] ∨
    (u = .dec ∧ (opcodeOf w).toNat ∈ [0x10, 0x11, 0x12, 0x13]) ∨
    (u = .ers ∧ (opcodeOf w).toNat ∈ [0x00, 0x01, 0x02, 0x03, 0x04, 0x05]) ∨
    zeroBitSet w ∨
    ((opcodeOf w).toNat = 0x03 ∧ 5 ≤ (w.extractLsb' 8 3).toNat) ∨
    ((opcodeOf w).toNat = 0x13 ∧ ((w.extractLsb' 8 4).toNat = 0 ∨ 13 ≤ (w.extractLsb' 8 4).toNat))

/-- The values rule R47 gives a decoder unit after CREATE(R); `RSP` is rule R360's. -/
structure Dec.HasCreateValues (f : Functions) (r : Rate) (d : Dec) : Prop where
  alive : d.alive = .created
  rate : d.rate = r
  fsm : d.fsm = .idle
  symbolNumber : d.symbolNumber = 0
  detPending : d.detPending = false
  cachedAny : d.cachedAny = false
  payloadReady : d.payloadReady = false
  ring : d.ring = List.replicate (Rate.ringCap r) Cplx.zero
  nW : d.nW = Rate.ringCap r
  dcState : d.dcState = 0
  hilbert : d.hilbert = List.replicate (Rate.hilbertLen r) 0
  corrState : d.corrState = f.detect.init r
  peakPrev : d.peakPrev = 0
  rsp : d.rsp = 1

/-- A buffer has the length and the content of a list (rule R70). -/
def Buffer.Holds {w : Nat} (b : Buffer w) (vs : List (BitVec w)) : Prop :=
  b.len = vs.length ∧ ∀ k < vs.length, b.read k = vs.getD k 0

/-- The buffers handed to a PROCESS with their lengths, as the table of rule R72 gives them. -/
def processTable (r : Rate) (sel : BitVec 3) : List (Space × Nat) :=
  [(.audio, if sel = 0 then Rate.lExt r else 2 * Rate.lExt r), (.pixel .spec, 40960), (.pixel .sgram, 163840),
    (.pixel .cons, 4096), (.pixel .peak, 16)]

/-- Two different buffers of a PROCESS overlap in storage (rule R86). -/
def processBuffersOverlap (s : State) : Prop :=
  ∃ q ∈ s.overlaps, q.1 ≠ q.2 ∧ q.1 ∈ (processTable s.dec.rate 0).map Prod.fst ∧
    q.2 ∈ (processTable s.dec.rate 0).map Prod.fst

/-- A byte next to `255·√c`, equal to it where that is a whole number (rule R344: the rounding of q is open). -/
def byteNearRoot (q : Nat) (c : Rat) : Prop :=
  (q : ℝ) - 1 < 255 * √((max 0 (min 1 c) : Rat) : ℝ) ∧ 255 * √((max 0 (min 1 c) : Rat) : ℝ) < (q : ℝ) + 1

/-- A pixel of the palette at v, each channel limited to [0, 1], its square root taken, rounded to a byte
(rule R344). -/
def paletteNear (pixel : Word) (v : Rat) : Prop :=
  byteNearRoot (pixel.extractLsb' 24 8).toNat (4 * v) ∧ byteNearRoot (pixel.extractLsb' 16 8).toNat (4 * v - 2) ∧
    byteNearRoot (pixel.extractLsb' 8 8).toNat (1 - |4 * v - 2|) ∧
    byteNearRoot (pixel.extractLsb' 0 8).toNat (2 - 4 * v)

/-- A buffer differs from an earlier one in its first n elements only. -/
structure Buffer.SameFrom {w : Nat} (b b' : Buffer w) (n : Nat) : Prop where
  len : b'.len = b.len
  read : ∀ k, n ≤ k → b'.read k = b.read k

/-- Every space differs in its first `n space` elements only. -/
structure Buffers.SameFrom (b b' : Buffers) (n : Space → Nat) : Prop where
  audio : b.audio.SameFrom b'.audio (n .audio)
  spec : b.spec.SameFrom b'.spec (n (.pixel .spec))
  sgram : b.sgram.SameFrom b'.sgram (n (.pixel .sgram))
  cons : b.cons.SameFrom b'.cons (n (.pixel .cons))
  peak : b.peak.SameFrom b'.peak (n (.pixel .peak))
  call9 : b.call9.SameFrom b'.call9 (n (.byte .call9))
  payload : b.payload.SameFrom b'.payload (n (.byte .payload))
  chunkin : b.chunkin.SameFrom b'.chunkin (n (.byte .chunkin))
  out : b.out.SameFrom b'.out (n (.byte .out))

/-- How many elements of a space, from index 0, an operation may write (rule R85, the column "writes"). -/
def writeRange (i : Instr) (sp : Space) : Nat :=
  match i, sp with
  | .process _, .pixel .spec => 640 * 64
  | .process _, .pixel .sgram => 640 * 256
  | .process _, .pixel .cons => 64 * 64
  | .process _, .pixel .peak => 16
  | .cached, .byte .call9 => 9
  | .fetch, .byte .payload => 5380
  | .recover _ total, .byte .out => total.toNat
  | _, _ => 0

/-- The transmitter's chunk with identifier x: element `XOR over j of gf_mul(a(x, j), d[j])` of `count` block elements
(rule R308). -/
def chunkElement (poly : Nat) (cols : List Half) (x : Half) (d : Nat → Half) : Half :=
  ((List.range cols.length).map fun j => gfMul poly (cauchyEntry poly x (cols.getD j 0)) (d j)).foldl (· ^^^ ·) 0

/-- How many entries of a flag list below i satisfy a predicate on their index. -/
def countBelow (keep : Nat → Bool) (i : Nat) : Nat := ((List.range i).filter keep).length

/-- The message index of a position: how many non-frozen positions lie below it (rule R262). -/
def messageIndex (frozen : List Bool) (i : Nat) : Nat := (frozen.take i).count false

/-- Position i of the mother code gets a received soft bit: frozen, or of message index below the limit (rule R263). -/
def receives (limit : Nat) (frozen : List Bool) (i : Nat) : Bool :=
  frozen.getD i false || decide (messageIndex frozen i < limit)

end Sys2Proof.Machine
end

