-- ==== Sys2Proof/Certificates/Slice0/Obligations.lean ====
section
/-! DEFINITION. Statements for the provers. Each docstring names the rule or the sections of spec/ it rests on. -/

section

open Sys2Proof Sys2Proof.Machine

/-! ### Command words (30_encoding.md) -/

/-- Sections 30_encoding.md 1 to 3: decoding the word of an operation gives that operation, for every operand value.
-/
def Obligations.DecodeOfEncodeIsTheOperation : Prop := ∀ i : Instr, decode (encode i) = .ok i

/-- Sections 30_encoding.md 1 to 3 (R101 to R107): a word that decodes is the word of the operation it decodes to, so
no bit is ignored; and where each format puts its fields. -/
def Obligations.EncodeOfDecodeIsTheWord : Prop :=
  (∀ (w : Word) (i : Instr), decode w = .ok i → encode i = w) ∧
    (∀ sel, encode (.create sel) = (0#21 ++ (sel ++ 0x00#8 : BitVec 11) : Word) ∧
      encode (.process sel) = (0#21 ++ (sel ++ 0x03#8 : BitVec 11) : Word)) ∧
    (∀ idx ident, encode (.chunk idx ident) = (0#4 ++ (ident ++ (idx ++ 0x12#8 : BitVec 12) : BitVec 28) : Word)) ∧
    ∀ count total, encode (.recover count total) = (total ++ (count ++ 0x13#8 : BitVec 12) : Word)

/-- Rule R107: the opcode map; a word selects a row exactly when `w & mask = match`; the row's kind of unit is the
only one that accepts it, DEC for opcodes 0x00 to 0x05 and ERS for 0x10 to 0x13. -/
def Obligations.MatchAndMaskSelectTheRow : Prop :=
  (∀ (sel : BitVec 3) (idx count : BitVec 4) (ident : BitVec 16) (total : BitVec 20),
      ([.create sel, .destroy, .rate, .process sel, .cached, .fetch, .ecreate, .edestroy, .chunk idx ident,
          .recover count total] : List Instr).map (fun i => (i.mnemonic, rowMatch i, rowMask i)) =
        [("CREATE", 0x00000000, 0xFFFFF8FF), ("DESTROY", 0x00000001, 0xFFFFFFFF), ("RATE", 0x00000002, 0xFFFFFFFF),
          ("PROCESS", 0x00000003, 0xFFFFF8FF), ("CACHED", 0x00000004, 0xFFFFFFFF), ("FETCH", 0x00000005, 0xFFFFFFFF),
          ("ECREATE", 0x00000010, 0xFFFFFFFF), ("EDESTROY", 0x00000011, 0xFFFFFFFF),
          ("CHUNK", 0x00000012, 0xF00000FF), ("RECOVER", 0x00000013, 0x000000FF)]) ∧
    (∀ (w : Word) (i : Instr), w &&& rowMask i = rowMatch i ↔ ∃ j, decode w = .ok j ∧ j.mnemonic = i.mnemonic) ∧
    (∀ (u : UnitId) (w : Word) (i : Instr), acceptedBy u w = some i ↔ decode w = .ok i ∧ i.unit = u) ∧
    ∀ i : Instr, (i.unit = .dec ↔ (rowMatch i).toNat ≤ 0x05) ∧ (i.unit = .ers ↔ 0x10 ≤ (rowMatch i).toNat)

/-- Section 30_encoding.md and 95_test_vectors.md: words written out from the formats decode to the operations they
stand for. -/
def Obligations.WrittenOutWordsDecode : Prop :=
  decode 0b00000000000000000000010000000000#32 = .ok (.create 4) ∧
    decode 0b00000000000000000000000000000001#32 = .ok .destroy ∧
    decode 0b00000000000000000000000000000010#32 = .ok .rate ∧
    decode 0b00000000000000000000010000000011#32 = .ok (.process 4) ∧
    decode 0b00000000000000000000000000000100#32 = .ok .cached ∧
    decode 0b00000000000000000000000000000101#32 = .ok .fetch ∧
    decode 0b00000000000000000000000000010000#32 = .ok .ecreate ∧
    decode 0b00000000000000000000000000010001#32 = .ok .edestroy ∧
    decode 0b00000000000000001100101100010010#32 = .ok (.chunk 11 12) ∧
    decode 0b00001111110000000000110000010011#32 = .ok (.recover 12 64512)

/-- Section 30_encoding.md 5 (R120): an illegal command does nothing but set `RSP` to 0x80000000; every other word is
one whole operation; CREATE with any `rate_sel` and CHUNK with any `idx` are not illegal: they fail and return false. That
CHUNK does so also for a CHUNKIN that is too short is the model's choice (log entry 50). -/
def Obligations.IllegalWordsAnswerErrAndDoNothing : Prop :=
  (∀ (w : Word) (s : State), illegalFor .dec w →
      runCommand .dec w s = .next { s with dec := { s.dec with rsp := 0x80000000#32 } }) ∧
    (∀ (w : Word) (s : State), illegalFor .ers w →
      runCommand .ers w s = .next { s with ers := { s.ers with rsp := 0x80000000#32 } }) ∧
    (∀ (u : UnitId) (w : Word) (s : State), ¬ illegalFor u w →
      ∃ i, decode w = .ok i ∧ i.unit = u ∧ i.wf = true ∧ runCommand u w s = exec i s) ∧
    (∀ sel, ¬ illegalFor .dec (encode (.create sel))) ∧ (∀ idx ident, ¬ illegalFor .ers (encode (.chunk idx ident))) ∧
    (∀ sel (s : State), 5 ≤ sel.toNat →
      runCommand .dec (encode (.create sel)) s = .next { s with dec := { s.dec with rsp := 0 } }) ∧
    ∀ idx ident (s : State), 12 ≤ idx.toNat → s.ers.alive = .created →
      runCommand .ers (encode (.chunk idx ident)) s = .next { s with ers := { s.ers with rsp := 0 } }

/-- Sections 20_memory.md 1 and 5 (R70, R80, R84) and log entries 1 and 42: a step takes HOST's next move. A command
word that the unit accepts is run as the operation it decodes to; any other word is answered `ERR`; a move that is no
command changes what it names: a bound space gets the length and the content of the list and no other space changes,
the overlaps, `alloc_ok` and power-on reset change those alone; with no move left the state stays. -/
def Obligations.StepRunsTheDecodedOperation : Prop :=
  (∀ (s : State) u w i rest, s.host = .command u w :: rest → decode w = .ok i → i.unit = u →
      step s = exec i { s with host := rest }) ∧
    (∀ (s : State) u w rest, s.host = .command u w :: rest → (∀ i, decode w = .ok i → i.unit ≠ u) →
      step s = .next (State.err { s with host := rest } u)) ∧
    (∀ (s : State) vs rest, s.host = .bindAudio vs :: rest → ∃ b, Buffer.Holds b vs ∧
      step s = .next { s with host := rest, bufs := { s.bufs with audio := b } }) ∧
    (∀ (s : State) vs rest, s.host = .bindPixels .spec vs :: rest → ∃ b, Buffer.Holds b vs ∧
      step s = .next { s with host := rest, bufs := { s.bufs with spec := b } }) ∧
    (∀ (s : State) vs rest, s.host = .bindPixels .sgram vs :: rest → ∃ b, Buffer.Holds b vs ∧
      step s = .next { s with host := rest, bufs := { s.bufs with sgram := b } }) ∧
    (∀ (s : State) vs rest, s.host = .bindPixels .cons vs :: rest → ∃ b, Buffer.Holds b vs ∧
      step s = .next { s with host := rest, bufs := { s.bufs with cons := b } }) ∧
    (∀ (s : State) vs rest, s.host = .bindPixels .peak vs :: rest → ∃ b, Buffer.Holds b vs ∧
      step s = .next { s with host := rest, bufs := { s.bufs with peak := b } }) ∧
    (∀ (s : State) vs rest, s.host = .bindBytes .call9 vs :: rest → ∃ b, Buffer.Holds b vs ∧
      step s = .next { s with host := rest, bufs := { s.bufs with call9 := b } }) ∧
    (∀ (s : State) vs rest, s.host = .bindBytes .payload vs :: rest → ∃ b, Buffer.Holds b vs ∧
      step s = .next { s with host := rest, bufs := { s.bufs with payload := b } }) ∧
    (∀ (s : State) vs rest, s.host = .bindBytes .chunkin vs :: rest → ∃ b, Buffer.Holds b vs ∧
      step s = .next { s with host := rest, bufs := { s.bufs with chunkin := b } }) ∧
    (∀ (s : State) vs rest, s.host = .bindBytes .out vs :: rest → ∃ b, Buffer.Holds b vs ∧
      step s = .next { s with host := rest, bufs := { s.bufs with out := b } }) ∧
    (∀ (s : State) pairs rest, s.host = .bindOverlaps pairs :: rest →
      step s = .next { s with host := rest, overlaps := pairs }) ∧
    (∀ (s : State) ok rest, s.host = .setAllocOk ok :: rest →
      step s = .next { s with host := rest, allocOk := ok }) ∧
    (∀ (s : State) rest, s.host = .powerOn :: rest →
      step s = .next { s with host := rest, dec := State.reset.dec, ers := State.reset.ers }) ∧
    ∀ s : State, s.host = [] → step s = .next s

/-! ### Reset and invariants (10_state.md, 70_reset_and_hazards.md) -/

/-- Section 70_reset_and_hazards.md 1 (R440): power-on reset leaves both units ABSENT with `RSP = 0`; that HOST's move
power-on is that same reset between two operations is the model's (log entry 41). -/
def Obligations.PowerOnLeavesBothUnitsAbsent : Prop :=
  State.reset.dec.alive = .absent ∧ State.reset.ers.alive = .absent ∧ State.reset.dec.rsp = 0 ∧
    State.reset.ers.rsp = 0 ∧
    ∀ (s : State) rest, s.host = .powerOn :: rest →
      step s = .next { s with host := rest, dec := State.reset.dec, ers := State.reset.ers }

/-- Sections 10_state.md and 20_memory.md: the state after reset meets the invariant. -/
def Obligations.ResetMeetsTheInvariant : Prop := State.reset.Inv

/-- Sections 10_state.md 1 to 6, 41_burst_correlator.md 3, 47_control_ops.md 3: every step keeps the invariant:
buffers and slots stay canonical, an ABSENT unit holds nothing else, the ring holds `RING_CAP` samples and `n_w` whole
blocks, no detection is pending between operations, the mode registers of a burst are a row of the mode table, a
payload waits only in DONE. -/
def Obligations.EveryStepKeepsTheInvariant : Prop :=
  ∀ s t : State, s.Inv → step s = .next t → t.Inv

/-- Rule R6: the lengths of the five rates and the fixed sizes; no other `rate_sel` selects a rate. -/
def Obligations.LengthsOfTheFiveRates : Prop :=
  let rates : List Rate := [.r8000, .r16000, .r32000, .r44100, .r48000]
  rates.map Rate.hz = [8000, 16000, 32000, 44100, 48000] ∧
    rates.map Rate.lSym = [1280, 2560, 5120, 7056, 7680] ∧
    rates.map Rate.lGuard = [160, 320, 640, 882, 960] ∧
    rates.map Rate.lExt = [1440, 2880, 5760, 7938, 8640] ∧
    rates.map Rate.ringCap = [5760, 11520, 23040, 31752, 34560] ∧
    rates.map Rate.hilbertLen = [21, 41, 85, 113, 125] ∧ listWidth = 16 ∧ codeOrder = 16 ∧ codeLen = 65536 ∧
    dataBits = 43040 ∧ payloadLen = 5380 ∧ crcBits = 43072 ∧ slotCount = 12 ∧ chunkLen = 5376 ∧
    ∀ sel : BitVec 3, Rate.ofSel sel = rates[sel.toNat]?

/-- Sections 70_reset_and_hazards.md 1 and 3 (R442, R452), in the model's form: a step takes one move of HOST and no
operation writes a parameter. That HOST's moves are a list in State whose first one a step removes is the model's choice
(log entry 1), and so is that the data parameters stand in State (log entry 4). -/
def Obligations.StepTakesOneMoveAndKeepsParameters : Prop :=
  ∀ s t : State, step s = .next t → t.params = s.params ∧ t.host = s.host.tail

/-! ### Control operations (47_control_ops.md) -/

/-- Rule R360: CREATE fails and changes nothing on a CREATED unit, for `rate_sel` of 5 or more and when
`alloc_ok = 0`; otherwise it constructs the unit with the state of rule R47. -/
def Obligations.CreateConstructsOrFails : Prop :=
  encode (.create 4) = 0x00000400#32 ∧
    (∀ sel (s : State), s.dec.alive = .created ∨ 5 ≤ sel.toNat ∨ s.allocOk = false →
      exec (.create sel) s = .next { s with dec := { s.dec with rsp := 0 } }) ∧
    ∀ sel (s : State), s.dec.alive = .absent → sel.toNat < 5 → s.allocOk = true →
      ∃ t r, exec (.create sel) s = .next t ∧ t = { s with dec := t.dec } ∧
        [8000, 16000, 32000, 44100, 48000][sel.toNat]? = some (Rate.hz r) ∧
        t.dec.HasCreateValues Config.functions r

/-- Rule R361: DESTROY leaves one and the same ABSENT unit whatever the unit held, nothing else changes, and a later
CREATE starts from the reset values. -/
def Obligations.DestroyLeavesNothing : Prop :=
  encode .destroy = 0x00000001#32 ∧
    ∃ d : Dec, d.alive = .absent ∧ d.rsp = 0 ∧
      ∀ s : State, s.dec.alive = .created → exec .destroy s = .next { s with dec := d } ∧
        ∀ sel : BitVec 3, sel.toNat < 5 → s.allocOk = true →
          ∃ t r, exec (.create sel) { s with dec := d } = .next t ∧
            [8000, 16000, 32000, 44100, 48000][sel.toNat]? = some (Rate.hz r) ∧
            t.dec.HasCreateValues Config.functions r

/-- Sections 70_reset_and_hazards.md 1 (R443) and 47_control_ops.md: after DESTROY a CREATE gives the unit a first
CREATE gives, and after EDESTROY an ECREATE the unit a first ECREATE gives. -/
def Obligations.DestroyThenCreateIsAFirstCreate : Prop :=
  (∀ (s s0 : State) sel, s.dec.alive = .created → s0.dec = State.reset.dec → s0.params = s.params →
      s0.allocOk = s.allocOk →
      ∃ t u u0, exec .destroy s = .next t ∧ exec (.create sel) t = .next u ∧ exec (.create sel) s0 = .next u0 ∧
        u.dec = u0.dec) ∧
    ∀ s s0 : State, s.ers.alive = .created → s0.ers = State.reset.ers →
      ∃ t u u0, exec .edestroy s = .next t ∧ exec .ecreate t = .next u ∧ exec .ecreate s0 = .next u0 ∧
        u.ers = u0.ers

/-- Rule R362: RATE answers the R that was used and writes no other state. -/
def Obligations.RateAnswersTheRateUsed : Prop :=
  encode .rate = 0x00000002#32 ∧ BitVec.ofNat 32 (Rate.hz .r44100) = 0x0000AC44#32 ∧
    ∀ s : State, s.dec.alive = .created →
      exec .rate s = .next { s with dec := { s.dec with rsp := BitVec.ofNat 32 (Rate.hz s.dec.rate) } }

/-- Rule R406: PROCESS on an ABSENT unit answers HEAP and does nothing; every other operation but CREATE and ECREATE
answers `ERR` there and does nothing. -/
def Obligations.AbsentUnitsAnswerHeapOrErr : Prop :=
  (∀ s : State, s.dec.alive = .absent →
      (∀ ch, ch.toNat ≤ 4 → exec (.process ch) s = .next { s with dec := { s.dec with rsp := 4 } }) ∧
        ∀ i ∈ [Instr.destroy, .rate, .cached, .fetch],
          exec i s = .next { s with dec := { s.dec with rsp := 0x80000000#32 } }) ∧
    ∀ s : State, s.ers.alive = .absent →
      exec .edestroy s = .next { s with ers := { s.ers with rsp := 0x80000000#32 } } ∧
        (∀ idx ident, exec (.chunk idx ident) s = .next { s with ers := { s.ers with rsp := 0x80000000#32 } }) ∧
        ∀ count total, 1 ≤ count.toNat → count.toNat ≤ 12 →
          exec (.recover count total) s = .next { s with ers := { s.ers with rsp := 0x80000000#32 } }

/-- Rule R367: ECREATE changes nothing on a CREATED unit and otherwise constructs it with every slot invalid. -/
def Obligations.EcreateConstructsOrFails : Prop :=
  encode .ecreate = 0x00000010#32 ∧
    (∀ s : State, s.ers.alive = .created → exec .ecreate s = .next { s with ers := { s.ers with rsp := 0 } }) ∧
    ∀ s : State, s.ers.alive = .absent →
      ∃ t, exec .ecreate s = .next t ∧ t = { s with ers := t.ers } ∧ t.ers.alive = .created ∧ t.ers.rsp = 1 ∧
        ∀ k < 12, (t.ers.slot k).valid = false

/-- Rule R368: EDESTROY leaves one and the same ABSENT unit whatever the chunk store held. -/
def Obligations.EdestroyLeavesNothing : Prop :=
  encode .edestroy = 0x00000011#32 ∧
    ∃ e : Ers, e.alive = .absent ∧ e.rsp = 0 ∧
      ∀ s : State, s.ers.alive = .created → exec .edestroy s = .next { s with ers := e }

/-- Section 47_control_ops.md 1 (R365) with R18 and R46: CACHED writes CFO, MODE and the nine characters of CALL9 and
nothing else. CFO is `cfo_rad·R/(2π)`: that the product is taken first and divided by the float32 of 2π is the model's
(log entry 19). -/
def Obligations.CachedReportsTheLastPreamble : Prop :=
  ∀ s : State, s.dec.alive = .created → s.dec.cachedAny = true → s.bufs.call9.len = 9 → s.bufs.call9.wf = true →
    ∃ t, exec .cached s = .next t ∧
      t = { s with
        bufs := { s.bufs with call9 := t.bufs.call9 }
        dec := { s.dec with
          cfoReg := F32.div Config.functions.num
            (F32.mul Config.functions.num s.dec.cfoRad (F32.ofInt Config.functions.num (Rate.hz s.dec.rate)))
            0x40C90FDB#32
          modeReg := s.dec.cachedMode.zeroExtend 32
          rsp := 0 } } ∧
      s.bufs.call9.SameFrom t.bufs.call9 9 ∧
      (∀ k < 9, t.bufs.call9.read k = (base37Text s.dec.cachedCall.toNat).getD k 0) ∧
      (s.dec.cachedCall = 0 → ∀ k < 9, t.bufs.call9.read k = 0x20#8)

/-- Rule R18: the base-37 text of a value, its digits, and the round trip both ways. -/
def Obligations.CallSignTextRoundTrips : Prop :=
  (List.range 37).map base37Char =
      [0x20, 0x30, 0x31, 0x32, 0x33, 0x34, 0x35, 0x36, 0x37, 0x38, 0x39, 0x41, 0x42, 0x43, 0x44, 0x45, 0x46, 0x47,
        0x48, 0x49, 0x4A, 0x4B, 0x4C, 0x4D, 0x4E, 0x4F, 0x50, 0x51, 0x52, 0x53, 0x54, 0x55, 0x56, 0x57, 0x58, 0x59,
        0x5A] ∧
    (∀ v < 37 ^ 9, (base37Text v).length = 9 ∧ base37Value (base37Text v) = v ∧
      ∀ k ≤ 8, (base37Text v)[8 - k]? = some (base37Char (v / 37 ^ k % 37))) ∧
    (∀ s : List Byte, s.length = 9 → (∀ c ∈ s, ∃ d < 37, c = base37Char d) →
      base37Value s < 37 ^ 9 ∧ base37Text (base37Value s) = s ∧
        base37Value s = ((List.range 9).map fun k => base37Digit (s.getD (8 - k) 0) * 37 ^ k).sum) ∧
    base37Value [0x54, 0x45, 0x53, 0x54, 0x31, 0x32, 0x33, 0x34, 0x35] = 106874852065144

/-- Sections 47_control_ops.md 1 (R366), 44_polar_cascl.md (R263, R264) and 30_encoding.md 4 (R110): FETCH after DONE
rewrites `code`, clears `payload_ready`, writes PAYLOAD and answers; it changes nothing else. `code` is lengthened up to
message index 43072 with 9000.0 or 127 by the frozen table of the burst; a success answers 1 with the flip count in bits
30:8, a failure 0. -/
def Obligations.FetchDecodesTheBurst : Prop :=
  (∀ (f : Functions) (p : Params) (d : Dec),
    d.lengthened f p = lengthen 43072
      (match p.soft with
        | .float => .float 0x460CA000#32
        | .int8 => .int8 127#8)
      (match d.mode.frozenSel with
        | .t64800 => p.frozen64800
        | .t64512 => p.frozen64512)
      d.mode.consBits d.mode.mesgBits d.code) ∧
    F32.toRat? 0x460CA000#32 = some 9000 ∧
  ∀ s : State, s.dec.alive = .created → s.dec.payloadReady = true →
    frozenOk (Params.frozen s.params s.dec.mode.frozenSel) s.dec.mode.mesgBits = true →
    s.bufs.payload.len = 5380 → s.bufs.payload.wf = true →
    ∃ t, exec .fetch s = .next t ∧
      t = { s with
        draws := t.draws
        bufs := { s.bufs with payload := t.bufs.payload }
        dec := { s.dec with
          code := s.dec.lengthened Config.functions s.params, payloadReady := false, rsp := t.dec.rsp } } ∧
      s.bufs.payload.SameFrom t.bufs.payload 5380 ∧
      match selectLane s.params
          (lanesOf Config.functions (Params.frozen s.params s.dec.mode.frozenSel) s.dec.mode.mesgBits
            (s.dec.lengthened Config.functions s.params)) with
      | some lane =>
        t.dec.rsp.toNat = 1 + 2 ^ 8 * flipCount s.params.soft (s.dec.lengthened Config.functions s.params) lane ∧
          t.dec.rsp.getLsbD 0 = true ∧ t.dec.rsp.getLsbD 31 = false ∧
          (t.dec.rsp.extractLsb' 8 23).toNat =
            flipCount s.params.soft (s.dec.lengthened Config.functions s.params) lane ∧
          (s.params.soft = .float → t.dec.rsp = 1) ∧
          ∀ k < 5380, t.bufs.payload.read k = (payloadBytes s.params lane.message).getD k 0
      | none => t.dec.rsp = 0

/-- Rule R284: whenever FETCH answers success, it has selected one of the 16 lanes, the first 43072 bits of that lane's
message have the CRC-32 zero, and the payload is that message's start, descrambled. -/
def Obligations.SuccessfulFetchHasZeroCrc : Prop :=
  (∀ s t : State, s.dec.alive = .created → exec .fetch s = .next t → t = fetchNext Config.functions s) ∧
    ∀ (f : Functions) (s : State),
      frozenOk (Params.frozen s.params s.dec.mode.frozenSel) s.dec.mode.mesgBits = true →
      43072 ≤ s.dec.mode.mesgBits → s.bufs.payload.len = 5380 → s.bufs.payload.wf = true →
      (fetchNext f s).dec.rsp.getLsbD 0 = true →
      ∃ lane, lane ∈ lanesOf f (Params.frozen s.params s.dec.mode.frozenSel) s.dec.mode.mesgBits
          (s.dec.lengthened f s.params) ∧
        selectLane s.params (lanesOf f (Params.frozen s.params s.dec.mode.frozenSel) s.dec.mode.mesgBits
          (s.dec.lengthened f s.params)) = some lane ∧
        lane.message.length = s.dec.mode.mesgBits ∧ crcPolar s.params (lane.message.take 43072) = 0 ∧
        ∀ k < 43040, ((fetchNext f s).bufs.payload.read (k / 8)).getLsbD (k % 8) =
          ((lane.message.getD k false) != ((scrambleStream s.params).getD (k / 8) 0).getLsbD (k % 8))

/-- Section 44_polar_cascl.md 4 (R276, R277, R280): a lane passes exactly when the CRC-32 of its first 43072 message
bits is 0; float tries lanes by path metric, ties by lane number, int8 by lane
number; the first that passes wins, none wins if none passes; the flip count counts the positions that differ. -/
def Obligations.LaneSelectionFollowsTheVariant : Prop :=
  (∀ (p : Params) (lane : Lane), lanePasses p lane = true ↔
      crcBitsOf p.crcConv.polar 0xD419CC15#32 0#32 (lane.message.take 43072) = 0) ∧
  (∀ (p : Params) (lanes : List Lane), p.soft = .float →
      ((selectLane p lanes = none ↔ ∀ l ∈ lanes, lanePasses p l = false) ∧
        ∀ l, selectLane p lanes = some l → ∃ i : Nat, lanes[i]? = some l ∧ lanePasses p l = true ∧
          ∀ (j : Nat) l', lanes[j]? = some l' → lanePasses p l' = true →
            l.metric < l'.metric ∨ (l.metric = l'.metric ∧ i ≤ j))) ∧
    (∀ (p : Params) (lanes : List Lane), p.soft = .int8 →
      ((selectLane p lanes = none ↔ ∀ l ∈ lanes, lanePasses p l = false) ∧
        ∀ l, selectLane p lanes = some l → ∃ i : Nat, lanes[i]? = some l ∧ lanePasses p l = true ∧
          ∀ (j : Nat) l', lanes[j]? = some l' → lanePasses p l' = true → i ≤ j)) ∧
    ∀ (code : List SoftBit) (lane : Lane), code.length = codeLen → lane.word.length = codeLen →
      flipCount .float code lane = 0 ∧
        flipCount .int8 code lane =
          ((List.range 65536).filter fun i =>
            (code.map SoftBit.hard).getD i false != lane.word.getD i false).length

/-- Section 44_polar_cascl.md 2 (R263): lengthening puts every received soft bit, in order, on the positions that are
frozen or of message index below the limit, and the constant on every other position. -/
def Obligations.LengtheningPlacesEverySoftBit : Prop :=
  ∀ (limit cons mesg : Nat) (konst : SoftBit) (frozen : List Bool) (code : List SoftBit),
    frozen.count false = mesg → limit ≤ mesg → cons + (mesg - limit) = frozen.length → cons ≤ code.length →
    (lengthen limit konst frozen cons mesg code).length = frozen.length ∧
      countBelow (receives limit frozen) frozen.length = cons ∧
      ∀ i < frozen.length, (lengthen limit konst frozen cons mesg code)[i]? =
        if receives limit frozen i then code[countBelow (receives limit frozen) i]? else some konst

/-- Section 44_polar_cascl.md 4 (R266, R279): the polar transform sums the inputs whose index has all ones of the
output's, and is its own inverse; a lane's word is the transform of its decided bits put on the non-frozen positions,
0 on the frozen ones, and its message is that word at the non-frozen positions, in order. -/
def Obligations.PolarTransformIsItsOwnInverse : Prop :=
  (∀ (n : Nat) (u : List Bool), u.length = 2 ^ n →
    polarTransform n (polarTransform n u) = u ∧
      ∀ i < 2 ^ n, (polarTransform n u)[i]? =
        some (((List.range (2 ^ n)).filter fun j => decide (j &&& i = i) && u.getD j false).length % 2 == 1)) ∧
    ∀ (f : Functions) (frozen : List Bool) (mesg : Nat) (code : List SoftBit) (l : Nat), frozenOk frozen mesg = true →
      (laneOf f frozen mesg code l).word.length = 65536 ∧ (laneOf f frozen mesg code l).message.length = mesg ∧
        (laneOf f frozen mesg code l).metric = f.sclMetric code frozen l ∧
        (∀ i < 65536, (laneOf f frozen mesg code l).word[i]? =
          some (((List.range 65536).filter fun j => decide (j &&& i = i) && !frozen.getD j false &&
            f.sclBit code frozen l (messageIndex frozen j)).length % 2 == 1)) ∧
        ∀ i < 65536, frozen.getD i false = false →
          (laneOf f frozen mesg code l).message[messageIndex frozen i]? = (laneOf f frozen mesg code l).word[i]?

/-- Section 44_polar_cascl.md 5 (R281, R282): payload bit k is bit `k mod 8` of byte `k / 8`, the message bit
exclusive-or the xorshift stream's. -/
def Obligations.PayloadBitsAreDescrambledLsbFirst : Prop :=
  (∀ (p : Params) (msg : List Bool), (payloadBytes p msg).length = 5380 ∧
      ∀ k < 43040, ((payloadBytes p msg).getD (k / 8) 0).getLsbD (k % 8) =
        (msg.getD k false != ((scrambleStream p).getD (k / 8) 0).getLsbD (k % 8))) ∧
    ∀ (p : Params), ∀ t < 5380,
      (scrambleStream p)[t]? = some ((xorshift32^[t + 1] p.scrambleSeed).extractLsb' 0 8)

/-- Sections 30_encoding.md 4 (R110) and 60_exceptions.md 2 (R410): bit 31 of a unit's answer is set exactly by an
illegal operand and by an operation, other than CREATE, ECREATE and PROCESS, on an ABSENT unit; then the other bits
are 0. -/
def Obligations.ErrBitMeansIllegalOrAbsent : Prop :=
  ∀ (i : Instr) (s t : State), exec i s = .next t →
    (i.unit = .dec →
      (t.dec.rsp.getLsbD 31 = true ↔
        i.wf = false ∨ (s.dec.alive = .absent ∧ i ∈ [Instr.destroy, .rate, .cached, .fetch])) ∧
      (t.dec.rsp.getLsbD 31 = true → t.dec.rsp = 0x80000000#32)) ∧
      (i.unit = .ers →
        (t.ers.rsp.getLsbD 31 = true ↔ i.wf = false ∨ (s.ers.alive = .absent ∧ i ≠ .ecreate)) ∧
        (t.ers.rsp.getLsbD 31 = true → t.ers.rsp = 0x80000000#32))

/-- Section 60_exceptions.md 2 (R411), with R72, R76, R86 and U6: which operation refuses and why; PROCESS refuses
overlapping buffers; PROCESS, CACHED and FETCH refuse a buffer that has not its length; CACHED and FETCH refuse outside
their windows, and a second FETCH for one burst refuses. A ring read outside needs a detector without P6,
which the model asks of every live unit by its own choice (log entry 54); that only RECOVER refuses a reducible `GF_POLY`
and only FETCH a frozen table with a wrong count is its choice too (log entries 61 and 62). -/
def Obligations.RefusalsAreTheListedOnes : Prop :=
  (∀ (i : Instr) (s : State) (r : Refusal), exec i s = .refused r →
      match i with
      | .create _ | .destroy | .rate | .ecreate | .edestroy => False
      | .process sel => s.dec.alive = .created ∧ sel.toNat ≤ 4 ∧
          ((r = .buffersOverlap ∧ processBuffersOverlap s) ∨
            (∃ sp n, r = .bufferWrongLength sp ∧ (sp, n) ∈ processTable s.dec.rate sel ∧ s.bufs.lenOf sp ≠ n) ∨
            (r = .ringReadOutside ∧ (s.dec.Live → ¬ Functions.P6 Config.functions)))
      | .cached => (r = .cachedNothing ∧ s.dec.cachedAny = false) ∨
          (r = .bufferWrongLength (.byte .call9) ∧ s.bufs.call9.len ≠ 9)
      | .fetch => (r = .noPayload ∧ s.dec.payloadReady = false) ∨
          (r = .frozenTableCount ∧
            frozenOk (Params.frozen s.params s.dec.mode.frozenSel) s.dec.mode.mesgBits = false) ∨
          (r = .bufferWrongLength (.byte .payload) ∧ s.bufs.payload.len ≠ 5380)
      | .chunk _ _ => r = .bufferTooShort (.byte .chunkin) ∧ s.bufs.chunkin.len < s.params.chunkHdr + 5376
      | .recover count total => countLegal count = true ∧ recoverRefusal s total.toNat count.toNat = some r) ∧
    (∀ s : State, s.dec.alive = .created → s.dec.cachedAny = false → exec .cached s = .refused .cachedNothing) ∧
    (∀ s : State, s.dec.alive = .created → s.dec.payloadReady = false → exec .fetch s = .refused .noPayload) ∧
    (∀ s t : State, s.dec.alive = .created → exec .fetch s = .next t → exec .fetch t = .refused .noPayload) ∧
    (∀ (s : State) (sel : BitVec 3), s.dec.alive = .created → sel.toNat ≤ 4 → processBuffersOverlap s →
      exec (.process sel) s = .refused .buffersOverlap) ∧
    (∀ (s : State) (sel : BitVec 3) (sp : Space) (n : Nat), s.dec.alive = .created → sel.toNat ≤ 4 →
      ¬ processBuffersOverlap s → (sp, n) ∈ processTable s.dec.rate sel → s.bufs.lenOf sp ≠ n →
      ∃ sp', exec (.process sel) s = .refused (.bufferWrongLength sp')) ∧
    (∀ s : State, s.dec.alive = .created → s.dec.cachedAny = true → s.bufs.call9.len ≠ 9 →
      exec .cached s = .refused (.bufferWrongLength (.byte .call9))) ∧
    ∀ s : State, s.dec.alive = .created → s.dec.payloadReady = true →
      frozenOk (Params.frozen s.params s.dec.mode.frozenSel) s.dec.mode.mesgBits = true →
      s.bufs.payload.len ≠ 5380 → exec .fetch s = .refused (.bufferWrongLength (.byte .payload))

/-- Section 10_state.md 2 (R36): `payload_ready` is set only by the DONE transition, and cleared only by the next SYNC
transition, by FETCH, by CREATE and by DESTROY. -/
def Obligations.PayloadReadyIsSetByDoneOnly : Prop :=
  (∀ (i : Instr) (s t : State), exec i s = .next t → s.dec.payloadReady = false → t.dec.payloadReady = true →
      (∃ ch, i = .process ch) ∧ s.dec.alive = .created ∧ s.dec.fsm = .synced ∧ t.dec.fsm = .done ∧ t.dec.rsp = 3) ∧
    ∀ (i : Instr) (s t : State), exec i s = .next t → s.dec.payloadReady = true → t.dec.payloadReady = false →
      i = .fetch ∨ i = .destroy ∨ (∃ sel, i = .create sel) ∨
        ((∃ ch, i = .process ch) ∧ t.dec.fsm = .synced ∧ t.dec.rsp = 2)

/-- Section 20_memory.md 5 (R83): no operation of one unit reads or changes the other unit or its buffers. That a write
reaches no other space even where HOST bound both to the same storage is the model's choice (log entry 57). -/
def Obligations.UnitsShareNothing : Prop :=
  (∀ (i : Instr) (s t : State) (e : Ers) (chunkin out : Buffer 8), i.unit = .dec → exec i s = .next t →
      t.ers = s.ers ∧ t.bufs.chunkin = s.bufs.chunkin ∧ t.bufs.out = s.bufs.out ∧
        exec i { s with ers := e, bufs := { s.bufs with chunkin := chunkin, out := out } } =
          .next { t with ers := e, bufs := { t.bufs with chunkin := chunkin, out := out } }) ∧
    ∀ (i : Instr) (s t : State) (d : Dec) (b : Buffers), i.unit = .ers → exec i s = .next t →
      t.dec = s.dec ∧ t.bufs = { s.bufs with out := t.bufs.out } ∧
        exec i { s with dec := d, bufs := { b with chunkin := s.bufs.chunkin, out := s.bufs.out } } =
          .next { t with dec := d, bufs := { b with chunkin := s.bufs.chunkin, out := t.bufs.out } }

/-- Section 20_memory.md 6 (R85), the column "writes": an operation changes no element of any space outside the range
the table gives it, and a PROCESS that answers HEAP changes none. -/
def Obligations.OperationsWriteOnlyTheirRanges : Prop :=
  (∀ (i : Instr) (s t : State), exec i s = .next t → s.bufs.SameFrom t.bufs (writeRange i)) ∧
    ∀ (ch : BitVec 3) (s t : State), s.dec.alive = .absent → exec (.process ch) s = .next t → t.bufs = s.bufs

/-- Section 20_memory.md 3 (R78): RATE, CACHED and CHUNK with the same operands, done a second time, change nothing
more. -/
def Obligations.RateCachedAndChunkAreRepeatable : Prop :=
  ∀ (i : Instr) (s t : State),
    (i = .rate ∨ i = .cached ∨ ∃ idx ident, i = .chunk idx ident) → s.bufs.wf = true →
    exec i s = .next t → exec i t = .next t

/-! ### PROCESS: samples and ring (40, 10_state.md) -/

/-- Rule R23: each PROCESS advances `n_w` by exactly `L_ext`, and nothing else advances it. -/
def Obligations.OnlyProcessAdvancesTheSampleCounter : Prop :=
  ∀ (i : Instr) (s t : State), s.dec.alive = .created → i ≠ .destroy → exec i s = .next t →
    t.dec.nW = s.dec.nW +
      match i with
      | .process ch => if ch.toNat ≤ 4 then Rate.lExt s.dec.rate else 0
      | _ => 0

/-- Sections 10_state.md 3 (R30) and 41_burst_correlator.md 3 (R155, R158): after an append, `ring_at(n_w - k)` is the
sample written k steps ago for k of 1 to `RING_CAP`, and every other read is refused; then the correlator takes one step
on its own state, the ring and `n_w`, whatever `FSM`, the mode and the channel are: a report sets `symbol_pos_abs`,
`cfo_rad` and `det_pending`, a step without one leaves them, and nothing but these and `corr_state` changes. -/
def Obligations.RingReturnsTheSampleWrittenKStepsAgo : Prop :=
  (∀ (f : Functions) (p : Params) (ch : Channel) (d : Dec) (fr : Frame) (b : Dec) (z : Cplx) (cs : List Word),
    d.condition f p ch fr = (b, z) →
    (f.detect.step d.rate d.corrState (b.append z).ring (d.nW + 1) = (cs, none) →
      d.sampleStep f p ch fr = { b.append z with corrState := cs }) ∧
    ∀ pos cfo, f.detect.step d.rate d.corrState (b.append z).ring (d.nW + 1) = (cs, some (pos, cfo)) →
      d.sampleStep f p ch fr =
        { b.append z with corrState := cs, symbolPosAbs := pos, cfoRad := cfo, detPending := true }) ∧
  ∀ (d : Dec) (z : Cplx), d.ring.length = Rate.ringCap d.rate →
    (d.append z).nW = d.nW + 1 ∧ (d.append z).ring.length = Rate.ringCap d.rate ∧
      (d.append z).ringAt (d.nW : Int) = some z ∧
      (∀ k : Nat, 1 ≤ k → k < Rate.ringCap d.rate →
        (d.append z).ringAt ((d.nW : Int) - k) = d.ringAt ((d.nW : Int) - k) ∧
          (d.ringAt ((d.nW : Int) - k)).isSome = true) ∧
      ∀ n : Int, n ≤ (d.nW : Int) - Rate.ringCap d.rate ∨ (d.nW : Int) < n → (d.append z).ringAt n = none

/-- Sections 40_sample_conditioner.md (R130 to R136): in channel 4 the frames of a block reach the ring in index order
as `(L + i·R)/32768`, and the filters' state is neither read nor written. In channels 0 to 3 a frame goes through the DC
blocker, whose output is shifted into the delay line, and the sample `(h[D], Σ HILBERT_TAPS[k]·h[k])` is appended; the
filters' state goes on from frame to frame and from block to block. The DC blocker's equation with one state and four
open coefficients, and the rounding of the products before the sum, are the model's (log entries 20 and 21). -/
def Obligations.IqFramesReachTheRingInOrder : Prop :=
  (∀ (f : Functions) (p : Params) (ch : Channel) (d : Dec) (fr : Frame) (k : DcCoef) (taps h : List F32) (x : F32),
    ch ≠ .iq → d.ring.length = Rate.ringCap d.rate → k = PerRate.get p.dcFilter d.rate →
    taps = PerRate.get p.hilbertTaps d.rate → x = channelScalar f.num ch fr →
    h = (F32.add f.num (F32.mul f.num k.c d.dcState) (F32.mul f.num k.d x) :: d.hilbert).take
      (Rate.hilbertLen d.rate) →
    (d.sampleStep f p ch fr).nW = d.nW + 1 ∧ (d.sampleStep f p ch fr).hilbert = h ∧
      (d.sampleStep f p ch fr).dcState = F32.add f.num (F32.mul f.num k.a d.dcState) (F32.mul f.num k.b x) ∧
      (d.sampleStep f p ch fr).ringAt (d.nW : Int) = some
        { re := h.getD ((Rate.hilbertLen d.rate - 1) / 2) 0
          im := F32.sum f.num ((List.range (Rate.hilbertLen d.rate)).map fun t =>
            F32.mul f.num (taps.getD t 0) (h.getD t 0)) }) ∧
  (∀ (f : Functions) (p : Params) (ch : Channel) (d : Dec) (fr : Frame) (block next : List Frame),
    d.sampleLoop f p ch (fr :: block ++ next) =
      ((d.sampleStep f p ch fr).sampleLoop f p ch block).sampleLoop f p ch next) ∧
  ∀ (f : Functions) (p : Params) (d : Dec) (frames : List Frame),
    d.ring.length = Rate.ringCap d.rate → frames.length ≤ Rate.ringCap d.rate →
    (d.sampleLoop f p .iq frames).nW = d.nW + frames.length ∧
      (d.sampleLoop f p .iq frames).dcState = d.dcState ∧ (d.sampleLoop f p .iq frames).hilbert = d.hilbert ∧
      ∀ (j : Nat) fr, frames[j]? = some fr →
        (d.sampleLoop f p .iq frames).ringAt ((d.nW : Int) + j) = some (channelPair f.num fr)

/-- Rule R131: the channel select of frame f of AUDIO, exact in binary32 whatever `NUM` is. -/
def Obligations.ChannelSelectIsExact : Prop :=
  ∀ (num : Numerics) (audio : Buffer 16) (f : Nat),
    let a (k : Nat) : Rat := ((audio.read k).toInt : Rat)
    F32.toRat? (channelScalar num .mono (frameAt audio .mono f)) = some (a f / 32768) ∧
      F32.toRat? (channelScalar num .left (frameAt audio .left f)) = some (a (2 * f) / 32768) ∧
      F32.toRat? (channelScalar num .right (frameAt audio .right f)) = some (a (2 * f + 1) / 32768) ∧
      F32.toRat? (channelScalar num .sum (frameAt audio .sum f)) = some ((a (2 * f) + a (2 * f + 1)) / 65536) ∧
      F32.toRat? (channelPair num (frameAt audio .iq f)).re = some (a (2 * f) / 32768) ∧
      F32.toRat? (channelPair num (frameAt audio .iq f)).im = some (a (2 * f + 1) / 32768)

/-- Section 40_sample_conditioner.md (R138): with zero filter state and finite coefficients, frames of zeros append
samples (0, 0) and leave the filter state zero, in every channel. That an exact zero is +0 is the model's (log entry
14). -/
def Obligations.SilenceStaysSilent : Prop :=
  ∀ (f : Functions) (p : Params) (ch : Channel) (d : Dec) (n : Nat),
    (∀ x ∈ [(PerRate.get p.dcFilter d.rate).a, (PerRate.get p.dcFilter d.rate).b, (PerRate.get p.dcFilter d.rate).c,
      (PerRate.get p.dcFilter d.rate).d], F32.isFinite x = true) →
    (∀ x ∈ PerRate.get p.hilbertTaps d.rate, F32.isFinite x = true) →
    d.dcState = 0 → d.hilbert = List.replicate (Rate.hilbertLen d.rate) 0 →
    d.ring = List.replicate (Rate.ringCap d.rate) Cplx.zero →
    (d.sampleLoop f p ch (List.replicate n { left := 0, right := 0 })).dcState = 0 ∧
      (d.sampleLoop f p ch (List.replicate n { left := 0, right := 0 })).hilbert = d.hilbert ∧
      (d.sampleLoop f p ch (List.replicate n { left := 0, right := 0 })).ring = d.ring ∧
      (d.sampleLoop f p ch (List.replicate n { left := 0, right := 0 })).nW = d.nW + n

/-- Section 00_scope.md 6 (R17): the differential demapper, its erasures, its bound and its zeros (a zero symbol for a
finite reference). The ratio is computed by the model's formulas (log entry 16); that an exact zero is +0, on which the
last clause rests, is the model's choice (log entry 14), and so are that results not finite are an open function (log
entry 15) and that a ratio whose `|q|²` is a NaN is erased, on which the bound rests (log entry 56). -/
def Obligations.DemodOrEraseFollowsItsSteps : Prop :=
  ∀ (num : Numerics) (curr prev : Cplx),
    (Cplx.hasNaN curr = true ∨ Cplx.hasNaN prev = true → demodOrErase num curr prev = Cplx.zero) ∧
      (F32.le (Cplx.norm num prev) 0 = true → demodOrErase num curr prev = Cplx.zero) ∧
      (F32.lt F32.four (Cplx.norm num (Cplx.div num curr prev)) = true → demodOrErase num curr prev = Cplx.zero) ∧
      (Cplx.hasNaN (Cplx.div num curr prev) = true → demodOrErase num curr prev = Cplx.zero) ∧
      (Cplx.hasNaN curr = false → Cplx.hasNaN prev = false → F32.le (Cplx.norm num prev) 0 = false →
        Cplx.hasNaN (Cplx.div num curr prev) = false →
        F32.le (Cplx.norm num (Cplx.div num curr prev)) F32.four = true →
        demodOrErase num curr prev = Cplx.div num curr prev) ∧
      F32.le (Cplx.norm num (demodOrErase num curr prev)) F32.four = true ∧
      demodOrErase num curr Cplx.zero = Cplx.zero ∧
      (F32.isFinite prev.re = true → F32.isFinite prev.im = true → F32.isFinite (Cplx.norm num prev) = true →
        demodOrErase num Cplx.zero prev = Cplx.zero)

/-- Section 43_symbol_demodulator.md (R221, R225, R227 to R231): the median of q numbers is the element of rank
`floor(q/2)` in increasing order; the Theil–Sen line is the median of the pairwise slopes and the median of the residuals;
the compensated carriers of a data symbol and the precision, step by step. That a phase is rounded to one float32 for
each sample and each carrier, and the order of rounding in the line and in the quotient of the sums, are the model's (log
entries 46, 60 and 27). -/
def Obligations.MedianHasTheMiddleRank : Prop :=
  (∀ xs : List F32, xs ≠ [] → (∀ x ∈ xs, F32.isNaN x = false) →
    median xs ∈ xs ∧ (xs.filter fun x => F32.lt x (median xs)).length ≤ xs.length / 2 ∧
      xs.length / 2 < (xs.filter fun x => F32.le x (median xs)).length) ∧
  (∀ num : Numerics, theilSen num [] = (0, 0) ∧ (∀ q, theilSen num [q] = (0, q.2)) ∧
    ∀ pts : List (Int × F32), 2 ≤ pts.length →
      let x (j : Nat) : Int := (pts.getD j (0, 0)).1
      let y (j : Nat) : F32 := (pts.getD j (0, 0)).2
      let slope := median ((List.range pts.length).flatMap fun a =>
        ((List.range pts.length).filter fun b => decide (a < b)).map fun b =>
          F32.div num (F32.sub num (y b) (y a)) (F32.ofInt num (x b - x a)))
      theilSen num pts = (slope, median ((List.range pts.length).map fun j =>
        F32.sub num (y j) (F32.mul num slope (F32.ofInt num (x j)))))) ∧
  (∀ (f : Functions) (p : Params) (m : ModeRegs) (cons : List Cplx),
    let ideal (z : Cplx) : Cplx := (Params.psk p m.modBits).points.getD (f.pskDecide m.modBits z) Cplx.zero
    precision f p m cons =
      F32.div f.num
        (F32.mul f.num (F32.ofInt f.num 2) (F32.sum f.num (cons.map fun z => Cplx.norm f.num (ideal z))))
        (F32.sum f.num (cons.map fun z => Cplx.norm f.num (Cplx.sub f.num z (ideal z))))) ∧
  ∀ (f : Functions) (p : Params) (d : Dec) (xs : List Cplx),
    let ideal (z : Cplx) : Cplx := (Params.psk p d.mode.modBits).points.getD (f.pskDecide d.mode.modBits z) Cplx.zero
    let carriers := List.range d.mode.carrierCount
    let index (k : Nat) : Int := d.mode.carrierOffset + (k : Int)
    let tdom := xs.mapIdx fun n z =>
      Cplx.mul f.num z (f.num.cexp (F32.neg (F32.mul f.num d.cfoBurst (F32.ofInt f.num n))))
    let cons (k : Nat) : Cplx := demodOrErase f.num
      ((transform f.num tdom).getD ((index k + Rate.lSym d.rate) % (Rate.lSym d.rate : Int)).toNat Cplx.zero)
      (d.prev.getD k Cplx.zero)
    let line := theilSen f.num ((carriers.filter fun k => !Cplx.isZero (cons k)).map fun k =>
      (index k, f.num.arg (Cplx.mul f.num (cons k) (Cplx.conj (ideal (cons k))))))
    (d.demodulate f p xs).consPts = carriers.map fun k =>
      if Cplx.isZero (cons k) then cons k
      else Cplx.mul f.num (cons k)
        (f.num.cexp (F32.neg (F32.add f.num line.2 (F32.mul f.num line.1 (F32.ofInt f.num (index k))))))

/-! ### PROCESS: preamble, burst machine, data symbols (42, 43, 47) -/

/-- Rule R194: the fields of the metadata word. -/
def Obligations.MetadataWordSplitsIntoItsFields : Prop :=
  ∀ cw : BitVec 255,
    (wordMd cw).toNat = ((List.range 55).map fun k => (cw.getLsbD k).toNat * 2 ^ k).sum ∧
      (wordMode cw).toNat = (wordMd cw).toNat % 256 ∧ (wordCall cw).toNat = (wordMd cw).toNat / 256 ∧
      (wordRx cw).toNat = ((List.range 16).map fun k => (cw.getLsbD (55 + k)).toNat * 2 ^ k).sum ∧
      (wordProtected cw).toNat = (wordMd cw).toNat * 2 ^ 9

/-- Rule R203: OSD failure gives FAIL, then a CRC mismatch gives FAIL, then a range gives NOPE, else OKAY. The CRC is
that of rule R196: polynomial 0xA8F4, initial all-ones, over the 64 bits of `md << 9` from bit 0 to bit 63, in the shift
direction `CRC_CONV.preamble`. -/
def Obligations.PreambleChecksRunInOrder : Prop :=
  ∀ p : Params, classify p none = .fail ∧
    ∀ cw : BitVec 255,
      let v : BitVec 64 := (cw.extractLsb' 0 55).zeroExtend 64 <<< 9
      let crc : BitVec 16 := crcBitsOf p.crcConv.preamble 0xA8F4#16 0xFFFF#16 ((List.range 64).map v.getLsbD)
      (crc ≠ wordRx cw → classify p (some cw) = .fail) ∧
      (crc = wordRx cw →
        ¬ ((6 ≤ (wordMode cw).toNat ∧ (wordMode cw).toNat ≤ 13) ∧
          1 ≤ (wordCall cw).toNat ∧ (wordCall cw).toNat < 129961739795077) →
        classify p (some cw) = .nope (wordMode cw) (wordCall cw)) ∧
      (crc = wordRx cw →
        6 ≤ (wordMode cw).toNat → (wordMode cw).toNat ≤ 13 →
        1 ≤ (wordCall cw).toNat → (wordCall cw).toNat < 129961739795077 →
        classify p (some cw) = .okay (wordMode cw) (wordCall cw))

/-- Section 42_preamble_bch_osd.md 2 (R189, R190): with an admissible generator the systematic word is a codeword, and
its first 71 positions are the message. -/
def Obligations.BchEncodingGivesCodewords : Prop :=
  ∀ (p : Params) (msg : BitVec 71), bchGenOk p.bchGen = true →
    bchIsCodeword p (bchEncode p msg) = true ∧ ∀ j < 71, (bchEncode p msg).getLsbD j = msg.getLsbD j

/-- Rule R373 with R200: a detection outside a burst whose preamble is accepted makes the SYNC transition; what it
loads, and that every other register but the scratch arrays and `det_pending` stays. -/
def Obligations.SyncLoadsTheBurstRegisters : Prop :=
  ∀ (f : Functions) (p : Params) (d : Dec) (tdom : List Cplx) (mode : BitVec 8) (call : BitVec 47), d.fsm ≠ .synced →
    d.detPending = true → d.metadataSamples f = some tdom →
    preambleResult f p (Rate.lSym d.rate) tdom = .okay mode call →
    ∃ row turn, modeTable mode.toNat = some row ∧ d.machineStep f p = .ok turn ∧ turn.status = .sync ∧
      turn.points = none ∧ turn.dec.prev.length = row.carrierCount ∧
      (∀ k < row.carrierCount, turn.dec.prev[k]? =
        some ((transform f.num tdom).getD (binOf (Rate.lSym d.rate) (row.carrierOffset + (k : Int))) Cplx.zero)) ∧
      turn.dec = { d with
        tdom := tdom, fdom := turn.dec.fdom, detPending := false, cachedMode := mode, cachedCall := call
        cachedAny := true, mode := row, symbolPositionAbs := d.symbolPosAbs + Rate.lExt d.rate
        cfoBurst := d.cfoRad, prev := turn.dec.prev, symbolNumber := 0, payloadReady := false, fsm := .synced }

/-- Rules R376, R201, R202: a detection outside a burst whose preamble is rejected: FAIL writes nothing but the
scratch arrays and `det_pending`, NOPE also the cached registers, an invalid call is cleared, and `FSM` keeps its
value. -/
def Obligations.RejectedPreamblesKeepTheBurstState : Prop :=
  ∀ (f : Functions) (p : Params) (d : Dec) (tdom : List Cplx), d.fsm ≠ .synced → d.detPending = true →
    d.metadataSamples f = some tdom →
    ∃ fdom, (preambleResult f p (Rate.lSym d.rate) tdom = .fail →
        d.machineStep f p = .ok
          { dec := { d with tdom := tdom, fdom := fdom, detPending := false }, status := .fail, points := none }) ∧
      ∀ mode call, preambleResult f p (Rate.lSym d.rate) tdom = .nope mode call →
        d.machineStep f p = .ok
          { dec := { d with
              tdom := tdom, fdom := fdom, detPending := false, cachedMode := mode
              cachedCall := if 1 ≤ call.toNat ∧ call.toNat < 129961739795077 then call else 0
              cachedAny := true }
            status := .nope, points := none }

/-- Section 47_control_ops.md 3 (R371) with `RESYNC = ignore`: the table of the burst state machine; and the preamble
decoder's input, section 42_preamble_bch_osd.md 1 (R181 to R187): the metadata samples from the ring, rotated back by
`cfo_rad`, their transform, the 255 carriers −127 .. 127 multiplied by the MLS mask, each demapped against the carrier one
lower (−128 unmasked), and the real parts as the soft bits of the OSD; and the mode table (R40).
That the phase is rounded to one float32 for each sample is the model's (log entry 46). -/
def Obligations.BurstMachineFollowsItsTable : Prop :=
  (((List.range 8).map fun k => (modeTable (6 + k)).map fun r => (r.operMode, r.carrierCount, r.symbolCount, r.modBits,
      r.consBits, r.mesgBits, r.frozenSel, r.carrierOffset)) =
    [some (6, 432, 50, 3, 64800, 43808, .t64800, -216), some (7, 400, 54, 3, 64800, 43808, .t64800, -200),
      some (8, 400, 81, 2, 64800, 43808, .t64800, -200), some (9, 360, 90, 2, 64800, 43808, .t64800, -180),
      some (10, 512, 42, 3, 64512, 44096, .t64512, -256), some (11, 384, 56, 3, 64512, 44096, .t64512, -192),
      some (12, 384, 84, 2, 64512, 44096, .t64512, -192), some (13, 256, 126, 2, 64512, 44096, .t64512, -128)] ∧
    ∀ m, m < 6 ∨ 13 < m → modeTable m = none) ∧
  (mlsMask.length = 255 ∧ mlsMask.take 8 = [false, false, false, false, false, false, false, true] ∧
    ∀ k < 247, mlsMask.getD (k + 8) false = (((mlsMask.getD (k + 5) false ^^ mlsMask.getD (k + 3) false) ^^
      mlsMask.getD (k + 1) false) ^^ mlsMask.getD k false)) ∧
  (∀ (f : Functions) (p : Params) (d : Dec) (x : Nat → Cplx),
    (∀ n < Rate.lSym d.rate, d.ringAt (d.symbolPosAbs + Rate.lExt d.rate + (n : Int)) = some (x n)) →
    let tdom := (List.range (Rate.lSym d.rate)).map fun n =>
      Cplx.mul f.num (x n) (f.num.cexp (F32.neg (F32.mul f.num d.cfoRad (F32.ofInt f.num n))))
    let carrier (c : Int) : Cplx :=
      (transform f.num tdom).getD ((c + Rate.lSym d.rate) % (Rate.lSym d.rate : Int)).toNat Cplx.zero
    let masked (j : Nat) : Cplx :=
      if mlsMask.getD j false then Cplx.neg (carrier (-127 + (j : Int))) else carrier (-127 + (j : Int))
    let below (j : Nat) : Cplx := if j = 0 then carrier (-128) else masked (j - 1)
    d.metadataSamples f = some tdom ∧
      preambleResult f p (Rate.lSym d.rate) tdom =
        classify p (f.osd ((List.range 71).map fun k => bchEncode p ((1 : BitVec 71) <<< k))
          ((List.range 255).map fun j => (demodOrErase f.num (masked j) (below j)).re))) ∧
  ∀ (f : Functions) (p : Params) (d : Dec), p.resync = .ignore →
    (d.fsm ≠ .synced → d.detPending = false →
      d.machineStep f p = .ok { dec := d, status := .okay, points := none }) ∧
    (∀ tdom, d.fsm ≠ .synced → d.detPending = true → d.metadataSamples f = some tdom →
      ∃ turn, d.machineStep f p = .ok turn ∧ turn.dec.detPending = false ∧
        match preambleResult f p (Rate.lSym d.rate) tdom with
        | .okay _ _ => turn.status = .sync ∧ turn.dec.fsm = .synced
        | .nope _ _ => turn.status = .nope ∧ turn.dec.fsm = d.fsm
        | .fail => turn.status = .fail ∧ turn.dec.fsm = d.fsm) ∧
    ∀ xs, d.fsm = .synced → d.window d.dataBase = some xs →
      ∃ turn, d.machineStep f p = .ok turn ∧ turn.dec.detPending = false ∧
        turn.dec.symbolNumber = d.symbolNumber + 1 ∧
        if d.symbolNumber + 1 < d.mode.symbolCount then
          turn.status = .okay ∧ turn.dec.fsm = .synced ∧ turn.dec.payloadReady = d.payloadReady
        else turn.status = .done ∧ turn.dec.fsm = .done ∧ turn.dec.payloadReady = true

/-- Rule R377: a detection while SYNCED is dropped under `ignore`; under `restart` the machine acts on it as it
does in IDLE: the preamble decoder runs, OKAY starts the new burst, NOPE or FAIL leaves IDLE with no data symbol. -/
def Obligations.DetectionInABurstFollowsResync : Prop :=
  ∀ (f : Functions) (p : Params) (d : Dec), d.fsm = .synced → d.detPending = true →
    (p.resync = .ignore → d.machineStep f p = Dec.machineStep f p { d with detPending := false }) ∧
    (p.resync = .restart → d.machineStep f p = Dec.machineStep f p { d with fsm := .idle }) ∧
    ∀ tdom, p.resync = .restart → d.metadataSamples f = some tdom →
      ∃ turn, d.machineStep f p = .ok turn ∧ turn.dec.detPending = false ∧ turn.points = none ∧
        turn.dec.code = d.code ∧
        match preambleResult f p (Rate.lSym d.rate) tdom with
        | .okay _ _ => turn.status = .sync ∧ turn.dec.fsm = .synced ∧ turn.dec.symbolNumber = 0
        | .nope _ _ => turn.status = .nope ∧ turn.dec.fsm = .idle ∧ turn.dec.symbolNumber = d.symbolNumber
        | .fail => turn.status = .fail ∧ turn.dec.fsm = .idle ∧ turn.dec.symbolNumber = d.symbolNumber

/-- Rules R237, R238: where a data symbol's soft bits go, that no other entry changes, that the symbols of a
burst fill `code[0 .. cons_bits)`, and what `prev` and `symbol_number` become. How the carriers and the precision come
about is stated in MedianHasTheMiddleRank. -/
def Obligations.SoftBitsFillTheCodeVector : Prop :=
  ∀ (f : Functions) (p : Params) (d : Dec) (xs : List Cplx), d.mode.IsRow → d.code.length = codeLen →
    d.symbolNumber < d.mode.symbolCount →
    (d.demodulate f p xs).symbolNumber = d.symbolNumber + 1 ∧
      (∀ k < d.mode.carrierCount, (d.demodulate f p xs).prev[k]? =
        some ((transform f.num (derotate f.num d.cfoBurst xs)).getD
          (binOf (Rate.lSym d.rate) (d.mode.carrierOffset + (k : Int))) Cplx.zero)) ∧
      (d.demodulate f p xs).consPts.length = d.mode.carrierCount ∧
      (∀ k < d.mode.carrierCount, ∀ b < d.mode.modBits,
        (d.demodulate f p xs).code[d.mode.modBits * d.symbolNumber * d.mode.carrierCount + d.mode.modBits * k + b]? =
          some (toSoft f.num p.soft
            (F32.mul f.num (precision f p d.mode (d.demodulate f p xs).consPts)
              (f.pskSoft d.mode.modBits ((d.demodulate f p xs).consPts.getD k Cplx.zero) b)))) ∧
      (∀ n, n < d.mode.modBits * d.symbolNumber * d.mode.carrierCount ∨
          d.mode.modBits * (d.symbolNumber + 1) * d.mode.carrierCount ≤ n →
        (d.demodulate f p xs).code[n]? = d.code[n]?) ∧
      d.mode.modBits * d.mode.symbolCount * d.mode.carrierCount = d.mode.consBits

/-- Sections 47_control_ops.md 1 and 3 (R363, R374, R375, R159): in a burst, under `RESYNC = ignore`, PROCESS
completes, demodulates one data symbol, answers OKAY or DONE, and the next symbol lies at the same place of the ring.
-/
def Obligations.ProcessInABurstTakesOneSymbol : Prop :=
  ∀ (s : State) (sel : BitVec 3) (ch : Channel), Channel.ofSel sel = some ch → s.dec.alive = .created → s.dec.Live →
    s.dec.fsm = .synced → s.params.resync = .ignore → s.overlaps = [] →
    (∀ need ∈ processLengths s.dec.rate ch, s.bufs.lenOf need.1 = need.2) →
    ∃ t, exec (.process sel) s = .next t ∧ t.dec.nW = s.dec.nW + Rate.lExt s.dec.rate ∧
      t.dec.symbolNumber = s.dec.symbolNumber + 1 ∧ t.dec.mode = s.dec.mode ∧
      t.dec.dataBase - (t.dec.nW : Int) = s.dec.dataBase - (s.dec.nW : Int) ∧
      if s.dec.symbolNumber + 1 < s.dec.mode.symbolCount then
        t.dec.rsp = 0 ∧ t.dec.fsm = .synced ∧ t.dec.payloadReady = s.dec.payloadReady
      else t.dec.rsp = 3 ∧ t.dec.fsm = .done ∧ t.dec.payloadReady = true

/-- Sections 47_control_ops.md 1 (R363), 41_burst_correlator.md 3 (P6 of R157) and 60_exceptions.md 1 (R400): with a
detector that has P6, PROCESS on a live unit with its buffers bound always completes and answers one of the five
statuses other than HEAP; with no detection outside a burst it answers OKAY and leaves `FSM`. That P6 is asked of every
live unit is the model's choice (log entry 54). -/
def Obligations.ProcessCompletesWithP6 : Prop :=
  (∀ (sel : BitVec 3) (ch : Channel) (s : State), Channel.ofSel sel = some ch → s.dec.alive = .created →
      exec (.process sel) s = processWith Config.functions ch s) ∧
    ∀ (f : Functions) (ch : Channel) (s : State), Functions.P6 f → s.dec.Live → s.overlaps = [] →
      (∀ need ∈ processLengths s.dec.rate ch, s.bufs.lenOf need.1 = need.2) →
      ∃ t, processWith f ch s = .next t ∧ t.dec.rsp.toNat ∈ [0, 1, 2, 3, 5] ∧
        (s.dec.fsm ≠ .synced → s.dec.reportCount f s.params ch (processFrames ch s) = 0 →
          t.dec.rsp = 0 ∧ t.dec.fsm = s.dec.fsm)

/-- Sections 47_control_ops.md 1 (R363), 40_sample_conditioner.md (R135) and 41_burst_correlator.md 3 (R158): what
PROCESS leaves unchanged; with no report of the correlator `symbol_pos_abs` and `cfo_rad` too. -/
def Obligations.ProcessKeepsWhatItDoesNotWrite : Prop :=
  (∀ (f : Functions) (ch : Channel) (s t : State), processWith f ch s = .next t →
    s.dec.reportCount f s.params ch (processFrames ch s) = 0 →
    t.dec.symbolPosAbs = s.dec.symbolPosAbs ∧ t.dec.cfoRad = s.dec.cfoRad) ∧
  ∀ (s t : State) (sel : BitVec 3), exec (.process sel) s = .next t →
    t.ers = s.ers ∧ t.params = s.params ∧ t.host = s.host ∧ t.allocOk = s.allocOk ∧ t.overlaps = s.overlaps ∧
      t.bufs.audio = s.bufs.audio ∧ t.dec.alive = s.dec.alive ∧ t.dec.rate = s.dec.rate ∧
      t.dec.cfoReg = s.dec.cfoReg ∧ t.dec.modeReg = s.dec.modeReg ∧
      (sel = 4 → t.dec.dcState = s.dec.dcState ∧ t.dec.hilbert = s.dec.hilbert) ∧
      (s.dec.fsm ≠ .synced → t.dec.code = s.dec.code ∧ t.dec.consPts = s.dec.consPts) ∧
      (s.dec.fsm = .synced → s.params.resync = .ignore →
        t.dec.mode = s.dec.mode ∧ t.dec.symbolPositionAbs = s.dec.symbolPositionAbs ∧
          t.dec.cfoBurst = s.dec.cfoBurst ∧ t.dec.cachedMode = s.dec.cachedMode ∧
          t.dec.cachedCall = s.dec.cachedCall ∧ t.dec.cachedAny = s.dec.cachedAny)

/-- Section 20_memory.md 6 (R85), the column "reads" for PROCESS: with other content in the buffers, but the same
samples in AUDIO and the same first 255 rows in SGRAM, PROCESS leaves the same unit and draws the same four pictures. -/
def Obligations.ProcessReadsOnlyItsFrames : Prop :=
  ∀ (f : Functions) (ch : Channel) (s t : State) (b : Buffers), processWith f ch s = .next t →
    s.bufs.wf = true → b.wf = true → (∀ sp, b.lenOf sp = s.bufs.lenOf sp) →
    (∀ k < audioLen s.dec.rate ch, b.audio.read k = s.bufs.audio.read k) →
    (∀ k < 640 * 255, b.sgram.read k = s.bufs.sgram.read k) →
    ∃ u, processWith f ch { s with bufs := b } = .next u ∧ u = { t with bufs := u.bufs } ∧
      (∀ k < 640 * 64, u.bufs.spec.read k = t.bufs.spec.read k) ∧
      (∀ k < 640 * 256, u.bufs.sgram.read k = t.bufs.sgram.read k) ∧
      (∀ k < 64 * 64, u.bufs.cons.read k = t.bufs.cons.read k) ∧
      ∀ k < 16, u.bufs.peak.read k = t.bufs.peak.read k

/-! ### PROCESS: pixel buffers (46_visualization.md) -/

/-- Section 46_visualization.md (R342 to R344): after a PROCESS, rows 1 to 255 of SGRAM are rows 0 to 254 as HOST handed
them over; row 0 is the palette of the levels, and SPEC their polyline of width one pixel on the cleared background. The
level of a column is 10·log10 of the power of one finite bin of the spectrum against a reference common to all columns,
limited to [−96, 0], and −96 without power; which bin, the 0 dB reference, the roundings and the place where a segment
changes its column are open. That the picture of the PROCESS that answers SYNC is of the newest `L_sym` samples, that a
column shows one bin, and the bound 0.02 dB on the error of a level, are the model's choices (log entry 31). -/
def Obligations.SpectrogramScrollsOneRow : Prop :=
  ∀ (f : Functions) (ch : Channel) (s t : State), s.bufs.spec.wf = true → s.bufs.sgram.wf = true →
    processWith f ch s = .next t →
    (∀ y x : Nat, 1 ≤ y → y ≤ 255 → x < 640 →
      t.bufs.sgram.read (y * 640 + x) = s.bufs.sgram.read ((y - 1) * 640 + x)) ∧
    ∃ (turn : Turn) (spectrum : List Cplx) (reference : ℝ) (level : Nat → Rat) (row split : Nat → Nat),
      processTurn f ch s = .ok turn ∧
      (turn.points.isSome = true → spectrum = t.dec.fdom) ∧
      (turn.points = none → spectrum = transform f.num (t.dec.ring.take (Rate.lSym t.dec.rate)).reverse) ∧
      0 < reference ∧
      (∀ x < 640, -96 ≤ level x ∧ level x ≤ 0 ∧ ∀ re im : Rat,
        Cplx.exact? (spectrum.getD (f.specBin spectrum.length x % spectrum.length) Cplx.zero) =
          some { re := re, im := im } →
        (re ^ 2 + im ^ 2 = 0 → level x = -96) ∧
        (re ^ 2 + im ^ 2 ≠ 0 → ∃ p : ℝ, (level x : ℝ) = max (-96) (min 0 p) ∧
          |p - 10 * Real.logb 10 (((re ^ 2 + im ^ 2 : Rat) : ℝ) / reference)| ≤ 1 / 50)) ∧
      (∀ x < 640, paletteNear (t.bufs.sgram.read x) ((level x + 96) / 96)) ∧
      (∀ x < 640, row x < 64 ∧ (row x : Rat) - 1 < 63 * (-(level x)) / 96 ∧
        63 * (-(level x)) / 96 < (row x : Rat) + 1) ∧
      (∀ x, row x ≠ row (x + 1) → split x < rowDistance (row x) (row (x + 1))) ∧
      ∀ x y : Nat, x < 640 → y < 64 →
        let lit := y = row x ∨
          (x + 1 < 640 ∧ rowBetween y (row x) (row (x + 1)) = true ∧ rowDistance y (row x) ≤ split x) ∨
          (0 < x ∧ rowBetween y (row (x - 1)) (row x) = true ∧ split (x - 1) < rowDistance y (row (x - 1)))
        (lit → t.bufs.spec.read (y * 640 + x) = 0xFFFFFFFF#32) ∧
          (¬ lit → t.bufs.spec.read (y * 640 + x) = 0#32)

/-- Section 46_visualization.md (R346): the peak meter: the level, the sticky maximum, the number of lit cells, and
the background above them. -/
def Obligations.PeakMeterShowsTheLargestSample : Prop :=
  (∀ frames : List Frame, peakOf frames ≤ 32768 ∧
      (∀ fr ∈ frames, fr.left.toInt.natAbs ≤ peakOf frames ∧ fr.right.toInt.natAbs ≤ peakOf frames) ∧
      (peakOf frames = 0 ∨
        ∃ fr ∈ frames, fr.left.toInt.natAbs = peakOf frames ∨ fr.right.toInt.natAbs = peakOf frames)) ∧
    (∀ st : PeakStyle, peakCells st 0 = 0 ∧ peakCells st 32768 = 16 ∧
      ∀ a b : Nat, a ≤ b → peakCells st a ≤ peakCells st b) ∧
    ∀ (f : Functions) (ch : Channel) (s t : State), s.bufs.peak.wf = true → processWith f ch s = .next t →
      t.dec.peakPrev = peakOf (processFrames ch s) ∧
        ∀ i < 16, t.bufs.peak.read i =
          if i < peakCells s.params.peak (max (peakOf (processFrames ch s)) s.dec.peakPrev) then
            peakColour s.params.peak i
          else 0

/-- Section 46_visualization.md (R345): a kept carrier (re, im) lights the pixel `x = (re + 2)·16`, `y = (im + 2)·16`,
taken down to integers and inside 0 .. 63; an erased one lights none; after a PROCESS that demodulated a data symbol (in
a burst, with `RESYNC` = ignore or without a detection) the pixels of CONS that some carrier lights are 0xFFFFFFFF and all
others 0. That a carrier with a part that is not finite lights none is the model's choice (log entry 51). -/
def Obligations.CarrierLightsItsConstellationPixel : Prop :=
  (∀ z : Cplx, Cplx.isZero z = true → consIndex z = none) ∧
    (∀ (z : Cplx) (re im : Rat), Cplx.isZero z = false → F32.toRat? z.re = some re → F32.toRat? z.im = some im →
      ∀ x y : Nat, x < 64 → y < 64 →
        (consIndex z = some (y * 64 + x) ↔
          (x : Rat) ≤ (re + 2) * 16 ∧ (re + 2) * 16 < x + 1 ∧ (y : Rat) ≤ (im + 2) * 16 ∧ (im + 2) * 16 < y + 1)) ∧
    ∀ (f : Functions) (ch : Channel) (s t : State), s.dec.Live → s.dec.fsm = .synced →
      (s.params.resync = .ignore ∨
        (s.dec.sampleLoop f s.params ch (processFrames ch s)).detPending = false) →
      s.bufs.cons.wf = true → processWith f ch s = .next t →
      t.dec.consPts.length = s.dec.mode.carrierCount ∧
        ∀ i < 64 * 64,
          ((∃ z ∈ t.dec.consPts, consIndex z = some i) → t.bufs.cons.read i = 0xFFFFFFFF#32) ∧
            ((∀ z ∈ t.dec.consPts, consIndex z ≠ some i) → t.bufs.cons.read i = 0#32)

/-! ### The erasure unit (45_erasure_crs.md) -/

/-- Section 45_erasure_crs.md 2 (R305, R306): CHUNK copies 5376 bytes of CHUNKIN from `CHUNK_HDR` on into its slot and
touches no other; a slot number of 12 or more gives false; a CHUNKIN that is too short is refused. That the slot number
is checked before the length, and that CHUNK does not ask for an irreducible `GF_POLY`, are the model's choices (log
entries 50 and 61). -/
def Obligations.ChunkStoresOnePayload : Prop :=
  ∀ (s : State) (idx : BitVec 4) (ident : BitVec 16), s.ers.alive = .created →
    encode (.chunk idx ident) = (0#4 ++ (ident ++ (idx ++ 0x12#8 : BitVec 12) : BitVec 28) : Word) ∧
    (12 ≤ idx.toNat → exec (.chunk idx ident) s = .next { s with ers := { s.ers with rsp := 0 } }) ∧
    (idx.toNat < 12 → s.bufs.chunkin.len < s.params.chunkHdr + 5376 →
      exec (.chunk idx ident) s = .refused (.bufferTooShort (.byte .chunkin))) ∧
    (idx.toNat < 12 → s.params.chunkHdr + 5376 ≤ s.bufs.chunkin.len →
      ∃ t, exec (.chunk idx ident) s = .next t ∧
        t = { s with ers := { s.ers with slots := t.ers.slots, rsp := 1 } } ∧
        (t.ers.slot idx.toNat).ident = ident ∧ (t.ers.slot idx.toNat).valid = true ∧
        (∀ b < 5376,
          Cells.read (t.ers.slot idx.toNat).data b = s.bufs.chunkin.read (s.params.chunkHdr + b)) ∧
        ∀ k, k ≠ idx.toNat → t.ers.slot k = s.ers.slot k)

/-- Section 45_erasure_crs.md 4 (R302, R313, R319): RECOVER on a CREATED unit is refused exactly when a precondition
fails. That equal column points are such a case, and that a reducible polynomial is refused by this operation, are the
model's choices (log entries 35 and 61). -/
def Obligations.RecoverRefusesExactlyBrokenPreconditions : Prop :=
  ∀ (s : State) (count : BitVec 4) (total : BitVec 20), s.ers.alive = .created → 1 ≤ count.toNat →
    count.toNat ≤ 12 →
    ((∃ r, exec (.recover count total) s = .refused r) ↔
      gfIrreducible s.params.gfPoly = false ∨
      (∃ a b, a < b ∧ b < count.toNat ∧ s.params.crsCol.toList.getD a 0 = s.params.crsCol.toList.getD b 0) ∨
      (∃ k < count.toNat, (s.ers.slot k).valid = false) ∨
      (∃ a b, a < b ∧ b < count.toNat ∧ (s.ers.slot a).ident = (s.ers.slot b).ident) ∨
      (∃ r < count.toNat, ∃ j < count.toNat, (s.ers.slot r).ident = s.params.crsCol.toList.getD j 0) ∨
      5376 * count.toNat < total.toNat ∨ s.bufs.out.len < total.toNat)

/-- Section 45_erasure_crs.md 4 (R310, R311, R316 to R318): RECOVER writes block after block to OUT, the low byte of each
element first, sets CRC to the CRC-32 of the bytes written (polynomial 0x8F6E37A0, initial value 0, each byte from bit 0
to bit 7), clears every `valid` flag and changes nothing else. -/
def Obligations.RecoverWritesTheBlocks : Prop :=
  ∀ (s : State) (count : BitVec 4) (total : BitVec 20), s.ers.alive = .created → 1 ≤ count.toNat →
    count.toNat ≤ 12 → recoverRefusal s total.toNat count.toNat = none → s.bufs.out.wf = true →
    ∃ t, exec (.recover count total) s = .next t ∧
      t = { s with
        bufs := { s.bufs with out := t.bufs.out }
        ers := { s.ers with crc := t.ers.crc, rsp := 0, slots := t.ers.slots } } ∧
      s.bufs.out.SameFrom t.bufs.out total.toNat ∧
      (∀ i < count.toNat, ∀ b,
        b < min ((total.toNat + count.toNat - 1) / count.toNat)
          (total.toNat - i * ((total.toNat + count.toNat - 1) / count.toNat)) →
        t.bufs.out.read (i * ((total.toNat + count.toNat - 1) / count.toNat) + b) =
          (Ers.blockElement s.params s.ers count.toNat i (b / 2)).extractLsb' (8 * (b % 2)) 8) ∧
      t.ers.crc = crcBitsOf s.params.crcConv.erasure 0x8F6E37A0#32 0#32
        ((List.range total.toNat).flatMap fun k => (List.range 8).map (t.bufs.out.read k).getLsbD) ∧
      ∀ k < 12, t.ers.slot k = { s.ers.slot k with valid := false }

/-- Sections 45_erasure_crs.md 2 to 4 (R304, R308, R309, R314): whatever blocks d the transmitter had, if slot r holds
the chunk with identifier `ident[r]` (rule R308), an element being two bytes of the slot, low byte first, RECOVER's block
i is `d[i]`, for every count of distinct identifiers that are no column points. After CHUNK has stored such chunks in slots
0 to count - 1, HOST binding CHUNKIN anew for each, RECOVER completes and the bytes of OUT are those of the blocks. -/
def Obligations.ChunkThenRecoverReconstructs : Prop :=
  (∀ (p : Params) (e : Ers) (count elem : Nat) (d : Nat → Half), gfIrreducible p.gfPoly = true → count ≤ 12 →
    (columnPoints p count).Nodup → (e.idents count).Nodup →
    (∀ x ∈ e.idents count, x ∉ columnPoints p count) →
    (∀ r < count, (Cells.read (e.slot r).data (2 * elem + 1) ++ Cells.read (e.slot r).data (2 * elem) : Half) =
      chunkElement p.gfPoly (columnPoints p count) (e.slot r).ident d) →
    ∀ i < count, e.blockElement p count i elem = d i) ∧
  ∀ (st : Nat → State) (input : Nat → Buffer 8) (ids : Nat → Half) (count : BitVec 4) (total : BitVec 20)
      (d : Nat → Nat → Half),
    let p := (st 0).params
    let cols := p.crsCol.toList.take count.toNat
    let size := (total.toNat + count.toNat - 1) / count.toNat
    1 ≤ count.toNat → count.toNat ≤ 12 → total.toNat ≤ 5376 * count.toNat → gfIrreducible p.gfPoly = true →
    cols.Nodup → ((List.range count.toNat).map ids).Nodup → (∀ r < count.toNat, ids r ∉ cols) →
    (st 0).ers.alive = .created → total.toNat ≤ (st 0).bufs.out.len → (st 0).bufs.out.wf = true →
    (∀ r < count.toNat,
      exec (.chunk (BitVec.ofNat 4 r) (ids r)) { st r with bufs := { (st r).bufs with chunkin := input r } } =
        .next (st (r + 1))) →
    (∀ r < count.toNat, ∀ e < 2688,
      ((input r).read (p.chunkHdr + (2 * e + 1)) ++ (input r).read (p.chunkHdr + 2 * e) : Half) =
        chunkElement p.gfPoly cols (ids r) fun j => d j e) →
    ∃ t, exec (.recover count total) (st count.toNat) = .next t ∧ t.ers.rsp = 0 ∧
      ∀ i < count.toNat, ∀ b, b < min size (total.toNat - i * size) →
        t.bufs.out.read (i * size + b) = (d i (b / 2)).extractLsb' (8 * (b % 2)) 8

/-- Section 45_erasure_crs.md 1 (R302, R303): in the field of an irreducible polynomial every non-zero element times
its 65534th power is 1. -/
def Obligations.FieldElementsHaveInverses : Prop :=
  ∀ (poly : Nat) (a : Half), gfIrreducible poly = true → a ≠ 0 → gfMul poly a (gfInv poly a) = 1

/-- Rule R318: after a RECOVER that completed, a RECOVER without new chunks is refused. -/
def Obligations.SecondRecoverIsRefused : Prop :=
  ∀ (s t : State) (count count' : BitVec 4) (total total' : BitVec 20), s.ers.alive = .created →
    1 ≤ count.toNat → count.toNat ≤ 12 → exec (.recover count total) s = .next t →
    1 ≤ count'.toNat → count'.toNat ≤ 12 →
    (∀ k < 12, (t.ers.slot k).valid = false) ∧ ∃ r, exec (.recover count' total') t = .refused r

end
end

