-- ==== Sys2Proof/Laws/Cells.lean ====
section
/-! SUPPORT. Laws of elements by index: reading after writing, the canonical form, copies of a range. -/

namespace Sys2Proof.Machine

variable {w : Nat}

@[simp] theorem cells_read_nil (i : Nat) : Cells.read ([] : Cells w) i = 0 := rfl

theorem cells_wfIn_mono {lo lo' hi : Nat} (h : lo' ≤ lo) :
    ∀ {c : Cells w}, Cells.wfIn lo hi c = true → Cells.wfIn lo' hi c = true
  | [], _ => rfl
  | (i, v) :: rest, hc => by
    simp only [Cells.wfIn, Bool.and_eq_true, decide_eq_true_eq] at hc ⊢
    exact ⟨⟨⟨by omega, hc.1.1.2⟩, hc.1.2⟩, hc.2⟩

/-- An index below every listed one reads zero. -/
theorem cells_read_below {lo hi i : Nat} (h : i < lo) :
    ∀ {c : Cells w}, Cells.wfIn lo hi c = true → Cells.read c i = 0
  | [], _ => rfl
  | (j, v) :: rest, hc => by
    simp only [Cells.wfIn, Bool.and_eq_true, decide_eq_true_eq] at hc
    have hne : i ≠ j := by omega
    simp only [Cells.read, if_neg hne]
    exact cells_read_below (by omega) hc.2

/-- An index at or above the bound reads zero. -/
theorem cells_read_above {lo hi i : Nat} (h : hi ≤ i) :
    ∀ {c : Cells w}, Cells.wfIn lo hi c = true → Cells.read c i = 0
  | [], _ => rfl
  | (j, v) :: rest, hc => by
    simp only [Cells.wfIn, Bool.and_eq_true, decide_eq_true_eq] at hc
    have hne : i ≠ j := by omega
    simp only [Cells.read, if_neg hne]
    exact cells_read_above h hc.2

/-- Writing keeps the canonical form. -/
theorem cells_write_wf {hi i : Nat} {v : BitVec w} (hi' : i < hi) :
    ∀ {lo : Nat} {c : Cells w}, lo ≤ i → Cells.wfIn lo hi c = true → Cells.wfIn lo hi (Cells.write c i v) = true
  | lo, [], hlo, _ => by
    simp only [Cells.write]
    split <;> simp_all [Cells.wfIn]
  | lo, (j, x) :: rest, hlo, hc => by
    simp only [Cells.wfIn, Bool.and_eq_true, decide_eq_true_eq] at hc
    obtain ⟨⟨⟨h1, h2⟩, h3⟩, h4⟩ := hc
    simp only [Cells.write]
    split
    · rename_i hji
      simp only [Cells.wfIn, Bool.and_eq_true, decide_eq_true_eq]
      exact ⟨⟨⟨h1, h2⟩, h3⟩, cells_write_wf hi' (by omega) h4⟩
    · split
      · rename_i _ hji
        subst hji
        split
        · exact cells_wfIn_mono (by omega) h4
        · rename_i hv
          simp only [Cells.wfIn, Bool.and_eq_true, decide_eq_true_eq]
          exact ⟨⟨⟨h1, h2⟩, hv⟩, h4⟩
      · split
        · simp only [Cells.wfIn, Bool.and_eq_true, decide_eq_true_eq]
          exact ⟨⟨⟨h1, h2⟩, h3⟩, h4⟩
        · rename_i hlt hne hv
          simp only [Cells.wfIn, Bool.and_eq_true, decide_eq_true_eq]
          exact ⟨⟨⟨hlo, hi'⟩, hv⟩, ⟨⟨by omega, h2⟩, h3⟩, h4⟩

/-- Reading the element just written. -/
theorem cells_read_write_same {lo hi : Nat} {i : Nat} {v : BitVec w} :
    ∀ {c : Cells w}, Cells.wfIn lo hi c = true → Cells.read (Cells.write c i v) i = v
  | [], _ => by
    simp only [Cells.write]
    split
    · rename_i h; simp [h]
    · simp [Cells.read]
  | (j, x) :: rest, hc => by
    simp only [Cells.wfIn, Bool.and_eq_true, decide_eq_true_eq] at hc
    simp only [Cells.write]
    split
    · rename_i h
      have hne : i ≠ j := by omega
      simp only [Cells.read, if_neg hne]
      exact cells_read_write_same hc.2
    · split
      · rename_i _ hji
        subst hji
        split
        · rename_i hv; rw [hv]; exact cells_read_below (Nat.lt_succ_self _) hc.2
        · simp [Cells.read]
      · split
        · rename_i hlt hne hv
          have : i ≠ j := fun h => hne h.symm
          rw [hv]
          simp only [Cells.read, if_neg this]
          exact cells_read_below (by omega) hc.2
        · simp [Cells.read]

/-- Reading any other element. -/
theorem cells_read_write_other {i k : Nat} {v : BitVec w} (h : k ≠ i) :
    ∀ {c : Cells w}, Cells.read (Cells.write c i v) k = Cells.read c k
  | [] => by
    simp only [Cells.write]
    split <;> simp [Cells.read, h]
  | (j, x) :: rest => by
    simp only [Cells.write]
    split
    · simp only [Cells.read]
      split
      · rfl
      · exact cells_read_write_other h
    · split
      · rename_i _ hji
        subst hji
        split <;> simp [Cells.read, h]
      · split <;> simp [Cells.read, h]

theorem cells_writeFrom_wf {hi : Nat} :
    ∀ {vs : List (BitVec w)} {start : Nat} {c : Cells w}, start + vs.length ≤ hi → Cells.wfIn 0 hi c = true →
      Cells.wfIn 0 hi (Cells.writeFrom c start vs) = true
  | [], _, _, _, hc => hc
  | v :: rest, start, c, h, hc => by
    simp only [List.length_cons] at h
    simp only [Cells.writeFrom]
    exact cells_writeFrom_wf (by omega) (cells_write_wf (by omega) (Nat.zero_le _) hc)

/-- A range write leaves every element outside the range as it was. -/
theorem cells_read_writeFrom_outside {k : Nat} :
    ∀ {vs : List (BitVec w)} {start : Nat} {c : Cells w}, k < start ∨ start + vs.length ≤ k →
      Cells.read (Cells.writeFrom c start vs) k = Cells.read c k
  | [], _, _, _ => rfl
  | v :: rest, start, c, h => by
    simp only [List.length_cons] at h
    simp only [Cells.writeFrom]
    rw [cells_read_writeFrom_outside (by omega), cells_read_write_other (by omega)]

/-- A range write puts value t at index `start + t`. -/
theorem cells_read_writeFrom_inside {hi : Nat} :
    ∀ {vs : List (BitVec w)} {start t : Nat} {c : Cells w}, start + vs.length ≤ hi → Cells.wfIn 0 hi c = true →
      (ht : t < vs.length) → Cells.read (Cells.writeFrom c start vs) (start + t) = vs[t]
  | v :: rest, start, 0, c, h, hc, _ => by
    simp only [List.length_cons] at h
    simp only [Cells.writeFrom, Nat.add_zero, List.getElem_cons_zero]
    rw [cells_read_writeFrom_outside (by omega), cells_read_write_same hc]
  | v :: rest, start, t + 1, c, h, hc, ht => by
    simp only [List.length_cons] at h ht
    simp only [Cells.writeFrom, List.getElem_cons_succ]
    rw [show start + (t + 1) = start + 1 + t by omega]
    exact cells_read_writeFrom_inside (by omega) (cells_write_wf (by omega) (Nat.zero_le _) hc) (by omega)

/-- A copy of a range reads as the range does. -/
theorem cells_read_slice {start n t : Nat} (ht : t < n) :
    ∀ {c : Cells w}, Cells.read (Cells.slice c start n) t = Cells.read c (start + t)
  | [] => rfl
  | (i, v) :: rest => by
    simp only [Cells.slice]
    split
    · simp only [Cells.read]
      by_cases h : t = i - start
      · rw [if_pos h, if_pos (by omega)]
      · rw [if_neg h, if_neg (by omega)]
        exact cells_read_slice ht
    · rename_i h
      simp only [Cells.read]
      rw [if_neg (by omega)]
      exact cells_read_slice ht

theorem cells_slice_wf {start n hi : Nat} :
    ∀ {lo : Nat} {c : Cells w}, Cells.wfIn lo hi c = true → Cells.wfIn (lo - start) n (Cells.slice c start n) = true
  | _, [], _ => rfl
  | lo, (i, v) :: rest, hc => by
    simp only [Cells.wfIn, Bool.and_eq_true, decide_eq_true_eq] at hc
    have ih := cells_slice_wf (start := start) (n := n) hc.2
    simp only [Cells.slice]
    split
    · rename_i h
      simp only [Cells.wfIn, Bool.and_eq_true, decide_eq_true_eq]
      refine ⟨⟨⟨by omega, by omega⟩, hc.1.2⟩, ?_⟩
      rwa [show i - start + 1 = i + 1 - start by omega]
    · exact cells_wfIn_mono (by omega) ih

/-! ### Buffers -/

@[simp] theorem buffer_writeFrom_len (b : Buffer w) (start : Nat) (vs : List (BitVec w)) :
    (b.writeFrom start vs).len = b.len := rfl

theorem buffer_writeFrom_wf {b : Buffer w} {start : Nat} {vs : List (BitVec w)} (h : b.wf = true)
    (hl : start + vs.length ≤ b.len) : (b.writeFrom start vs).wf = true :=
  cells_writeFrom_wf hl h

theorem buffer_read_writeFrom_outside {b : Buffer w} {start k : Nat} {vs : List (BitVec w)}
    (h : k < start ∨ start + vs.length ≤ k) : (b.writeFrom start vs).read k = b.read k :=
  cells_read_writeFrom_outside h

theorem buffer_read_writeFrom_inside {b : Buffer w} {start t : Nat} {vs : List (BitVec w)} (hb : b.wf = true)
    (hl : start + vs.length ≤ b.len) (ht : t < vs.length) : (b.writeFrom start vs).read (start + t) = vs[t] :=
  cells_read_writeFrom_inside hl hb ht

theorem buffer_ofList_wf (vs : List (BitVec w)) : (Buffer.ofList vs).wf = true :=
  cells_writeFrom_wf (by simp [Buffer.ofList]) rfl

/-- A buffer bound to a content reads as that content. -/
theorem buffer_ofList_read {vs : List (BitVec w)} {t : Nat} (ht : t < vs.length) :
    (Buffer.ofList vs).read t = vs[t] := by
  have h := cells_read_writeFrom_inside (start := 0) (c := ([] : Cells w)) (hi := vs.length) (by omega) rfl ht
  simpa [Buffer.ofList, Buffer.read] using h

end Sys2Proof.Machine
end

