-- ==== Sys2Proof/Laws/Conditioner.lean ====
section
/-! SUPPORT. The DC blocker against rule R132: what zero gain at zero frequency says of a constant input. -/

namespace Sys2Proof.Machine

/-- The exact output of the one-state form for a constant input x, from state s on. -/
theorem dc_response {a b c d x : ℝ} {s : ℕ → ℝ} (h : d * (1 - a) + c * b = 0) (hs : ∀ n, s (n + 1) = a * s n + b * x) :
    ∀ n, c * s n + d * x = a ^ n * (c * s 0 + d * x)
  | 0 => by ring
  | n + 1 => by
    rw [hs, pow_succ', mul_assoc, ← dc_response h hs n]
    linear_combination x * h

/-- Zero gain at zero frequency (rule R132): computed exactly, the output for a constant input dies away, from every
state. -/
theorem zeroGain_response {k : DcCoef} (h : DcCoef.ZeroGain k) (x : ℝ) (s : ℕ → ℝ)
    (hs : ∀ n, s (n + 1) = (F32.value k.a : ℝ) * s n + (F32.value k.b : ℝ) * x) :
    Filter.Tendsto (fun n => (F32.value k.c : ℝ) * s n + (F32.value k.d : ℝ) * x) Filter.atTop (nhds 0) := by
  obtain ⟨a, b, c, d, ha, hb, hc, hd, h1, h2⟩ := h
  have e : d * (1 - a) + c * b = 0 := by
    have : 1 - a ≠ 0 := fun e => absurd (lt_of_abs_lt h1) (by linarith)
    field_simp at h2
    linarith
  simp only [F32.value, ha, hb, hc, hd, Option.getD_some] at hs ⊢
  rw [funext (dc_response (by exact_mod_cast e) hs)]
  simpa using (tendsto_pow_atTop_nhds_zero_of_abs_lt_one (by exact_mod_cast h1)).mul_const
    ((c : ℝ) * s 0 + (d : ℝ) * x)

end Sys2Proof.Machine
end

