-- ==== Sys2Proof/Laws/State.lean ====
section
/-! SUPPORT. One lemma per field per named update, true by unfolding the update once. -/

namespace Sys2Proof.Machine

/-! ### Answers -/

section
variable (s : State) (r : Word)

@[simp] theorem decRespond_params : (s.decRespond r).params = s.params := rfl
@[simp] theorem decRespond_host : (s.decRespond r).host = s.host := rfl
@[simp] theorem decRespond_allocOk : (s.decRespond r).allocOk = s.allocOk := rfl
@[simp] theorem decRespond_overlaps : (s.decRespond r).overlaps = s.overlaps := rfl
@[simp] theorem decRespond_draws : (s.decRespond r).draws = s.draws := rfl
@[simp] theorem decRespond_bufs : (s.decRespond r).bufs = s.bufs := rfl
@[simp] theorem decRespond_ers : (s.decRespond r).ers = s.ers := rfl
@[simp] theorem decRespond_dec : (s.decRespond r).dec = { s.dec with rsp := r } := rfl
@[simp] theorem ersRespond_params : (s.ersRespond r).params = s.params := rfl
@[simp] theorem ersRespond_host : (s.ersRespond r).host = s.host := rfl
@[simp] theorem ersRespond_allocOk : (s.ersRespond r).allocOk = s.allocOk := rfl
@[simp] theorem ersRespond_overlaps : (s.ersRespond r).overlaps = s.overlaps := rfl
@[simp] theorem ersRespond_draws : (s.ersRespond r).draws = s.draws := rfl
@[simp] theorem ersRespond_bufs : (s.ersRespond r).bufs = s.bufs := rfl
@[simp] theorem ersRespond_dec : (s.ersRespond r).dec = s.dec := rfl
@[simp] theorem ersRespond_ers : (s.ersRespond r).ers = { s.ers with rsp := r } := rfl
@[simp] theorem err_dec : s.err .dec = s.decRespond rspErr := rfl
@[simp] theorem err_ers : s.err .ers = s.ersRespond rspErr := rfl

end

/-! ### The ring, the correlator and the conditioner -/

section
variable (d : Dec) (z : Cplx) (pos : Int) (cfo : F32)

@[simp] theorem append_ring : (d.append z).ring = (z :: d.ring).take (Rate.ringCap d.rate) := rfl
@[simp] theorem append_nW : (d.append z).nW = d.nW + 1 := rfl
@[simp] theorem append_rate : (d.append z).rate = d.rate := rfl
@[simp] theorem append_hilbert : (d.append z).hilbert = d.hilbert := rfl
@[simp] theorem report_symbolPosAbs : (d.report pos cfo).symbolPosAbs = pos := rfl
@[simp] theorem report_cfoRad : (d.report pos cfo).cfoRad = cfo := rfl
@[simp] theorem report_detPending : (d.report pos cfo).detPending = true := rfl
@[simp] theorem report_ring : (d.report pos cfo).ring = d.ring := rfl
@[simp] theorem report_nW : (d.report pos cfo).nW = d.nW := rfl
@[simp] theorem report_rate : (d.report pos cfo).rate = d.rate := rfl

end

/-! ### The burst machine -/

section
variable (d : Dec) (row : ModeRegs) (sp : List Cplx)

@[simp] theorem sync_mode : (d.sync row sp).mode = row := rfl
@[simp] theorem sync_fsm : (d.sync row sp).fsm = .synced := rfl
@[simp] theorem sync_symbolNumber : (d.sync row sp).symbolNumber = 0 := rfl
@[simp] theorem sync_payloadReady : (d.sync row sp).payloadReady = false := rfl
@[simp] theorem sync_cfoBurst : (d.sync row sp).cfoBurst = d.cfoRad := rfl
@[simp] theorem sync_symbolPositionAbs :
    (d.sync row sp).symbolPositionAbs = d.symbolPosAbs + Rate.lExt d.rate := rfl
@[simp] theorem sync_prev : (d.sync row sp).prev = carrierValues (Rate.lSym d.rate) row sp := rfl
@[simp] theorem sync_ring : (d.sync row sp).ring = d.ring := rfl
@[simp] theorem sync_nW : (d.sync row sp).nW = d.nW := rfl
@[simp] theorem sync_rate : (d.sync row sp).rate = d.rate := rfl
@[simp] theorem sync_code : (d.sync row sp).code = d.code := rfl
@[simp] theorem sync_cachedMode : (d.sync row sp).cachedMode = d.cachedMode := rfl
@[simp] theorem sync_cachedCall : (d.sync row sp).cachedCall = d.cachedCall := rfl
@[simp] theorem sync_cachedAny : (d.sync row sp).cachedAny = d.cachedAny := rfl
@[simp] theorem finish_fsm : d.finish.fsm = .done := rfl
@[simp] theorem finish_payloadReady : d.finish.payloadReady = true := rfl
@[simp] theorem finish_code : d.finish.code = d.code := rfl
@[simp] theorem finish_symbolNumber : d.finish.symbolNumber = d.symbolNumber := rfl
@[simp] theorem finish_mode : d.finish.mode = d.mode := rfl

end

section
variable (f : Functions) (p : Params) (d : Dec) (xs : List Cplx)

@[simp] theorem demodulate_symbolNumber : (d.demodulate f p xs).symbolNumber = d.symbolNumber + 1 := rfl
@[simp] theorem demodulate_mode : (d.demodulate f p xs).mode = d.mode := rfl
@[simp] theorem demodulate_fsm : (d.demodulate f p xs).fsm = d.fsm := rfl
@[simp] theorem demodulate_rate : (d.demodulate f p xs).rate = d.rate := rfl
@[simp] theorem demodulate_ring : (d.demodulate f p xs).ring = d.ring := rfl
@[simp] theorem demodulate_nW : (d.demodulate f p xs).nW = d.nW := rfl
@[simp] theorem demodulate_alive : (d.demodulate f p xs).alive = d.alive := rfl
@[simp] theorem demodulate_payloadReady : (d.demodulate f p xs).payloadReady = d.payloadReady := rfl
@[simp] theorem demodulate_cachedAny : (d.demodulate f p xs).cachedAny = d.cachedAny := rfl
@[simp] theorem demodulate_cachedMode : (d.demodulate f p xs).cachedMode = d.cachedMode := rfl
@[simp] theorem demodulate_cachedCall : (d.demodulate f p xs).cachedCall = d.cachedCall := rfl
@[simp] theorem demodulate_detPending : (d.demodulate f p xs).detPending = d.detPending := rfl
@[simp] theorem demodulate_symbolPositionAbs :
    (d.demodulate f p xs).symbolPositionAbs = d.symbolPositionAbs := rfl
@[simp] theorem consumeDetection_detPending : (d.consumeDetection f xs).detPending = false := rfl
@[simp] theorem consumeDetection_ring : (d.consumeDetection f xs).ring = d.ring := rfl
@[simp] theorem consumeDetection_nW : (d.consumeDetection f xs).nW = d.nW := rfl
@[simp] theorem consumeDetection_rate : (d.consumeDetection f xs).rate = d.rate := rfl
@[simp] theorem consumeDetection_fsm : (d.consumeDetection f xs).fsm = d.fsm := rfl
@[simp] theorem consumeDetection_symbolPosAbs : (d.consumeDetection f xs).symbolPosAbs = d.symbolPosAbs := rfl

end

/-! ### The buffers PROCESS draws

The proofs stand in parentheses so that simp uses them as equations: unfolding them would compare whole images. -/

section
variable (b : Buffers) (v1 v2 v3 v4 : List Word)

@[simp] theorem drawPixels_audio : (b.drawPixels v1 v2 v3 v4).audio = b.audio := (rfl)
@[simp] theorem drawPixels_spec : (b.drawPixels v1 v2 v3 v4).spec = b.spec.writeFrom 0 v1 := (rfl)
@[simp] theorem drawPixels_sgram : (b.drawPixels v1 v2 v3 v4).sgram = b.sgram.writeFrom 0 v2 := (rfl)
@[simp] theorem drawPixels_cons : (b.drawPixels v1 v2 v3 v4).cons = b.cons.writeFrom 0 v3 := (rfl)
@[simp] theorem drawPixels_peak : (b.drawPixels v1 v2 v3 v4).peak = b.peak.writeFrom 0 v4 := (rfl)
@[simp] theorem drawPixels_call9 : (b.drawPixels v1 v2 v3 v4).call9 = b.call9 := (rfl)
@[simp] theorem drawPixels_payload : (b.drawPixels v1 v2 v3 v4).payload = b.payload := (rfl)
@[simp] theorem drawPixels_chunkin : (b.drawPixels v1 v2 v3 v4).chunkin = b.chunkin := (rfl)
@[simp] theorem drawPixels_out : (b.drawPixels v1 v2 v3 v4).out = b.out := (rfl)

end

/-! ### The next states of the operations -/

section
variable (f : Functions) (ch : Channel) (s : State) (turn : Turn)

@[simp] theorem processNext_params : (processNext f ch s turn).params = s.params := rfl
@[simp] theorem processNext_host : (processNext f ch s turn).host = s.host := rfl
@[simp] theorem processNext_allocOk : (processNext f ch s turn).allocOk = s.allocOk := rfl
@[simp] theorem processNext_overlaps : (processNext f ch s turn).overlaps = s.overlaps := rfl
@[simp] theorem processNext_draws : (processNext f ch s turn).draws = s.draws + 1 := rfl
@[simp] theorem processNext_ers : (processNext f ch s turn).ers = s.ers := rfl
@[simp] theorem processNext_rsp : (processNext f ch s turn).dec.rsp = rspStatus turn.status := rfl
@[simp] theorem processNext_peakPrev : (processNext f ch s turn).dec.peakPrev = peakOf (processFrames ch s) := rfl
@[simp] theorem processNext_dec : (processNext f ch s turn).dec =
    { turn.dec with peakPrev := peakOf (processFrames ch s), rsp := rspStatus turn.status } := rfl
@[simp] theorem processNext_bufs : (processNext f ch s turn).bufs =
    s.bufs.drawPixels (specImage f s.draws (columnLevel f s.draws (turn.dec.shownSpectrum f turn.points)))
      (sgramImage f s.draws (columnLevel f s.draws (turn.dec.shownSpectrum f turn.points)) s.bufs.sgram)
      (consImage f s.draws turn.points)
      (peakImage s.params.peak (max (peakOf (processFrames ch s)) turn.dec.peakPrev)) := (rfl)

@[simp] theorem cachedNext_params : (cachedNext f s).params = s.params := rfl
@[simp] theorem cachedNext_host : (cachedNext f s).host = s.host := rfl
@[simp] theorem cachedNext_draws : (cachedNext f s).draws = s.draws := rfl
@[simp] theorem cachedNext_ers : (cachedNext f s).ers = s.ers := rfl
@[simp] theorem cachedNext_modeReg : (cachedNext f s).dec.modeReg = s.dec.cachedMode.zeroExtend 32 := rfl
@[simp] theorem cachedNext_rsp : (cachedNext f s).dec.rsp = 0 := rfl

@[simp] theorem recoverNext_params (n c : Nat) : (recoverNext s n c).params = s.params := rfl
@[simp] theorem recoverNext_host (n c : Nat) : (recoverNext s n c).host = s.host := rfl
@[simp] theorem recoverNext_draws (n c : Nat) : (recoverNext s n c).draws = s.draws := rfl
@[simp] theorem recoverNext_dec (n c : Nat) : (recoverNext s n c).dec = s.dec := rfl
@[simp] theorem recoverNext_rsp (n c : Nat) : (recoverNext s n c).ers.rsp = 0 := rfl
@[simp] theorem recoverNext_crc (n c : Nat) :
    (recoverNext s n c).ers.crc = crcErasure s.params (s.ers.recovered s.params n c) := rfl
@[simp] theorem recoverNext_out (n c : Nat) :
    (recoverNext s n c).bufs.out = s.bufs.out.writeFrom 0 (s.ers.recovered s.params n c) := rfl

end

/-- FETCH touches the code, `payload_ready` and RSP of the unit and nothing else of it (rule R366). -/
theorem fetchNext_dec (f : Functions) (s : State) :
    ∃ rsp, (fetchNext f s).dec = s.dec.fetched (s.dec.lengthened f s.params) rsp := by
  unfold fetchNext
  dsimp only
  split <;> exact ⟨_, rfl⟩

/-- FETCH touches no other part of the state than the unit, PAYLOAD and the draw counter (rules R85, R366). -/
theorem fetchNext_rest (f : Functions) (s : State) :
    (fetchNext f s).params = s.params ∧ (fetchNext f s).host = s.host ∧ (fetchNext f s).allocOk = s.allocOk ∧
      (fetchNext f s).overlaps = s.overlaps ∧ (fetchNext f s).ers = s.ers ∧
      ∃ bytes, (fetchNext f s).bufs = { s.bufs with payload := s.bufs.payload.writeFrom 0 bytes } := by
  unfold fetchNext
  dsimp only
  split <;> exact ⟨rfl, rfl, rfl, rfl, rfl, _, rfl⟩

end Sys2Proof.Machine
end

