-- ==== Sys2Proof/Laws/Process.lean ====
section
/-! SUPPORT. What one PROCESS can do: the ring, the sample loop, the burst machine, the pixel buffers. -/

namespace Sys2Proof.Machine

/-! ### The ring (rule R30) -/

theorem ringAt_eq_some_iff {d : Dec} (hr : d.ring.length = Rate.ringCap d.rate) {n : Int} :
    (d.ringAt n).isSome ↔ (d.nW : Int) - Rate.ringCap d.rate ≤ n ∧ n < (d.nW : Int) := by
  unfold Dec.ringAt
  split
  · rename_i h
    have hlt : ((d.nW : Int) - 1 - n).toNat < d.ring.length := by omega
    simp [List.getElem?_eq_getElem hlt, h]
  · rename_i h
    simp only [Option.isSome_none, Bool.false_eq_true, false_iff]
    omega

theorem readRing_isSome_iff {d : Dec} (hr : d.ring.length = Rate.ringCap d.rate) :
    ∀ {n : Nat} {base : Int}, 0 < n → ((d.readRing base n).isSome ↔
      (d.nW : Int) - Rate.ringCap d.rate ≤ base ∧ base + n ≤ (d.nW : Int))
  | 0, _, h => absurd h (by omega)
  | 1, base, _ => by
    have h1 := ringAt_eq_some_iff hr (n := base)
    simp only [Dec.readRing]
    cases h : d.ringAt base <;> simp [h] at h1 ⊢ <;> omega
  | n + 2, base, _ => by
    have h1 := ringAt_eq_some_iff hr (n := base)
    have ih := readRing_isSome_iff hr (n := n + 1) (base := base + 1) (by omega)
    rw [Dec.readRing]
    cases h : d.ringAt base <;> cases h' : d.readRing (base + 1) (n + 1) <;> simp [h, h'] at h1 ih ⊢ <;> omega

theorem readRing_length {d : Dec} :
    ∀ {n : Nat} {base : Int} {xs : List Cplx}, d.readRing base n = some xs → xs.length = n
  | 0, _, xs, h => by simp [Dec.readRing] at h; simp [← h]
  | n + 1, base, xs, h => by
    rw [Dec.readRing] at h
    split at h
    · rename_i h2
      cases h
      simp [readRing_length h2]
    · cases h

theorem lSym_pos (r : Rate) : 0 < Rate.lSym r := by cases r <;> decide
theorem lExt_pos (r : Rate) : 0 < Rate.lExt r := by cases r <;> decide
theorem lSym_le_lExt (r : Rate) : Rate.lSym r ≤ Rate.lExt r := by cases r <;> decide
theorem ringCap_eq (r : Rate) : Rate.ringCap r = 4 * Rate.lExt r := rfl
theorem hilbertLen_pos (r : Rate) : 0 < Rate.hilbertLen r := by cases r <;> decide

/-- A symbol can be read exactly when the ring holds it (rule R30). -/
theorem window_isSome_iff {d : Dec} (hr : d.ring.length = Rate.ringCap d.rate) {base : Int} :
    (d.window base).isSome ↔ d.HoldsSymbol base :=
  readRing_isSome_iff hr (lSym_pos d.rate)

/-- What a read of the ring depends on (rule R30). -/
theorem readRing_congr {d e : Dec} (hr : d.rate = e.rate) (hn : d.nW = e.nW) (h : d.ring = e.ring) :
    ∀ (n : Nat) (base : Int), d.readRing base n = e.readRing base n
  | 0, _ => rfl
  | n + 1, base => by
    have h1 : d.ringAt base = e.ringAt base := by unfold Dec.ringAt; rw [hr, hn, h]
    rw [Dec.readRing, Dec.readRing, readRing_congr hr hn h n, h1]

theorem window_congr {d e : Dec} (hr : d.rate = e.rate) (hn : d.nW = e.nW) (h : d.ring = e.ring) (base : Int) :
    d.window base = e.window base := by
  unfold Dec.window
  rw [hr, readRing_congr hr hn h]

/-! ### The sample loop (rule R363) -/

/-- What conditioning, appending and correlating leave of a unit: everything but the conditioner's state, the ring,
`n_w` and the correlator's registers. -/
structure Dec.SameBurst (d e : Dec) : Prop where
  alive : e.alive = d.alive
  rsp : e.rsp = d.rsp
  rate : e.rate = d.rate
  fsm : e.fsm = d.fsm
  symbolNumber : e.symbolNumber = d.symbolNumber
  symbolPositionAbs : e.symbolPositionAbs = d.symbolPositionAbs
  cfoBurst : e.cfoBurst = d.cfoBurst
  mode : e.mode = d.mode
  cachedMode : e.cachedMode = d.cachedMode
  cachedCall : e.cachedCall = d.cachedCall
  cachedAny : e.cachedAny = d.cachedAny
  payloadReady : e.payloadReady = d.payloadReady
  prev : e.prev = d.prev
  code : e.code = d.code
  tdom : e.tdom = d.tdom
  fdom : e.fdom = d.fdom
  consPts : e.consPts = d.consPts
  peakPrev : e.peakPrev = d.peakPrev
  cfoReg : e.cfoReg = d.cfoReg
  modeReg : e.modeReg = d.modeReg

theorem sameBurst_refl (d : Dec) : d.SameBurst d := by constructor <;> rfl

theorem sameBurst_trans {d e g : Dec} (h : d.SameBurst e) (h' : e.SameBurst g) : d.SameBurst g := by
  constructor
  · rw [h'.alive, h.alive]
  · rw [h'.rsp, h.rsp]
  · rw [h'.rate, h.rate]
  · rw [h'.fsm, h.fsm]
  · rw [h'.symbolNumber, h.symbolNumber]
  · rw [h'.symbolPositionAbs, h.symbolPositionAbs]
  · rw [h'.cfoBurst, h.cfoBurst]
  · rw [h'.mode, h.mode]
  · rw [h'.cachedMode, h.cachedMode]
  · rw [h'.cachedCall, h.cachedCall]
  · rw [h'.cachedAny, h.cachedAny]
  · rw [h'.payloadReady, h.payloadReady]
  · rw [h'.prev, h.prev]
  · rw [h'.code, h.code]
  · rw [h'.tdom, h.tdom]
  · rw [h'.fdom, h.fdom]
  · rw [h'.consPts, h.consPts]
  · rw [h'.peakPrev, h.peakPrev]
  · rw [h'.cfoReg, h.cfoReg]
  · rw [h'.modeReg, h.modeReg]

/-- Conditioning changes the DC blocker's and the Hilbert filter's state only (rules R132 to R135). -/
theorem condition_dec (f : Functions) (p : Params) (ch : Channel) (d : Dec) (fr : Frame) :
    ∃ st h, (d.condition f p ch fr).1 = { d with dcState := st, hilbert := h } ∧
      (d.hilbert.length = Rate.hilbertLen d.rate → h.length = Rate.hilbertLen d.rate) := by
  have hp := hilbertLen_pos d.rate
  cases ch
  case iq => exact ⟨d.dcState, d.hilbert, rfl, id⟩
  all_goals
    refine ⟨_, _, rfl, fun h => ?_⟩
    simp only [hilbertShift, List.length_take, List.length_cons]
    omega

/-- The correlator step changes the correlator's registers only (rule R158). -/
theorem correlate_dec (f : Functions) (d : Dec) :
    (∃ cs, d.correlate f = { d with corrState := cs }) ∨
      ∃ cs pos cfo, d.correlate f =
        { d with corrState := cs, symbolPosAbs := pos, cfoRad := cfo, detPending := true } := by
  unfold Dec.correlate
  split
  · exact .inl ⟨_, rfl⟩
  · exact .inr ⟨_, _, _, rfl⟩

/-- A step without a report (rules R155, R158). -/
theorem correlate_of_none {f : Functions} {d : Dec} {cs : List Word}
    (h : f.detect.step d.rate d.corrState d.ring d.nW = (cs, none)) : d.correlate f = { d with corrState := cs } := by
  unfold Dec.correlate
  rw [h]

/-- A step with a report (rules R155, R158). -/
theorem correlate_of_some {f : Functions} {d : Dec} {cs : List Word} {pos : Int} {cfo : F32}
    (h : f.detect.step d.rate d.corrState d.ring d.nW = (cs, some (pos, cfo))) :
    d.correlate f = { d with corrState := cs, symbolPosAbs := pos, cfoRad := cfo, detPending := true } := by
  unfold Dec.correlate
  rw [h]
  rfl

theorem sampleStep_sameBurst (f : Functions) (p : Params) (ch : Channel) (d : Dec) (fr : Frame) :
    d.SameBurst (d.sampleStep f p ch fr) := by
  obtain ⟨st, h, hc, -⟩ := condition_dec f p ch d fr
  unfold Dec.sampleStep
  simp only [hc]
  rcases correlate_dec f (Dec.append { d with dcState := st, hilbert := h } (d.condition f p ch fr).2) with
    ⟨cs, e⟩ | ⟨cs, pos, cfo, e⟩ <;> rw [e] <;> constructor <;> rfl

/-- One frame advances `n_w` by one and keeps the sizes of the ring and the delay line (rules R30, R136). -/
theorem sampleStep_sizes (f : Functions) (p : Params) (ch : Channel) (d : Dec) (fr : Frame) :
    (d.sampleStep f p ch fr).nW = d.nW + 1 ∧
      (d.ring.length = Rate.ringCap d.rate → (d.sampleStep f p ch fr).ring.length = Rate.ringCap d.rate) ∧
      (d.hilbert.length = Rate.hilbertLen d.rate →
        (d.sampleStep f p ch fr).hilbert.length = Rate.hilbertLen d.rate) := by
  obtain ⟨st, h, hc, hl⟩ := condition_dec f p ch d fr
  have cap : 0 < Rate.ringCap d.rate := by cases d.rate <;> decide
  unfold Dec.sampleStep
  simp only [hc]
  rcases correlate_dec f (Dec.append { d with dcState := st, hilbert := h } (d.condition f p ch fr).2) with
    ⟨cs, e⟩ | ⟨cs, pos, cfo, e⟩ <;> rw [e] <;>
    refine ⟨rfl, fun hr => ?_, hl⟩ <;> simp [List.length_take] <;> omega

/-- The sample loop: `n_w` advances by the number of frames, the burst registers stay, the sizes stay. -/
theorem sampleLoop_spec (f : Functions) (p : Params) (ch : Channel) :
    ∀ (frames : List Frame) (d : Dec),
      d.SameBurst (d.sampleLoop f p ch frames) ∧ (d.sampleLoop f p ch frames).nW = d.nW + frames.length ∧
        (d.ring.length = Rate.ringCap d.rate → (d.sampleLoop f p ch frames).ring.length = Rate.ringCap d.rate) ∧
        (d.hilbert.length = Rate.hilbertLen d.rate →
          (d.sampleLoop f p ch frames).hilbert.length = Rate.hilbertLen d.rate)
  | [], d => ⟨sameBurst_refl d, rfl, id, id⟩
  | fr :: rest, d => by
    obtain ⟨h1, h2, h3, h4⟩ := sampleLoop_spec f p ch rest (d.sampleStep f p ch fr)
    obtain ⟨g2, g3, g4⟩ := sampleStep_sizes f p ch d fr
    have g1 := sampleStep_sameBurst f p ch d fr
    have e : d.sampleLoop f p ch (fr :: rest) = (d.sampleStep f p ch fr).sampleLoop f p ch rest := rfl
    rw [e]
    rw [g1.rate] at h3 h4
    refine ⟨sameBurst_trans g1 h1, ?_, fun h => h3 (g3 h), fun h => h4 (g4 h)⟩
    rw [h2, g2, List.length_cons]
    omega

@[simp] theorem framesOf_length (audio : Buffer 16) (ch : Channel) (r : Rate) :
    (framesOf audio ch r).length = Rate.lExt r := by simp [framesOf]

/-! ### The burst machine (rules R371 to R377) -/

/-- A data symbol: refused if the ring does not hold it, else one symbol demodulated and, after the last, DONE. -/
theorem dataSymbol_cases {f : Functions} {p : Params} {d : Dec} {turn : Turn} (h : d.dataSymbol f p = .ok turn) :
    ∃ xs, d.window d.dataBase = some xs ∧ turn.points = some (d.demodulate f p xs).consPts ∧
      ((d.symbolNumber + 1 < d.mode.symbolCount ∧ turn.dec = d.demodulate f p xs ∧ turn.status = .okay) ∨
        (d.mode.symbolCount ≤ d.symbolNumber + 1 ∧ turn.dec = (d.demodulate f p xs).finish ∧
          turn.status = .done)) := by
  unfold Dec.dataSymbol at h
  split at h
  · cases h
  · rename_i xs hx
    refine ⟨xs, hx, ?_⟩
    dsimp only at h
    split at h <;> rename_i hlt <;> cases h
    · exact ⟨rfl, .inl ⟨hlt, rfl, rfl⟩⟩
    · exact ⟨rfl, .inr ⟨Nat.le_of_not_lt hlt, rfl, rfl⟩⟩

/-- A data symbol is refused only if the ring does not hold it. -/
theorem dataSymbol_ok {f : Functions} {p : Params} {d : Dec} (h : (d.window d.dataBase).isSome) :
    ∃ turn, d.dataSymbol f p = .ok turn := by
  obtain ⟨xs, hx⟩ := Option.isSome_iff_exists.mp h
  unfold Dec.dataSymbol
  rw [hx]
  dsimp only
  split <;> exact ⟨_, rfl⟩

/-- A detection acted on: refused if the ring does not hold the metadata symbol, else the result settles it. -/
theorem detection_cases {f : Functions} {p : Params} {d : Dec} {rejected : Fsm} {turn : Turn}
    (h : d.detection f p rejected = .ok turn) :
    ∃ xs, d.window (d.symbolPosAbs + Rate.lExt d.rate) = some xs ∧
      turn = (d.consumeDetection f (derotate f.num d.cfoRad xs)).settle
        (preambleResult f p (Rate.lSym d.rate) (derotate f.num d.cfoRad xs))
        (transform f.num (derotate f.num d.cfoRad xs)) rejected := by
  unfold Dec.detection Dec.metadataSamples at h
  cases hx : d.window (d.symbolPosAbs + Rate.lExt d.rate) with
  | none => rw [hx] at h; cases h
  | some xs =>
    rw [hx] at h
    cases h
    exact ⟨xs, rfl, rfl⟩

/-- Everything one step of the burst machine can do (rules R371, R377). -/
theorem machineStep_cases {f : Functions} {p : Params} {d : Dec} {turn : Turn}
    (h : d.machineStep f p = .ok turn) :
    (d.fsm ≠ .synced ∧ d.detPending = false ∧ turn = { dec := d, status := .okay, points := none }) ∨
      (d.fsm ≠ .synced ∧ d.detPending = true ∧ d.detection f p d.fsm = .ok turn) ∨
      (d.fsm = .synced ∧ (d.detPending = false ∨ p.resync = .ignore) ∧
        Dec.dataSymbol f p { d with detPending := false } = .ok turn) ∨
      (d.fsm = .synced ∧ d.detPending = true ∧ p.resync = .restart ∧ d.detection f p .idle = .ok turn) := by
  unfold Dec.machineStep at h
  cases hf : d.fsm <;> cases hd : d.detPending <;> simp only [hf, hd] at h
  · cases h; simp
  · simp [h]
  · have e : ({ d with detPending := false } : Dec) = d := by cases d; cases hd; rfl
    exact .inr (.inr (.inl ⟨rfl, .inl rfl, hf ▸ e.symm ▸ h⟩))
  · cases hr : p.resync <;> simp only [hr] at h <;> simp [h]
  · cases h; simp
  · simp [h]

/-- What one step of the burst machine leaves of a unit: its lifecycle, the sample stream, the correlator's outputs and
the registers HOST reads. -/
structure Dec.SameStream (d e : Dec) : Prop where
  alive : e.alive = d.alive
  rsp : e.rsp = d.rsp
  rate : e.rate = d.rate
  ring : e.ring = d.ring
  nW : e.nW = d.nW
  dcState : e.dcState = d.dcState
  hilbert : e.hilbert = d.hilbert
  corrState : e.corrState = d.corrState
  symbolPosAbs : e.symbolPosAbs = d.symbolPosAbs
  cfoRad : e.cfoRad = d.cfoRad
  peakPrev : e.peakPrev = d.peakPrev
  cfoReg : e.cfoReg = d.cfoReg
  modeReg : e.modeReg = d.modeReg

theorem detection_sameStream {f : Functions} {p : Params} {d : Dec} {rejected : Fsm} {turn : Turn}
    (h : d.detection f p rejected = .ok turn) :
    d.SameStream turn.dec ∧ turn.dec.code = d.code ∧ turn.dec.consPts = d.consPts ∧ turn.points = none ∧
      turn.dec.detPending = false := by
  obtain ⟨xs, -, rfl⟩ := detection_cases h
  generalize preambleResult f p (Rate.lSym d.rate) (derotate f.num d.cfoRad xs) = res
  cases res <;> exact ⟨by constructor <;> rfl, rfl, rfl, rfl, rfl⟩

theorem dataSymbol_sameStream {f : Functions} {p : Params} {d : Dec} {turn : Turn}
    (h : d.dataSymbol f p = .ok turn) : d.SameStream turn.dec := by
  obtain ⟨xs, -, -, ⟨-, e, -⟩ | ⟨-, e, -⟩⟩ := dataSymbol_cases h <;> rw [e] <;> constructor <;> rfl

theorem machineStep_sameStream {f : Functions} {p : Params} {d : Dec} {turn : Turn}
    (h : d.machineStep f p = .ok turn) : d.SameStream turn.dec := by
  rcases machineStep_cases h with ⟨-, -, rfl⟩ | ⟨-, -, h⟩ | ⟨-, -, h⟩ | ⟨-, -, -, h⟩
  · constructor <;> rfl
  · exact (detection_sameStream h).1
  · have e := dataSymbol_sameStream h
    exact ⟨e.alive, e.rsp, e.rate, e.ring, e.nW, e.dcState, e.hilbert, e.corrState, e.symbolPosAbs, e.cfoRad,
      e.peakPrev, e.cfoReg, e.modeReg⟩
  · exact (detection_sameStream h).1

/-- Channel 4 leaves the filters' state through the whole sample loop (rule R135). -/
theorem sampleLoop_iq_filters (f : Functions) (p : Params) :
    ∀ (frames : List Frame) (d : Dec),
      (d.sampleLoop f p .iq frames).dcState = d.dcState ∧ (d.sampleLoop f p .iq frames).hilbert = d.hilbert
  | [], _ => ⟨rfl, rfl⟩
  | fr :: rest, d => by
    have e : d.sampleLoop f p .iq (fr :: rest) = (d.sampleStep f p .iq fr).sampleLoop f p .iq rest := rfl
    obtain ⟨h1, h2⟩ := sampleLoop_iq_filters f p rest (d.sampleStep f p .iq fr)
    rw [e, h1, h2]
    unfold Dec.sampleStep
    rcases correlate_dec f (Dec.append d (channelPair f.num fr)) with ⟨cs, e⟩ | ⟨cs, pos, cfo, e⟩ <;>
      simp only [Dec.condition, e] <;> exact ⟨rfl, rfl⟩

/-- A step that reports sets the flag; one that does not leaves it (rules R26, R155). -/
theorem sampleStep_detPending (f : Functions) (p : Params) (ch : Channel) (d : Dec) (fr : Frame) :
    (d.sampleStep f p ch fr).detPending =
      (d.detPending || ((d.condition f p ch fr).1.append (d.condition f p ch fr).2).reports f) := by
  obtain ⟨st, h, hc, -⟩ := condition_dec f p ch d fr
  unfold Dec.sampleStep Dec.reports Dec.correlate
  simp only [hc]
  split <;> rename_i e <;> rw [e] <;> simp [Dec.append, Dec.report]

/-- Without a report no detection is pending after the loop (rule R157, P3). -/
theorem sampleLoop_no_report (f : Functions) (p : Params) (ch : Channel) :
    ∀ (frames : List Frame) (d : Dec), d.detPending = false → d.reportCount f p ch frames = 0 →
      (d.sampleLoop f p ch frames).detPending = false
  | [], _, h, _ => h
  | fr :: rest, d, h, hc => by
    have e : d.sampleLoop f p ch (fr :: rest) = (d.sampleStep f p ch fr).sampleLoop f p ch rest := rfl
    simp only [Dec.reportCount] at hc
    split at hc
    · omega
    · rename_i hr
      rw [e]
      refine sampleLoop_no_report f p ch rest _ ?_ (by omega)
      rw [sampleStep_detPending, h]
      simpa using hr

/-- What settling a preamble result can do (rules R372, R373, R376). -/
theorem settle_cases (d : Dec) (res : PreambleResult) (sp : List Cplx) (rejected : Fsm) :
    (res = .fail ∧ d.settle res sp rejected =
        { dec := { d with fsm := rejected }, status := .fail, points := none }) ∨
      (∃ mode call, res = .nope mode call ∧ d.settle res sp rejected =
        { dec := { d.cachePreamble res with fsm := rejected }, status := .nope, points := none }) ∨
      ∃ mode call, res = .okay mode call ∧ d.settle res sp rejected =
        { dec := (d.cachePreamble res).sync ((modeTable mode.toNat).getD .none) sp, status := .sync,
          points := none } := by
  cases res
  · exact .inr (.inr ⟨_, _, rfl, rfl⟩)
  · exact .inr (.inl ⟨_, _, rfl, rfl⟩)
  · exact .inl ⟨rfl, rfl⟩

/-- An OKAY result has a mode of the table and a valid call (rules R197, R203). -/
theorem classify_okay {p : Params} {cw : Option (BitVec 255)} {mode : BitVec 8} {call : BitVec 47}
    (h : classify p cw = .okay mode call) : modeValid mode = true ∧ callValid call = true := by
  unfold classify at h
  split at h
  · cases h
  · split at h
    · split at h
      · rename_i hv
        cases h
        exact Bool.and_eq_true_iff.mp hv
      · cases h
    · cases h

/-- A valid mode has a row of the mode table (rules R40, R197). -/
theorem modeTable_of_valid {mode : BitVec 8} (h : modeValid mode = true) :
    ∃ row, modeTable mode.toNat = some row := by
  have key : ∀ m : BitVec 8, modeValid m = true → (modeTable m.toNat).isSome = true := by decide
  exact Option.isSome_iff_exists.mp (key mode h)

/-- Every row of the mode table (rule R40): its products and its derived carrier offset. -/
theorem modeRow_facts {mode : Nat} {row : ModeRegs} (h : modeTable mode = some row) :
    row.carrierCount * row.symbolCount * row.modBits = row.consBits ∧ 42 ≤ row.symbolCount ∧
      row.symbolCount ≤ 126 ∧ row.carrierCount ≤ 512 ∧ (row.modBits = 2 ∨ row.modBits = 3) ∧
      row.consBits ≤ codeLen ∧ row.mesgBits - crcBits = codeLen - row.consBits ∧
      row.carrierOffset = -((row.carrierCount / 2 : Nat) : Int) := by
  unfold modeTable at h
  split at h <;> first | cases h; decide | cases h

@[simp] theorem splice_length {α : Type} (xs : List α) (off : Nat) (ys : List α) :
    (splice xs off ys).length = xs.length := by simp [splice]

/-- An entry of a spliced list (rule R237). -/
theorem splice_getElem {α : Type} {xs ys : List α} {off i : Nat} (h : i < xs.length) :
    (splice xs off ys)[i]'(by simpa using h) =
      if off ≤ i ∧ i < off + ys.length then ys.getD (i - off) xs[i] else xs[i] := by
  simp [splice]

@[simp] theorem carrierValues_length (lSym : Nat) (m : ModeRegs) (sp : List Cplx) :
    (carrierValues lSym m sp).length = m.carrierCount := by simp [carrierValues]

@[simp] theorem demodulate_code_length (f : Functions) (p : Params) (d : Dec) (xs : List Cplx) :
    (d.demodulate f p xs).code.length = d.code.length := by simp [Dec.demodulate]

@[simp] theorem demodulate_prev_length (f : Functions) (p : Params) (d : Dec) (xs : List Cplx) :
    (d.demodulate f p xs).prev.length = d.mode.carrierCount := by simp [Dec.demodulate]

/-- One data symbol gives `mod_bits` soft bits per carrier (rules R232, R237). -/
theorem softBits_length (f : Functions) (p : Params) (m : ModeRegs) (cons : List Cplx) :
    (softBits f p m cons).length = m.modBits * cons.length := by
  simp [softBits, List.length_flatMap, Nat.mul_comm]

@[simp] theorem equalize_length (f : Functions) (p : Params) (m : ModeRegs) (curr prev : List Cplx) :
    (equalize f p m curr prev).length = m.carrierCount := by
  simp [equalize, compensate, demapCarriers]

/-! ### The pixel buffers (46_visualization.md) -/

theorem length_map_range {α : Type} (g : Nat → α) (n : Nat) : ((List.range n).map g).length = n := by
  rw [List.length_map, List.length_range]

@[simp] theorem specImage_length (f : Functions) (n : Nat) (level : Nat → Rat) :
    (specImage f n level).length = 640 * 64 := by
  unfold specImage
  exact length_map_range _ _

/-- An element of SPEC (rule R342). -/
theorem specImage_getElem? (f : Functions) (n : Nat) (level : Nat → Rat) {i : Nat} (h : i < 640 * 64) :
    (specImage f n level)[i]? =
      some (if onPolyline (specRow f n level) (segmentSplit f n (specRow f n level)) (i % 640) (i / 640) then pixelOn
        else pixelOff) := by
  unfold specImage
  rw [List.getElem?_map, List.getElem?_range h, Option.map_some]

@[simp] theorem sgramImage_length (f : Functions) (n : Nat) (level : Nat → Rat) (old : Buffer 32) :
    (sgramImage f n level old).length = 640 * 256 := by
  unfold sgramImage
  exact length_map_range _ _

/-- An element of SGRAM: the new row above the old ones (rule R343). -/
theorem sgramImage_getElem? (f : Functions) (n : Nat) (level : Nat → Rat) (old : Buffer 32) {i : Nat}
    (h : i < 640 * 256) :
    (sgramImage f n level old)[i]? =
      some (if i < 640 then palette (fun c => f.drawBit n (8 * i + 1 + c)) (normalizedDb (level i))
        else old.read (i - 640)) := by
  unfold sgramImage
  rw [List.getElem?_map, List.getElem?_range h, Option.map_some]

@[simp] theorem consImage_length (f : Functions) (n : Nat) (pts : Option (List Cplx)) :
    (consImage f n pts).length = 64 * 64 := by
  unfold consImage
  cases pts <;> exact length_map_range _ _

/-- An element of CONS after a data symbol (rule R345). -/
theorem consImage_getElem? (f : Functions) (n : Nat) (pts : List Cplx) {i : Nat} (h : i < 64 * 64) :
    (consImage f n (some pts))[i]? =
      some (if (pts.filterMap consIndex).contains i then pixelOn else pixelOff) := by
  unfold consImage
  simp only [List.getElem?_map, List.getElem?_range h, Option.map_some]

/-- A split lies on its segment: at least one row of the segment stays for the right column (rule R342). -/
theorem segmentSplit_lt (f : Functions) (n : Nat) (row : Nat → Nat) (x : Nat) (h : row x ≠ row (x + 1)) :
    segmentSplit f n row x < rowDistance (row x) (row (x + 1)) :=
  Nat.mod_lt _ (by unfold rowDistance; omega)

/-- An open rounding is a whole number next to the value (rule R342). -/
theorem roundOpen_near (up : Bool) {q : Rat} (h : 0 ≤ q) :
    (roundOpen up q : Rat) - 1 < q ∧ q < (roundOpen up q : Rat) + 1 := by
  have hf : ((q.floor.toNat : Nat) : Rat) = (q.floor : Rat) := by
    exact_mod_cast Int.toNat_of_nonneg (Rat.le_floor_iff.mpr (by simpa using h))
  have h1 : (q.floor : Rat) ≤ q := Rat.floor_le q
  have h2 : q < (q.floor : Rat) + 1 := by exact_mod_cast Rat.lt_floor_add_one q
  unfold roundOpen
  dsimp only
  split
  · rename_i e
    constructor <;> linarith
  · rename_i e
    have h3 : (q.floor : Rat) < q := lt_of_le_of_ne h1 (by rw [← hf]; exact fun h => e h.symm)
    split <;> push_cast <;> constructor <;> linarith

@[simp] theorem peakImage_length (st : PeakStyle) (shown : Nat) : (peakImage st shown).length = 16 := by
  simp only [peakImage, List.length_map, List.length_range]

/-- The peak level of a block is at most 32768 (rule R346). -/
theorem peakOf_le (frames : List Frame) : peakOf frames ≤ 32768 := by
  have key : ∀ (fs : List Frame) (m : Nat), m ≤ 32768 →
      fs.foldl (fun m fr => max m (max fr.left.toInt.natAbs fr.right.toInt.natAbs)) m ≤ 32768 := by
    intro fs
    induction fs with
    | nil => exact fun m h => h
    | cons fr rest ih =>
      intro m h
      apply ih
      show max m (max fr.left.toInt.natAbs fr.right.toInt.natAbs) ≤ 32768
      have h1 := BitVec.toInt_lt (x := fr.left)
      have h2 := BitVec.le_toInt (x := fr.left)
      have h3 := BitVec.toInt_lt (x := fr.right)
      have h4 := BitVec.le_toInt (x := fr.right)
      norm_num at h1 h2 h3 h4
      omega
  exact key frames 0 (by omega)

end Sys2Proof.Machine
end

