-- ==== Sys2Proof/Laws/Operations.lean ====
section
/-! SUPPORT. What the shared operations answer: the checks on units and buffers, PROCESS as one block of work, the pixel
buffers, lengthening, the slices of RECOVER. -/

namespace Sys2Proof.Machine

/-! ### Checks (rules R76, R86, R406) -/

theorem misfitBuffer_eq_none_iff {b : Buffers} :
    ∀ {lengths : List (Space × Nat)}, misfitBuffer b lengths = none ↔ ∀ need ∈ lengths, b.lenOf need.1 = need.2
  | [] => by simp [misfitBuffer]
  | (sp, n) :: rest => by
    simp only [misfitBuffer, List.forall_mem_cons]
    split
    · rename_i h
      rw [misfitBuffer_eq_none_iff]
      exact ⟨fun hr => ⟨h, hr⟩, fun hr => hr.2⟩
    · rename_i h
      simp [h]

theorem misfitBuffer_eq_some {b : Buffers} {sp : Space} :
    ∀ {lengths : List (Space × Nat)}, misfitBuffer b lengths = some sp → ∃ n, (sp, n) ∈ lengths ∧ b.lenOf sp ≠ n
  | (sp', n) :: rest, h => by
    simp only [misfitBuffer] at h
    split at h
    · obtain ⟨m, hm, hne⟩ := misfitBuffer_eq_some h
      exact ⟨m, List.mem_cons_of_mem _ hm, hne⟩
    · rename_i hne
      cases h
      exact ⟨n, List.mem_cons_self, hne⟩

theorem whenLengthsFit_of_fits {s : State} {lengths : List (Space × Nat)} {body : Result}
    (h : ∀ need ∈ lengths, s.bufs.lenOf need.1 = need.2) : whenLengthsFit s lengths body = body := by
  unfold whenLengthsFit
  rw [misfitBuffer_eq_none_iff.mpr h]

theorem whenLengthsFit_of_misfit {s : State} {lengths : List (Space × Nat)} {sp : Space}
    (h : misfitBuffer s.bufs lengths = some sp) (body : Result) :
    whenLengthsFit s lengths body = .refused (.bufferWrongLength sp) := by
  unfold whenLengthsFit
  rw [h]

theorem whenLengthsFit_next {s t : State} {lengths : List (Space × Nat)} {body : Result}
    (h : whenLengthsFit s lengths body = .next t) :
    body = .next t ∧ ∀ need ∈ lengths, s.bufs.lenOf need.1 = need.2 := by
  unfold whenLengthsFit at h
  split at h
  · cases h
  · rename_i hs
    exact ⟨h, misfitBuffer_eq_none_iff.mp hs⟩

theorem whenLengthsFit_refused {s : State} {lengths : List (Space × Nat)} {body : Result} {r : Refusal}
    (h : whenLengthsFit s lengths body = .refused r) :
    (∃ sp n, r = .bufferWrongLength sp ∧ (sp, n) ∈ lengths ∧ s.bufs.lenOf sp ≠ n) ∨ body = .refused r := by
  unfold whenLengthsFit at h
  split at h
  · rename_i sp hs
    cases h
    obtain ⟨n, hn, hne⟩ := misfitBuffer_eq_some hs
    exact .inl ⟨sp, n, rfl, hn, hne⟩
  · exact .inr h

theorem whenDecCreated_created {s : State} (h : s.dec.alive = .created) (body : Result) :
    whenDecCreated s body = body := by unfold whenDecCreated; rw [h]

theorem whenDecCreated_absent {s : State} (h : s.dec.alive = .absent) (body : Result) :
    whenDecCreated s body = .next (s.decRespond rspErr) := by unfold whenDecCreated; rw [h]; rfl

theorem whenErsCreated_created {s : State} (h : s.ers.alive = .created) (body : Result) :
    whenErsCreated s body = body := by unfold whenErsCreated; rw [h]

theorem whenErsCreated_absent {s : State} (h : s.ers.alive = .absent) (body : Result) :
    whenErsCreated s body = .next (s.ersRespond rspErr) := by unfold whenErsCreated; rw [h]; rfl

@[simp] theorem spacesOverlap_nil (handed : List Space) : spacesOverlap [] handed = false := rfl

/-! ### The erasure unit's operations on a created unit (rules R305, R310) -/

theorem execChunk_of_slot {s : State} {idx : BitVec 4} (ident : BitVec 16) (h : s.ers.alive = .created)
    (hi : idx.toNat < 12) : execChunk idx ident s =
      if s.bufs.chunkin.len < s.params.chunkHdr + chunkLen then .refused (.bufferTooShort (.byte .chunkin))
      else
        .next { s with
          ers := { s.ers with slots := s.ers.slots.set idx.toNat (chunkSlot s ident) hi, rsp := rspBool true } } := by
  unfold execChunk
  rw [whenErsCreated_created h, dif_pos hi]

/-- The slots after one of them was written (rule R305). -/
theorem slot_set (e : Ers) {r : Nat} (h : r < 12) (sl : Slot) (rsp : Word) (k : Nat) :
    Ers.slot { e with slots := e.slots.set r sl h, rsp := rsp } k = if k = r then sl else e.slot k := by
  unfold Ers.slot
  simp only [List.getD_eq_getElem?_getD, Vector.getElem?_toList, Vector.getElem?_set]
  split <;> rename_i e
  · rw [if_pos e.symm]; rfl
  · rw [if_neg fun e' => e e'.symm]

theorem execRecover_refused {s : State} {count : BitVec 4} {total : BitVec 20} {r : Refusal}
    (h : s.ers.alive = .created) (hc : countLegal count = true)
    (hr : recoverRefusal s total.toNat count.toNat = some r) : execRecover count total s = .refused r := by
  unfold execRecover
  rw [if_pos hc, whenErsCreated_created h, hr]

theorem execRecover_next {s : State} {count : BitVec 4} {total : BitVec 20} (h : s.ers.alive = .created)
    (hc : countLegal count = true) (hr : recoverRefusal s total.toNat count.toNat = none) :
    execRecover count total s = .next (recoverNext s total.toNat count.toNat) := by
  unfold execRecover
  rw [if_pos hc, whenErsCreated_created h, hr]

/-! ### PROCESS as one block of work (rule R363) -/

/-- PROCESS answers a next state exactly when its buffers do not overlap and have their lengths, and its turn of the burst
machine is not refused. -/
theorem processWith_next_iff {f : Functions} {ch : Channel} {s t : State} :
    processWith f ch s = .next t ↔
      spacesOverlap s.overlaps ((processLengths s.dec.rate ch).map Prod.fst) = false ∧
        (∀ need ∈ processLengths s.dec.rate ch, s.bufs.lenOf need.1 = need.2) ∧
        ∃ turn, processTurn f ch s = .ok turn ∧ t = processNext f ch s turn := by
  unfold processWith
  constructor
  · intro h
    split at h
    · cases h
    · rename_i ho
      obtain ⟨h, hl⟩ := whenLengthsFit_next h
      refine ⟨by simpa using ho, hl, ?_⟩
      split at h
      · cases h
      · rename_i turn ht
        cases h
        exact ⟨turn, ht, rfl⟩
  · rintro ⟨ho, hl, turn, ht, rfl⟩
    rw [if_neg (by simp [ho]), whenLengthsFit_of_fits hl, ht]

/-- Why PROCESS refuses on a created unit. -/
theorem processWith_refused {f : Functions} {ch : Channel} {s : State} {r : Refusal}
    (h : processWith f ch s = .refused r) :
    (r = .buffersOverlap ∧ spacesOverlap s.overlaps ((processLengths s.dec.rate ch).map Prod.fst) = true) ∨
      (∃ sp n, r = .bufferWrongLength sp ∧ (sp, n) ∈ processLengths s.dec.rate ch ∧ s.bufs.lenOf sp ≠ n) ∨ processTurn f ch s = .error r := by
  unfold processWith at h
  split at h
  · rename_i ho; cases h; exact .inl ⟨rfl, ho⟩
  · rcases whenLengthsFit_refused h with h | h
    · exact .inr (.inl h)
    · split at h
      · rename_i r' ht
        cases h
        exact .inr (.inr ht)
      · cases h

/-- The sample loop of a PROCESS leaves the burst's registers, counts the block and keeps the ring's length
(rules R136, R363). -/
theorem processLoop_spec (f : Functions) (ch : Channel) (s : State) (hr : s.dec.ring.length = Rate.ringCap s.dec.rate) :
    s.dec.SameBurst (s.dec.sampleLoop f s.params ch (processFrames ch s)) ∧
      (s.dec.sampleLoop f s.params ch (processFrames ch s)).nW = s.dec.nW + Rate.lExt s.dec.rate ∧
      (s.dec.sampleLoop f s.params ch (processFrames ch s)).ring.length = Rate.ringCap s.dec.rate := by
  obtain ⟨sb, hn, hring, -⟩ := sampleLoop_spec f s.params ch (processFrames ch s) s.dec
  exact ⟨sb, by simpa [processFrames] using hn, hring hr⟩

/-- In a burst the ring of the unit after the sample loop holds the next data symbol (rules R30, R374). -/
theorem processLoop_holds {f : Functions} {ch : Channel} {s : State} (hl : s.dec.Live) (hf : s.dec.fsm = .synced) :
    (Dec.window { s.dec.sampleLoop f s.params ch (processFrames ch s) with detPending := false }
      (s.dec.sampleLoop f s.params ch (processFrames ch s)).dataBase).isSome := by
  obtain ⟨sb, hn, hring⟩ := processLoop_spec f ch s hl.ring
  obtain ⟨-, h1, h2⟩ := hl.running hf
  generalize s.dec.sampleLoop f s.params ch (processFrames ch s) = d at *
  rw [window_isSome_iff (by simpa [sb.rate] using hring)]
  unfold Dec.HoldsSymbol Dec.dataBase
  dsimp only
  rw [sb.rate, sb.symbolPositionAbs, sb.symbolNumber, hn]
  push_cast
  constructor <;> linarith

/-- In a burst, under `RESYNC = ignore` or without a detection, the turn of the burst machine is one data symbol (rules
R371, R377). -/
theorem processTurn_in_burst (f : Functions) (ch : Channel) {s : State} (hl : s.dec.Live) (hf : s.dec.fsm = .synced)
    (hr : s.params.resync = .ignore ∨ (s.dec.sampleLoop f s.params ch (processFrames ch s)).detPending = false) :
    ∃ turn, processTurn f ch s = .ok turn ∧
      Dec.dataSymbol f s.params
        { s.dec.sampleLoop f s.params ch (processFrames ch s) with detPending := false } = .ok turn := by
  have hw := processLoop_holds (f := f) (ch := ch) hl hf
  obtain ⟨sb, -, -⟩ := processLoop_spec f ch s hl.ring
  unfold processTurn
  generalize s.dec.sampleLoop f s.params ch (processFrames ch s) = d at *
  obtain ⟨turn, ht⟩ := dataSymbol_ok (f := f) (p := s.params) (d := { d with detPending := false }) hw
  refine ⟨turn, ?_, ht⟩
  unfold Dec.machineStep
  rw [show d.fsm = .synced from sb.fsm.trans hf]
  cases hp : d.detPending
  · rwa [show ({ d with detPending := false } : Dec) = d by cases d; cases hp; rfl] at ht
  · simp only [hr.resolve_right (by simp [hp])]
    rwa [show d.fsm = .synced from sb.fsm.trans hf] at ht

/-- The burst machine refuses for one reason. -/
theorem machineStep_error {f : Functions} {p : Params} {d : Dec} {r : Refusal}
    (h : d.machineStep f p = .error r) : r = .ringReadOutside := by
  have hdata : ∀ (e : Dec) (r' : Refusal), e.dataSymbol f p = .error r' → r' = .ringReadOutside := by
    intro e r' he
    unfold Dec.dataSymbol at he
    split at he
    · cases he; rfl
    · dsimp only at he; split at he <;> cases he
  have hdet : ∀ (rej : Fsm) (r' : Refusal), d.detection f p rej = .error r' → r' = .ringReadOutside := by
    intro rej r' he
    unfold Dec.detection at he
    split at he <;> cases he
    rfl
  unfold Dec.machineStep at h
  split at h
  · exact hdata _ _ h
  · split at h
    · exact hdata _ _ h
    · exact hdet _ _ h
  · cases h
  · cases h
  · exact hdet _ _ h
  · exact hdet _ _ h

/-! ### The pixel buffers (rules R85, R340) -/

theorem buffer_sameFrom_refl {w : Nat} (b : Buffer w) (n : Nat) : b.SameFrom b n := ⟨rfl, fun _ _ => rfl⟩

theorem buffer_sameFrom_write {w : Nat} (b : Buffer w) (vs : List (BitVec w)) {n : Nat} (h : vs.length ≤ n) :
    b.SameFrom (b.writeFrom 0 vs) n :=
  ⟨rfl, fun _ hk => buffer_read_writeFrom_outside (.inr (by omega))⟩

theorem buffer_read_write_zero {w : Nat} {b : Buffer w} {vs : List (BitVec w)} (hb : b.wf = true)
    (hl : vs.length ≤ b.len) {k : Nat} (hk : k < vs.length) : (b.writeFrom 0 vs).read k = vs[k] := by
  have := buffer_read_writeFrom_inside (b := b) (start := 0) (vs := vs) hb (by omega) hk
  simpa using this

/-- Writing the four pixel spaces from index 0 touches them only, and those within the lengths written. -/
theorem pixels_sameFrom {b : Buffers} {n : Space → Nat} {v1 v2 v3 v4 : List Word}
    (h1 : v1.length ≤ n (.pixel .spec)) (h2 : v2.length ≤ n (.pixel .sgram)) (h3 : v3.length ≤ n (.pixel .cons))
    (h4 : v4.length ≤ n (.pixel .peak)) :
    b.SameFrom (b.drawPixels v1 v2 v3 v4) n :=
  ⟨buffer_sameFrom_refl _ _, buffer_sameFrom_write _ _ h1, buffer_sameFrom_write _ _ h2,
    buffer_sameFrom_write _ _ h3, buffer_sameFrom_write _ _ h4, buffer_sameFrom_refl _ _, buffer_sameFrom_refl _ _,
    buffer_sameFrom_refl _ _, buffer_sameFrom_refl _ _⟩

/-- Drawing keeps every length, touches the four pixel spaces only, and those within their sizes. -/
theorem drawBuffers_sameFrom (f : Functions) (p : Params) (n : Nat) (d : Dec) (pts : Option (List Cplx))
    (frames : List Frame) (b : Buffers) (ch : BitVec 3) :
    b.SameFrom (drawBuffers f p n d pts frames b) (writeRange (.process ch)) :=
  pixels_sameFrom (Nat.le_of_eq (specImage_length ..)) (Nat.le_of_eq (sgramImage_length ..))
    (Nat.le_of_eq (consImage_length ..)) (Nat.le_of_eq (peakImage_length ..))

theorem buffers_wf_iff {b : Buffers} : b.wf = true ↔
    b.audio.wf = true ∧ b.spec.wf = true ∧ b.sgram.wf = true ∧ b.cons.wf = true ∧ b.peak.wf = true ∧
      b.call9.wf = true ∧ b.payload.wf = true ∧ b.chunkin.wf = true ∧ b.out.wf = true := by
  simp only [Buffers.wf, Bool.and_eq_true, and_assoc]

theorem pixels_wf {b : Buffers} {v1 v2 v3 v4 : List Word} (hb : b.wf = true) (h1 : v1.length ≤ b.spec.len)
    (h2 : v2.length ≤ b.sgram.len) (h3 : v3.length ≤ b.cons.len) (h4 : v4.length ≤ b.peak.len) :
    (b.drawPixels v1 v2 v3 v4).wf = true := by
  rw [buffers_wf_iff] at hb ⊢
  obtain ⟨g1, g2, g3, g4, g5, g6⟩ := hb
  exact ⟨g1, buffer_writeFrom_wf g2 (by omega), buffer_writeFrom_wf g3 (by omega), buffer_writeFrom_wf g4 (by omega),
    buffer_writeFrom_wf g5 (by omega), g6⟩

/-- The four pixel spaces of a PROCESS hold exactly as many elements as their images (rule R72). -/
theorem processLengths_pixels {b : Buffers} {r : Rate} {ch : Channel}
    (hl : ∀ need ∈ processLengths r ch, b.lenOf need.1 = need.2) :
    b.spec.len = 640 * 64 ∧ b.sgram.len = 640 * 256 ∧ b.cons.len = 64 * 64 ∧ b.peak.len = 16 :=
  ⟨hl (.pixel .spec, 640 * 64) (by simp [processLengths]), hl (.pixel .sgram, 640 * 256) (by simp [processLengths]),
    hl (.pixel .cons, 64 * 64) (by simp [processLengths]), hl (.pixel .peak, 16) (by simp [processLengths])⟩

/-- Drawing keeps the canonical form of buffers of the lengths of rule R72. -/
theorem drawBuffers_wf {f : Functions} {p : Params} {n : Nat} {d : Dec} {pts : Option (List Cplx)}
    {frames : List Frame} {b : Buffers} {r : Rate} {ch : Channel} (hb : b.wf = true)
    (hl : ∀ need ∈ processLengths r ch, b.lenOf need.1 = need.2) :
    (drawBuffers f p n d pts frames b).wf = true := by
  obtain ⟨g1, g2, g3, g4⟩ := processLengths_pixels hl
  exact pixels_wf hb (Nat.le_of_eq ((specImage_length ..).trans g1.symm))
    (Nat.le_of_eq ((sgramImage_length ..).trans g2.symm)) (Nat.le_of_eq ((consImage_length ..).trans g3.symm))
    (Nat.le_of_eq ((peakImage_length ..).trans g4.symm))

/-- A written value reads back, by position in the list written. -/
theorem buffer_read_written {w : Nat} {b : Buffer w} {vs : List (BitVec w)} {v : BitVec w} {k : Nat}
    (hb : b.wf = true) (hl : vs.length = b.len) (hv : vs[k]? = some v) : (b.writeFrom 0 vs).read k = v := by
  obtain ⟨hk, e⟩ := List.getElem?_eq_some_iff.mp hv
  rw [buffer_read_write_zero hb (Nat.le_of_eq hl) hk, e]

/-- A pixel of SPEC after PROCESS (rule R342). -/
theorem processNext_spec_read {f : Functions} {ch : Channel} {s : State} {turn : Turn} (hw : s.bufs.spec.wf = true)
    (hl : ∀ need ∈ processLengths s.dec.rate ch, s.bufs.lenOf need.1 = need.2) {k : Nat} (hk : k < 640 * 64) :
    (processNext f ch s turn).bufs.spec.read k =
      if onPolyline (specRow f s.draws (columnLevel f s.draws (turn.dec.shownSpectrum f turn.points)))
          (segmentSplit f s.draws (specRow f s.draws (columnLevel f s.draws (turn.dec.shownSpectrum f turn.points))))
          (k % 640) (k / 640) then pixelOn
      else pixelOff :=
  buffer_read_written hw ((specImage_length ..).trans (processLengths_pixels hl).1.symm) (specImage_getElem? _ _ _ hk)

/-- A pixel of SGRAM after PROCESS (rules R343, R344). -/
theorem processNext_sgram_read {f : Functions} {ch : Channel} {s : State} {turn : Turn} (hw : s.bufs.sgram.wf = true)
    (hl : ∀ need ∈ processLengths s.dec.rate ch, s.bufs.lenOf need.1 = need.2) {k : Nat} (hk : k < 640 * 256) :
    (processNext f ch s turn).bufs.sgram.read k =
      if k < 640 then
        palette (fun c => f.drawBit s.draws (8 * k + 1 + c))
          (normalizedDb (columnLevel f s.draws (turn.dec.shownSpectrum f turn.points) k))
      else s.bufs.sgram.read (k - 640) :=
  buffer_read_written hw ((sgramImage_length ..).trans (processLengths_pixels hl).2.1.symm)
    (sgramImage_getElem? _ _ _ _ hk)

/-- A pixel of CONS after a PROCESS that demodulated a data symbol (rule R345). -/
theorem processNext_cons_read {f : Functions} {ch : Channel} {s : State} {turn : Turn} {pts : List Cplx}
    (hw : s.bufs.cons.wf = true) (hl : ∀ need ∈ processLengths s.dec.rate ch, s.bufs.lenOf need.1 = need.2)
    (hp : turn.points = some pts) {k : Nat} (hk : k < 64 * 64) :
    (processNext f ch s turn).bufs.cons.read k =
      if (pts.filterMap consIndex).contains k then pixelOn else pixelOff :=
  buffer_read_written hw ((consImage_length ..).trans (processLengths_pixels hl).2.2.1.symm)
    (hp ▸ consImage_getElem? f s.draws pts hk)

/-- Binding and the environment's moves keep the canonical form (rule R70). -/
theorem hostSets_wf {s : State} (hb : s.bufs.wf = true) (m : HostMove) : (s.hostSets m).bufs.wf = true := by
  have h := buffers_wf_iff.mp hb
  cases m with
  | command u w => exact hb
  | bindAudio vs =>
    rw [buffers_wf_iff]
    exact ⟨buffer_ofList_wf vs, h.2⟩
  | bindPixels sp vs =>
    have hw := buffer_ofList_wf vs
    obtain ⟨h1, h2, h3, h4, h5, h6, h7, h8, h9⟩ := h
    rw [buffers_wf_iff]
    cases sp
    · exact ⟨h1, hw, h3, h4, h5, h6, h7, h8, h9⟩
    · exact ⟨h1, h2, hw, h4, h5, h6, h7, h8, h9⟩
    · exact ⟨h1, h2, h3, hw, h5, h6, h7, h8, h9⟩
    · exact ⟨h1, h2, h3, h4, hw, h6, h7, h8, h9⟩
  | bindBytes sp vs =>
    have hw := buffer_ofList_wf vs
    obtain ⟨h1, h2, h3, h4, h5, h6, h7, h8, h9⟩ := h
    rw [buffers_wf_iff]
    cases sp
    · exact ⟨h1, h2, h3, h4, h5, hw, h7, h8, h9⟩
    · exact ⟨h1, h2, h3, h4, h5, h6, hw, h8, h9⟩
    · exact ⟨h1, h2, h3, h4, h5, h6, h7, hw, h9⟩
    · exact ⟨h1, h2, h3, h4, h5, h6, h7, h8, hw⟩
  | bindOverlaps pairs => exact hb
  | setAllocOk ok => exact hb
  | powerOn => exact hb

/-! ### FETCH (rules R263, R281) -/

theorem lengthenDown_length (limit : Nat) (konst : SoftBit) :
    ∀ (flags : List Bool) (m : Nat) (rx out : List SoftBit),
      (lengthenDown limit konst flags m rx out).length = flags.length + out.length
  | [], _, _, _ => by simp [lengthenDown]
  | true :: flags, m, rx, out => by
    rw [lengthenDown, lengthenDown_length]
    simp only [List.length_cons]
    omega
  | false :: flags, m, rx, out => by
    rw [lengthenDown]
    split <;> rw [lengthenDown_length] <;> simp only [List.length_cons] <;> omega

@[simp] theorem lengthen_length (limit : Nat) (konst : SoftBit) (frozen : List Bool) (cons mesg : Nat)
    (code : List SoftBit) : (lengthen limit konst frozen cons mesg code).length = frozen.length := by
  rw [lengthen, lengthenDown_length]
  simp

theorem frozenOk_iff {frozen : List Bool} {mesg : Nat} :
    frozenOk frozen mesg = true ↔ frozen.length = codeLen ∧ frozen.count false = mesg := by
  simp [frozenOk]

@[simp] theorem packBytes_length : ∀ (n : Nat) (bits : List Bool), (packBytes n bits).length = n
  | 0, _ => rfl
  | n + 1, bits => by rw [packBytes, List.length_cons, packBytes_length]

@[simp] theorem scrambleFrom_length : ∀ (n : Nat) (y : Word), (scrambleFrom y n).length = n
  | 0, _ => rfl
  | n + 1, y => by rw [scrambleFrom, List.length_cons, scrambleFrom_length]

@[simp] theorem payloadBytes_length (p : Params) (msg : List Bool) : (payloadBytes p msg).length = payloadLen := by
  simp [payloadBytes, scrambleStream]

@[simp] theorem freePayload_length (f : Functions) (n : Nat) : (freePayload f n).length = payloadLen := by
  simp [freePayload]

/-- FETCH writes 5380 bytes from index 0, whatever its answer (rule R85). -/
theorem fetchNext_payload (f : Functions) (s : State) :
    ∃ bytes, bytes.length = payloadLen ∧
      (fetchNext f s).bufs = { s.bufs with payload := s.bufs.payload.writeFrom 0 bytes } := by
  unfold fetchNext
  dsimp only
  split <;> exact ⟨_, by simp, rfl⟩

@[simp] theorem scatter_length : ∀ (flags u : List Bool), (scatter flags u).length = flags.length
  | [], _ => rfl
  | true :: flags, u => by rw [scatter, List.length_cons, scatter_length, List.length_cons]
  | false :: flags, u => by rw [scatter, List.length_cons, scatter_length, List.length_cons]

theorem gather_length :
    ∀ (flags xs : List Bool), xs.length = flags.length → (gather flags xs).length = flags.count false
  | [], [], _ => rfl
  | false :: flags, x :: xs, h => by
    rw [gather, List.length_cons, gather_length flags xs (by simpa using h)]
    simp
  | true :: flags, x :: xs, h => by
    rw [gather, gather_length flags xs (by simpa using h)]
    simp

theorem polarTransform_length : ∀ (n : Nat) (u : List Bool), u.length = 2 ^ n → (polarTransform n u).length = 2 ^ n
  | 0, _, h => h
  | n + 1, u, h => by
    have hp : 2 ^ (n + 1) = 2 ^ n + 2 ^ n := by omega
    have h1 := polarTransform_length n (u.take (2 ^ n)) (by rw [List.length_take]; omega)
    have h2 := polarTransform_length n (u.drop (2 ^ n)) (by rw [List.length_drop]; omega)
    simp only [polarTransform, List.length_append, List.length_zipWith, h1, h2]
    omega

/-- A lane's word has 65536 bits and its message one bit per non-frozen position (rule R279). -/
theorem laneOf_lengths (f : Functions) {frozen : List Bool} {mesg : Nat} (code : List SoftBit) (l : Nat)
    (h : frozenOk frozen mesg = true) :
    (laneOf f frozen mesg code l).word.length = codeLen ∧ (laneOf f frozen mesg code l).message.length = mesg := by
  obtain ⟨hl, hc⟩ := frozenOk_iff.mp h
  have hu (u : List Bool) : (polarTransform codeOrder (scatter frozen u)).length = frozen.length := by
    rw [polarTransform_length codeOrder _ (by rw [scatter_length, hl]; rfl), hl]
    rfl
  exact ⟨(hu _).trans hl, (gather_length _ _ (hu _)).trans hc⟩

/-! ### RECOVER (rules R310, R311) -/

/-- The slices of blocks `0 .. n` add up to `min(n·S, total_size)`. -/
theorem slices_sum (total count : Nat) : ∀ n : Nat,
    ((List.range n).map (sliceOf total count)).sum = min (n * sliceLen total count) total
  | 0 => by simp
  | n + 1 => by
    rw [List.range_succ, List.map_append, List.sum_append, slices_sum]
    simp only [List.map_cons, List.map_nil, List.sum_cons, List.sum_nil, sliceOf, Nat.add_mul, Nat.one_mul]
    omega

theorem sliceLen_covers {total count : Nat} (h : 0 < count) : total ≤ count * sliceLen total count := by
  have h1 := Nat.div_add_mod (total + count - 1) count
  have h2 := Nat.mod_lt (total + count - 1) h
  unfold sliceLen
  omega

/-- RECOVER emits exactly `total_size` bytes (rule R311). -/
theorem recovered_length (p : Params) (e : Ers) {total count : Nat} (h : 0 < count) :
    (e.recovered p total count).length = total := by
  have hs := slices_sum total count count
  have hc := sliceLen_covers (total := total) h
  simp only [Ers.recovered, List.length_flatMap, List.length_map, List.length_range]
  rw [show (fun i => sliceOf total count i) = sliceOf total count from rfl, hs]
  omega

end Sys2Proof.Machine
end

