-- ==== Sys2Proof/Laws/PerInstr.lean ====
section
/-! SUPPORT. A law of every operation as syntax: its word lies in its row of the opcode map (rule R107). -/

namespace Sys2Proof.Laws.EncodesInRow

/-- The word of the operation selects its row, and its opcode is the row's low byte (rules R101, R107). -/
def Statement (i : Instr) : Prop :=
  encode i &&& rowMask i = rowMatch i ∧ opcodeOf (encode i) = (rowMatch i).extractLsb' 0 8

/-- Format Z (rule R102). -/
theorem formatZ (opcode : BitVec 8) :
    encodeZ opcode &&& 0xFFFFFFFF#32 = opcode.zeroExtend 32 ∧ opcodeOf (encodeZ opcode) = opcode := by
  revert opcode
  decide +kernel

/-- Format S (rule R103). -/
theorem formatS (opcode : BitVec 8) (sel : BitVec 3) :
    encodeS opcode sel &&& 0xFFFFF8FF#32 = opcode.zeroExtend 32 ∧ opcodeOf (encodeS opcode sel) = opcode := by
  revert opcode sel
  decide +kernel

/-- Joining fields: a mask that is zero on the middle field leaves the fields around it. -/
theorem formatK (idx : BitVec 4) (ident : BitVec 16) :
    encodeK 0x12 idx ident &&& 0xF00000FF#32 = 0x12#32 ∧ opcodeOf (encodeK 0x12 idx ident) = 0x12#8 := by
  constructor
  · apply BitVec.eq_of_getLsbD_eq
    intro i hi
    simp only [encodeK, BitVec.getLsbD_and, BitVec.getLsbD_append]
    interval_cases i <;> simp
  · apply BitVec.eq_of_getLsbD_eq
    intro i hi
    simp only [opcodeOf, encodeK, BitVec.getLsbD_extractLsb', BitVec.getLsbD_append]
    interval_cases i <;> simp

/-- Format V (rule R105). -/
theorem formatV (count : BitVec 4) (total : BitVec 20) :
    encodeV 0x13 count total &&& 0x000000FF#32 = 0x13#32 ∧ opcodeOf (encodeV 0x13 count total) = 0x13#8 := by
  constructor
  · apply BitVec.eq_of_getLsbD_eq
    intro i hi
    simp only [encodeV, BitVec.getLsbD_and, BitVec.getLsbD_append]
    interval_cases i <;> simp
  · apply BitVec.eq_of_getLsbD_eq
    intro i hi
    simp only [opcodeOf, encodeV, BitVec.getLsbD_extractLsb', BitVec.getLsbD_append]
    interval_cases i <;> simp

theorem create (sel : BitVec 3) : Statement (.create sel) := formatS 0x00 sel
theorem destroy : Statement .destroy := formatZ 0x01
theorem rate : Statement .rate := formatZ 0x02
theorem process (ch : BitVec 3) : Statement (.process ch) := formatS 0x03 ch
theorem cached : Statement .cached := formatZ 0x04
theorem fetch : Statement .fetch := formatZ 0x05
theorem ecreate : Statement .ecreate := formatZ 0x10
theorem edestroy : Statement .edestroy := formatZ 0x11
theorem chunk (idx : BitVec 4) (ident : BitVec 16) : Statement (.chunk idx ident) := formatK idx ident
theorem recover (count : BitVec 4) (total : BitVec 20) : Statement (.recover count total) := formatV count total

end Sys2Proof.Laws.EncodesInRow
end

