-- ==== Sys2Proof/Laws/Transform.lean ====
section
/-! SUPPORT. The transform of rule R182: the kernel and the exact transform against the complex exponential, and a bin
of the float32 spectrum against the exact transform. -/

namespace Sys2Proof.Machine

/-- The complex number with the parts of an exact one. -/
noncomputable def CRat.toC (z : CRat) : ℂ := ⟨(z.re : ℝ), (z.im : ℝ)⟩

@[simp] theorem toC_add (z w : CRat) : (z.add w).toC = z.toC + w.toC := by
  apply Complex.ext <;> simp [CRat.toC, CRat.add]

@[simp] theorem toC_mul (z w : CRat) : (z.mul w).toC = z.toC * w.toC := by
  apply Complex.ext <;> simp [CRat.toC, CRat.mul]

@[simp] theorem toC_over (z : CRat) (q : Rat) : (z.over q).toC = z.toC / (q : ℂ) := by
  rw [show (q : ℂ) = ((q : ℝ) : ℂ) from (Complex.ofReal_ratCast q).symm]
  apply Complex.ext
  · rw [Complex.div_ofReal_re]
    exact Rat.cast_div _ _
  · rw [Complex.div_ofReal_im]
    exact Rat.cast_div _ _

theorem expTerm_toC (z : CRat) (m : Nat) : (expTerm z m).toC = z.toC ^ m / (m.factorial : ℂ) := by
  induction m with
  | zero => apply Complex.ext <;> simp [expTerm, CRat.toC]
  | succ m ih =>
    have h : ((m.factorial : ℂ)) ≠ 0 := by exact_mod_cast Nat.factorial_ne_zero m
    have h' : ((m : ℂ) + 1) ≠ 0 := by exact_mod_cast Nat.succ_ne_zero m
    simp only [expTerm, toC_over, toC_mul, ih, pow_succ, Nat.factorial_succ]
    push_cast
    field_simp

theorem expSum_toC (z : CRat) (n : Nat) :
    (expSum z n).toC = ∑ m ∈ Finset.range n, z.toC ^ m / (m.factorial : ℂ) := by
  induction n with
  | zero => apply Complex.ext <;> simp [expSum, CRat.toC]
  | succ n ih => rw [Finset.sum_range_succ, ← ih, ← expTerm_toC, ← toC_add, expSum]

/-- The kernel is `exp(−2πi·j/N)` to eighteen digits (rule R182). -/
theorem twiddle_near {size j : Nat} (h : j < size) :
    ‖(twiddle size j).toC - Complex.exp (-(2 * Real.pi * j / size : ℝ) * Complex.I)‖ ≤ 1 / 10 ^ 18 := by
  have hN : (0 : ℝ) < size := by exact_mod_cast Nat.zero_lt_of_lt h
  obtain ⟨t, ht⟩ : ∃ t : ℝ, t = (j : ℝ) / size := ⟨_, rfl⟩
  have ht0 : 0 ≤ t := ht ▸ by positivity
  have ht1 : t ≤ 1 := by
    rw [ht, div_le_one hN]
    exact_mod_cast h.le
  obtain ⟨a, ha⟩ : ∃ a : ℝ, a = -(2 * (piDigits : ℝ) * t) := ⟨_, rfl⟩
  have ea : ({ re := 0, im := -(2 * piDigits * j / size) } : CRat).toC = (a : ℂ) * Complex.I := by
    apply Complex.ext <;> simp [CRat.toC, ha, ht]
    ring
  have lo := Real.pi_gt_d20
  have hi := Real.pi_lt_d20
  have ep : (piDigits : ℝ) = 314159265358979323846 / 100000000000000000000 := by norm_num [piDigits]
  have na : ‖(a : ℂ) * Complex.I‖ ≤ 6.2832 := by
    rw [norm_mul, Complex.norm_I, mul_one, Complex.norm_real, ha, norm_neg, Real.norm_eq_abs, ep,
      abs_of_nonneg (by positivity)]
    nlinarith
  have h1 : ‖Complex.exp ((a : ℂ) * Complex.I) - (twiddle size j).toC‖ ≤ 1 / 10 ^ 19 := by
    rw [twiddle, expSum_toC, ea]
    refine (Complex.exp_bound' (n := 48) ?_).trans ?_
    · rw [div_le_iff₀ (by positivity)]
      refine na.trans ?_
      norm_num
    · have : ‖(a : ℂ) * Complex.I‖ ^ 48 ≤ 6.2832 ^ 48 := pow_le_pow_left₀ (norm_nonneg _) na _
      calc ‖(a : ℂ) * Complex.I‖ ^ 48 / ((48).factorial : ℝ) * 2
          ≤ 6.2832 ^ 48 / ((48).factorial : ℝ) * 2 := by gcongr
        _ ≤ 1 / 10 ^ 19 := by norm_num [Nat.factorial]
  have h2 : ‖Complex.exp ((a : ℂ) * Complex.I)
      - Complex.exp (-(2 * Real.pi * j / size : ℝ) * Complex.I)‖ ≤ 1 / 10 ^ 19 := by
    obtain ⟨b, hb⟩ : ∃ b : ℝ, b = -(2 * Real.pi * t) := ⟨_, rfl⟩
    have eb : -((2 * Real.pi * j / size : ℝ) : ℂ) * Complex.I = (b : ℂ) * Complex.I := by
      rw [hb, ht]
      push_cast
      ring
    have e : Complex.exp ((a : ℂ) * Complex.I) - Complex.exp ((b : ℂ) * Complex.I) =
        Complex.exp ((b : ℂ) * Complex.I) * (Complex.exp (Complex.I * ((a - b : ℝ) : ℂ)) - 1) := by
      rw [mul_sub, ← Complex.exp_add]
      congr 2
      · push_cast; ring
      · ring
    rw [eb, e, norm_mul, Complex.norm_exp_ofReal_mul_I, one_mul]
    refine Real.norm_exp_I_mul_ofReal_sub_one_le.trans ?_
    rw [Real.norm_eq_abs, ha, hb, ep, abs_le]
    constructor <;> nlinarith
  calc _ = ‖(Complex.exp ((a : ℂ) * Complex.I) - Complex.exp (-(2 * Real.pi * j / size : ℝ) * Complex.I))
        - (Complex.exp ((a : ℂ) * Complex.I) - (twiddle size j).toC)‖ := by congr 1; ring
    _ ≤ 1 / 10 ^ 19 + 1 / 10 ^ 19 := (norm_sub_le _ _).trans (add_le_add h2 h1)
    _ ≤ 1 / 10 ^ 18 := by norm_num

/-- The exact transform of a vector in complex numbers (rule R182). -/
noncomputable def dftC (zs : List CRat) (k : Nat) : ℂ :=
  ∑ n ∈ Finset.range zs.length, (zs.getD n { re := 0, im := 0 }).toC *
    Complex.exp (-(2 * Real.pi * (n * k : ℕ) / zs.length : ℝ) * Complex.I)

theorem foldr_add_toC (l : List CRat) :
    (l.foldr CRat.add { re := 0, im := 0 }).toC = (l.map CRat.toC).sum := by
  induction l with
  | nil => apply Complex.ext <;> simp [CRat.toC]
  | cons z l ih => simp [ih]

theorem dft_toC (zs : List CRat) (k : Nat) :
    (dft zs k).toC = ∑ n ∈ Finset.range zs.length, (zs.getD n { re := 0, im := 0 }).toC *
      (twiddle zs.length (n * k % zs.length)).toC := by
  rw [dft, foldr_add_toC, List.mapIdx_eq_ofFn, List.map_ofFn, List.sum_ofFn, Finset.sum_range]
  exact Finset.sum_congr rfl fun n _ => by simp

/-- The kernel has period N. -/
theorem exp_mod {size : Nat} (h : 0 < size) (n : Nat) :
    Complex.exp (-(2 * Real.pi * (n : ℕ) / size : ℝ) * Complex.I) =
      Complex.exp (-(2 * Real.pi * (n % size : ℕ) / size : ℝ) * Complex.I) := by
  rw [Complex.exp_eq_exp_iff_exists_int]
  refine ⟨-((n / size : ℕ) : ℤ), ?_⟩
  have hN : (size : ℂ) ≠ 0 := by exact_mod_cast h.ne'
  have e : (n : ℂ) = size * (n / size : ℕ) + (n % size : ℕ) := by exact_mod_cast (Nat.div_add_mod n size).symm
  obtain ⟨m, hm⟩ : ∃ m, m = n / size := ⟨_, rfl⟩
  rw [← hm] at e ⊢
  push_cast
  rw [e]
  field_simp
  ring

theorem absSum_cast (zs : List CRat) :
    (absSum zs : ℝ) = ∑ n ∈ Finset.range zs.length,
      (|((zs.getD n { re := 0, im := 0 }).re : ℝ)| + |((zs.getD n { re := 0, im := 0 }).im : ℝ)|) := by
  induction zs with
  | nil => simp [absSum]
  | cons z zs ih =>
    rw [List.length_cons, Finset.sum_range_succ']
    simp only [absSum, List.map_cons, List.sum_cons, List.getD_cons_succ, List.getD_cons_zero] at ih ⊢
    rw [Rat.cast_add, ih, add_comm]
    push_cast
    rfl

/-- The transform is the forward one without scaling, to eighteen digits (rules R182, R222). -/
theorem dft_near (zs : List CRat) (k : Nat) : ‖(dft zs k).toC - dftC zs k‖ ≤ 1 / 10 ^ 18 * (absSum zs : ℝ) := by
  rw [dft_toC, dftC, ← Finset.sum_sub_distrib, absSum_cast, Finset.mul_sum]
  refine (norm_sum_le _ _).trans (Finset.sum_le_sum fun n hn => ?_)
  have hN : 0 < zs.length := Nat.zero_lt_of_lt (Finset.mem_range.mp hn)
  rw [exp_mod hN, ← mul_sub, norm_mul, mul_comm]
  exact mul_le_mul (twiddle_near (Nat.mod_lt _ hN)) (Complex.norm_le_abs_re_add_abs_im _) (norm_nonneg _)
    (by positivity)

theorem absSum_nonneg (zs : List CRat) : 0 ≤ absSum zs :=
  List.sum_nonneg fun q hq => by
    obtain ⟨z, -, rfl⟩ := List.mem_map.mp hq
    positivity

/-- Everything a part of a bin can be: within the tolerance of the exact value, the float32 of that value, or not finite
where a sum may overflow (rule R431). -/
theorem boundedPart_cases (num : Numerics) (zs : List CRat) (given : F32) (q : Rat) :
    (∃ v, F32.toRat? (boundedPart num zs given q) = some v ∧ |v - q| ≤ fftTolerance num zs) ∨
      boundedPart num zs given q = narrow num q ∨
      (F32.toRat? (boundedPart num zs given q) = none ∧ F32.largest < absSum zs + fftTolerance num zs) := by
  unfold boundedPart
  split <;> rename_i h <;> split <;> rename_i hc
  · exact .inl ⟨_, h, hc⟩
  · exact .inr (.inl rfl)
  · exact .inr (.inr ⟨h, hc⟩)
  · exact .inr (.inl rfl)

/-- A record that keeps its own bound is taken as it is: no admissible `NUM` is shut out (rule R431). -/
theorem boundedPart_given {num : Numerics} {zs : List CRat} {given : F32} {q v : Rat} (h : F32.toRat? given = some v)
    (hv : |v - q| ≤ fftTolerance num zs) : boundedPart num zs given q = given := by
  unfold boundedPart
  rw [h]
  exact if_pos hv

@[simp] theorem transform_length (num : Numerics) (xs : List Cplx) : (transform num xs).length = xs.length := by
  simp [transform]

/-- Bin k of the transform of finite samples. -/
theorem transform_getD {num : Numerics} {xs : List Cplx} {zs : List CRat} {k : Nat} (h : exactSamples xs = some zs)
    (hk : k < xs.length) :
    (transform num xs).getD k Cplx.zero =
      { re := boundedPart num zs (num.fft xs k).re (dft zs k).re
        im := boundedPart num zs (num.fft xs k).im (dft zs k).im } := by
  simp [transform, fftBin, h, hk]

end Sys2Proof.Machine
end

