-- ==== Sys2Proof/Laws/Visual.lean ====
section
/-! SUPPORT. The level of a column of the spectrum pictures against the real logarithm (rule R342). -/

namespace Sys2Proof.Machine

/-- The integer logarithm is the real one taken down. -/
theorem intLog_near {q : Rat} (h : 0 < q) :
    (Int.log 10 q : ℝ) ≤ Real.logb 10 (q : ℝ) ∧ Real.logb 10 (q : ℝ) < Int.log 10 q + 1 := by
  have h10 : (1 : ℝ) < 10 := by norm_num
  have hq : (0 : ℝ) < (q : ℝ) := by exact_mod_cast h
  refine ⟨(Real.le_logb_iff_rpow_le h10 hq).mpr ?_, (Real.logb_lt_iff_lt_rpow h10 hq).mpr ?_⟩
  · have e := Int.zpow_log_le_self (b := 10) (by norm_num) h
    rw [Real.rpow_intCast]
    simpa using (Rat.cast_le (K := ℝ)).mpr e
  · have e := Int.lt_zpow_succ_log_self (b := 10) (by norm_num) q
    rw [show ((Int.log 10 q : ℝ) + 1) = ((Int.log 10 q + 1 : ℤ) : ℝ) by push_cast; rfl, Real.rpow_intCast]
    simpa using (Rat.cast_lt (K := ℝ)).mpr e

/-- The decibels of a ratio lie within 0.02 dB of `10·log10` of it, whatever the error (rule R342, log entry 31). -/
theorem decibels_near (err : Rat) {q : Rat} (h : 0 < q) :
    |(decibels err q : ℝ) - 10 * Real.logb 10 (q : ℝ)| ≤ 1 / 50 := by
  obtain ⟨lo, hi⟩ := intLog_near (pow_pos h 1000)
  rw [Rat.cast_pow, Real.logb_pow] at lo hi
  have h1 : -1 ≤ max (-1) (min 2 err) := le_max_left _ _
  have h2 : max (-1) (min 2 err) ≤ 2 := max_le (by norm_num) (min_le_left _ _)
  have h1' : ((-1 : ℚ) : ℝ) ≤ ((max (-1) (min 2 err) : ℚ) : ℝ) := by exact_mod_cast h1
  have h2' : ((max (-1) (min 2 err) : ℚ) : ℝ) ≤ ((2 : ℚ) : ℝ) := by exact_mod_cast h2
  rw [decibels, Rat.cast_div, Rat.cast_add]
  generalize ((max (-1) (min 2 err) : ℚ) : ℝ) = m at *
  push_cast at *
  rw [abs_le]
  constructor <;> linarith

theorem zeroDb_pos (f : Functions) (n : Nat) (spectrum : List Cplx) : 0 < zeroDb f n spectrum := by
  unfold zeroDb
  positivity

theorem columnLevel_range (f : Functions) (n : Nat) (spectrum : List Cplx) (x : Nat) :
    -96 ≤ columnLevel f n spectrum x ∧ columnLevel f n spectrum x ≤ 0 := by
  have h : ∀ q, -96 ≤ clampDb q ∧ clampDb q ≤ 0 := fun q =>
    ⟨le_max_left _ _, max_le (by norm_num) (min_le_left _ _)⟩
  unfold columnLevel
  split
  · exact h _
  · split
    · norm_num
    · exact h _

/-- The level of a column whose bin is finite (rule R342): −96 dB without power, else 10·log10 of the power against the
0 dB reference, up to 0.02 dB, limited. -/
theorem columnLevel_finite {f : Functions} {n : Nat} {spectrum : List Cplx} {x : Nat} {z : CRat}
    (h : Cplx.exact? (shownBin f spectrum x) = some z) :
    (z.re ^ 2 + z.im ^ 2 = 0 → columnLevel f n spectrum x = -96) ∧
      (z.re ^ 2 + z.im ^ 2 ≠ 0 → ∃ p : ℝ, (columnLevel f n spectrum x : ℝ) = max (-96) (min 0 p) ∧
        |p - 10 * Real.logb 10 (((z.re ^ 2 + z.im ^ 2 : Rat) : ℝ) / (zeroDb f n spectrum : ℝ))| ≤ 1 / 50) := by
  unfold columnLevel
  rw [h]
  refine ⟨fun e => if_pos e, fun e => ?_⟩
  have hp : 0 < (z.re ^ 2 + z.im ^ 2) / zeroDb f n spectrum :=
    div_pos (lt_of_le_of_ne (by positivity) (Ne.symm e)) (zeroDb_pos f n spectrum)
  refine ⟨_, ?_, by simpa using decibels_near (f.levelError n x) hp⟩
  dsimp only
  rw [if_neg e, clampDb]
  push_cast
  rfl

end Sys2Proof.Machine
end

