-- ==== Sys2Proof/Tests/Slice0.lean ====
section
/-! SUPPORT. Tests on fixed values, their expected results taken from 95_test_vectors.md and the rules' worked examples,
and one witness for every statement that has hypotheses. -/

namespace Sys2Proof.Machine.Tests

set_option Elab.async false

/-! ### Decoding and encoding (30_encoding.md, 95_test_vectors.md 2.10) -/

theorem test_decode_create : decode 0x00000400#32 = .ok (.create 4) := by decide
theorem test_decode_create_fails_not_illegal : decode 0x00000500#32 = .ok (.create 5) := by decide
theorem test_decode_destroy : decode 0x00000001#32 = .ok .destroy := by decide
theorem test_decode_rate : decode 0x00000002#32 = .ok .rate := by decide
theorem test_decode_process : decode 0x00000303#32 = .ok (.process 3) := by decide
theorem test_decode_cached : decode 0x00000004#32 = .ok .cached := by decide
theorem test_decode_fetch : decode 0x00000005#32 = .ok .fetch := by decide
theorem test_decode_ecreate : decode 0x00000010#32 = .ok .ecreate := by decide
theorem test_decode_edestroy : decode 0x00000011#32 = .ok .edestroy := by decide
theorem test_decode_chunk : decode 0x0FFFFB12#32 = .ok (.chunk 11 0xFFFF) := by decide
theorem test_decode_recover : decode 0x00004213#32 = .ok (.recover 2 4) := by decide
theorem test_decode_no_opcode : decode 0x00000006#32 = .error .reservedOpcode := by decide
theorem test_decode_reserved_destroy : decode 0x00010001#32 = .error .reservedBit := by decide
theorem test_decode_reserved_process : decode 0x00000803#32 = .error .reservedBit := by decide
theorem test_decode_reserved_chunk : decode 0x10001012#32 = .error .reservedBit := by decide
theorem test_encode_chunk : encode (.chunk 1 2) = 0x00002112#32 := by decide
theorem test_encode_recover : encode (.recover 12 64512) = 0x0FC00C13#32 := by decide
theorem test_assemble_other_rate : encode (Instr.createHz 22050) = 0x00000700#32 := by decide
theorem test_table_word : decodeTableWord 32 0x00002112 = some (.chunk 1 2) := by decide

/-- A term each check of well-formedness refuses (rule R120). -/
theorem test_illformed_process_channel : (Instr.process 5).wf = false := by decide
theorem test_illformed_recover_count_zero : (Instr.recover 0 4).wf = false := by decide
theorem test_illformed_recover_count_high : (Instr.recover 13 4).wf = false := by decide
theorem test_wellformed_selectors : (Instr.create 7).wf = true ∧ (Instr.chunk 15 0).wf = true := by decide
theorem test_other_unit_refuses : acceptedBy .dec 0x00000010#32 = none ∧ acceptedBy .ers 0x00000003#32 = none := by
  decide

/-! ### Numbers, codes and tables (95_test_vectors.md 2.1 to 2.9) -/

/-- A DC blocker with zero gain at zero frequency: output `x - s`, next state `(s + x)/2`. -/
def halfBlocker : DcCoef := { a := 0x3F000000, b := 0x3F000000, c := 0xBF800000, d := 0x3F800000 }

/-- It has zero gain there (rule R132); the filter that hands its input on has not. -/
theorem test_zero_gain : DcCoef.ZeroGain halfBlocker :=
  ⟨1 / 2, 1 / 2, -1, 1, by decide +kernel, by decide +kernel, by decide +kernel, by decide +kernel, by norm_num,
    by norm_num⟩

theorem test_identity_has_gain : ¬ DcCoef.ZeroGain { a := 0x3F800000, b := 0, c := 0, d := 0x3F800000 } := by
  rintro ⟨a, b, c, d, ha, -, -, -, h, -⟩
  have e : F32.toRat? 0x3F800000 = some 1 := by decide +kernel
  cases e.symm.trans ha
  norm_num at h

/-- The same value at every rate. -/
def everyRate {α : Type} (x : α) : PerRate α := { at8000 := x, at16000 := x, at32000 := x, at44100 := x, at48000 := x }

/-- Parameters of the examples of rule R320 and program P3; the rest is default. -/
def params : Params :=
  { (default : Params) with
    resync := .ignore
    crcConv := { preamble := .lsb, polar := .msb, erasure := .lsb }
    gfPoly := 0x1100B
    crsCol := Vector.ofFn fun j => BitVec.ofNat 16 (0xFFFF - j.val)
    chunkHdr := 4
    scrambleSeed := 1
    dcFilter := everyRate halfBlocker
    hilbertTaps := everyRate [0xBF000000, 0, 0x3F000000] }

/-- The nine bytes "123456789". -/
def digits : List Byte := [0x31, 0x32, 0x33, 0x34, 0x35, 0x36, 0x37, 0x38, 0x39]

theorem test_crc_erasure_lsb : crcErasure params digits = 0x55D323E5#32 := by decide +kernel
theorem test_crc_polar_msb :
    crcPolar params [true, false, true, true, false, false, true, false] = 0x90AA84E6#32 := by decide +kernel
theorem test_crc_preamble : crcPreamble params 0xC2677B2F7EF01A00#64 = 0x1D72#16 := by decide +kernel
theorem test_mls_training_start : mlsTraining.take 7 = [false, false, false, false, false, false, true] := by decide
theorem test_mls_mask_balance : mlsMask.count true = 128 := by decide +kernel
theorem test_scramble : scrambleFrom 1#32 4 = [0x21, 0x01, 0xC5, 0x4F] := by decide +kernel
theorem test_base37_text : base37Text 1666803513 = [0x20, 0x20, 0x20, 0x4E, 0x30, 0x43, 0x41, 0x4C, 0x4C] := by
  decide +kernel
theorem test_gf_mul : gfMul 0x1100B 0x1234 0x5678 = 0x6324#16 := by decide +kernel
theorem test_gf_inv : gfInv 0x1100B 0xFFF8 = 0xB0DE#16 := by decide +kernel
theorem test_gf_literal_refused : gfIrreducible 0x1000B = false := by decide +kernel
theorem test_cauchy_inverse :
    cauchyInverse 0x1100B [1, 2] [0xFFFF, 0xFFFE] 0 1 = 0xFE9F#16 ∧
      cauchyInverse 0x1100B [1, 2] [0xFFFF, 0xFFFE] 1 0 = 0x4E19#16 := by decide +kernel
theorem test_slices : (List.range 3).map (sliceOf 10000 3) = [3334, 3334, 3332] := by decide
theorem test_slices_short : (List.range 12).map (sliceOf 5 12) = [1, 1, 1, 1, 1, 0, 0, 0, 0, 0, 0, 0] := by decide
theorem test_bin : binOf 1280 (-128) = 1152 ∧ binOf 7680 255 = 255 := by decide
/-- A unit sample at n = 1 of four. -/
def unitAtOne : List CRat := [{ re := 0, im := 0 }, { re := 1, im := 0 }, { re := 0, im := 0 }, { re := 0, im := 0 }]

/-- The forward kernel without scaling (rule R182): −i at k = 1 and i at k = 3, to eighteen digits. -/
theorem test_dft_kernel :
    |(dft unitAtOne 1).re| ≤ 1 / 10 ^ 18 ∧ |(dft unitAtOne 1).im + 1| ≤ 1 / 10 ^ 18 ∧
      |(dft unitAtOne 3).im - 1| ≤ 1 / 10 ^ 18 := by decide +kernel

/-- A tenth of the reference power is −10 dB (rule R342). -/
theorem test_decibels_tenth : decibels 0 (1 / 10) = -10 := by
  have e : Int.log 10 ((1 / 10 : Rat) ^ 1000) = -1000 := by
    have h := Int.log_zpow (R := Rat) (b := 10) (by norm_num) (-1000)
    rwa [show (((10 : Nat) : Rat) ^ (-1000 : Int)) = (1 / 10 : Rat) ^ 1000 by
      rw [one_div, inv_pow, zpow_neg]; rfl] at h
  rw [decibels, e]
  norm_num

theorem test_polar_transform : polarTransform 2 [true, false, true, true] = [true, true, false, true] := by decide
theorem test_lengthen :
    lengthen 3 (.int8 127) [true, true, false, true, false, false, false, false] 6 5
        [.int8 1, .int8 2, .int8 3, .int8 4, .int8 5, .int8 6] =
      [.int8 1, .int8 2, .int8 3, .int8 4, .int8 5, .int8 6, .int8 127, .int8 127] := by decide
theorem test_byte_lsb_first : byteOf [true, false, false, false, false, true, false, false] = 0x21#8 := by decide
theorem test_palette_quarter : palette (fun _ => false) (1 / 4) = 0xFF0000FF#32 := by decide +kernel
theorem test_palette_between : palette (fun _ => false) (5 / 8) = 0xFFB4B400#32 := by decide +kernel
theorem test_constellation_pixel : consIndex { re := 0x3F3504F3, im := 0xBF3504F3 } = some 1323 := by decide +kernel
theorem test_constellation_edge : consIndex { re := 0x40000000, im := 0 } = none := by decide +kernel
/-- `(1, 0)` against `(0.5, 0)`: the ratio (2, 0) has norm 4 and is kept (rule R241). -/
theorem test_demod_keeps_four :
    demodOrErase default { re := 0x3F800000, im := 0 } { re := 0x3F000000, im := 0 } =
      { re := 0x40000000, im := 0 } := by decide +kernel
/-- Channel 3, the frame (16384, -8192): 0.125 (95_test_vectors.md 2.5). -/
theorem test_channel_sum : channelScalar default .sum { left := 16384, right := 0xE000 } = 0x3E000000#32 := by
  decide +kernel
theorem test_channel_full_scale : channelScalar default .mono { left := 0x8000, right := 0 } = 0xBF800000#32 := by
  decide +kernel
/-- Rounding of values from 1 to 2^24 to a nearest float32, for the example below. -/
def nearest (q : Rat) : F32 :=
  let e := Nat.log2 q.floor.toNat
  BitVec.ofNat 32 ((e + 126) * 2 ^ 23 + (q * 2 ^ (23 - e) + 1 / 2).floor.toNat)

/-- `cfo_rad = 0.01`, `R = 8000`: CFO has the bits 0x414BB7E4 (rule R365); a `cfo_rad` of 0 gives 0. -/
theorem test_cfo_hz :
    cfoHz { (default : Numerics) with round := nearest } 0x3C23D70A .r8000 = 0x414BB7E4#32 ∧
      cfoHz default 0 .r48000 = 0 := by decide +kernel
/-- A segment from row 2 to row 5 that changes column after one more row: rows 2 and 3 left, rows 4 and 5 right. -/
theorem test_polyline_segment :
    ((List.range 7).map (onPolyline (fun x => if x = 0 then 2 else 5) (fun _ => 1) 0),
      (List.range 7).map (onPolyline (fun x => if x = 0 then 2 else 5) (fun _ => 1) 1)) =
    ([false, false, true, true, false, false, false], [false, false, false, false, true, true, false]) := by decide
theorem test_soft_int8 :
    toInt8 default 0x3F19999A = 1#8 ∧ toInt8 default 0x43480000 = 127#8 ∧ toInt8 default 0xC3480000 = 0x81#8 := by
  decide +kernel

/-! ### Single steps (95_test_vectors.md 3) -/

/-- Both units ABSENT, with the example parameters and no buffer bound. -/
def start : State := { State.reset with params := params }

/-- A created decoder unit at 8000 Hz. -/
def unit : Dec := Dec.created default params .r8000

/-- Buffers of the lengths of rule R72 at 8000 Hz in channels 1 to 4. -/
def buffers : Buffers :=
  { audio := { len := 2880, cells := [] }
    spec := { len := 640 * 64, cells := [] }
    sgram := { len := 640 * 256, cells := [] }
    cons := { len := 64 * 64, cells := [] }
    peak := { len := 16, cells := [] }
    call9 := { len := 9, cells := [] }
    payload := { len := 5380, cells := [] }
    chunkin := { len := 5380, cells := [(4, 0x06), (5, 0xB8)] }
    out := { len := 4, cells := [] } }

/-- Both units created and every buffer bound. -/
def ready : State := { start with bufs := buffers, dec := unit, ers := Ers.created }

/-- The slots of program P3 after its two chunks. -/
def chunks : State :=
  { ready with
    ers := { Ers.created with
      slots := (Vector.replicate 12 Slot.blank).set 0 { ident := 1, data := [(0, 0x06), (1, 0xB8)], valid := true }
        |>.set 1 { ident := 2, data := [(0, 0x84), (1, 0x8B)], valid := true } } }

theorem test_reset_process_heap : exec (.process 0) start = .next (start.decRespond 4) := rfl
theorem test_reset_rate_err : exec .rate start = .next (start.decRespond 0x80000000) := rfl
theorem test_step_runs_word : step (State.reset.withFetchWord 32 0x00000002) = .next (State.reset.decRespond rspErr) :=
  rfl
theorem test_create_then_rate :
    exec .rate { start with dec := Dec.created default params .r44100 } =
      .next { start with dec := { Dec.created default params .r44100 with rsp := 0x0000AC44 } } := rfl
theorem test_create_again_fails : exec (.create 4) ready = .next (ready.decRespond 0) := rfl
theorem test_process_channel_five : exec (.process 5) ready = .next (ready.decRespond 0x80000000) := rfl
theorem test_cached_refused : exec .cached ready = .refused .cachedNothing := rfl
theorem test_fetch_refused : exec .fetch ready = .refused .noPayload := rfl
theorem test_chunk_false : exec (.chunk 12 0) ready = .next (ready.ersRespond 0) := rfl
theorem test_recover_count_zero : exec (.recover 0 0) ready = .next (ready.ersRespond 0x80000000) := rfl

/-- Program P3 step 2: the first bytes of slot 0. -/
theorem test_chunk_stores :
    ((chunkSlot ready 1).data, (chunkSlot ready 1).ident) = ([(0, 0x06), (1, 0xB8)], 1) := by decide +kernel

/-- Program P3 step 4: OUT and the CRC. -/
theorem test_recover_bytes : chunks.ers.recovered params 4 2 = [0x34, 0x12, 0x78, 0x56] := by decide +kernel
theorem test_recover_crc : crcErasure params [0x34, 0x12, 0x78, 0x56] = 0x7011CA1B#32 := by decide +kernel
theorem test_recover_unwritten_slot : recoverRefusal ready 1 1 = some .slotInvalid := by decide +kernel

/-- Program P5: a NOPE with mode 5 keeps the call, one with call 0 clears it. -/
theorem test_nope_caches :
    (unit.cachePreamble (.nope 5 106874852065144)).cachedCall = 106874852065144 ∧
      (unit.cachePreamble (.nope 13 0)).cachedCall = 0 ∧
      (unit.cachePreamble (.nope 255 140737488355327)).cachedCall = 0 := by decide +kernel

/-! ### Witnesses for the hypotheses of the statements, in the statements' order

Each theorem is named after its statement and shows values that meet the hypotheses, one conjunct or one theorem for
each clause that has hypotheses of its own. -/

theorem witness_EncodeOfDecodeIsTheWord : decode 0x0FFFFB12#32 = .ok (.chunk 11 0xFFFF) := by decide

/-- The ten operations' rows as MatchAndMaskSelectTheRow reads them at the ends of the operand fields. -/
theorem witness_MatchAndMaskSelectTheRow :
    0x00000700#32 &&& rowMask (.create 0) = rowMatch (.create 0) ∧
      0x0FFFFF13#32 &&& rowMask (.recover 1 0) = rowMatch (.recover 1 0) ∧
      acceptedBy .dec 0x00000005#32 = some .fetch ∧ acceptedBy .ers 0x00000010#32 = some .ecreate := by decide

/-- The selectors that fail and return false, on a created unit. -/
theorem witness_IllegalWordsAnswerErrAndDoNothing_selectors :
    5 ≤ (5 : BitVec 3).toNat ∧ 12 ≤ (12 : BitVec 4).toNat ∧ ready.ers.alive = .created :=
  ⟨by decide, by decide, rfl⟩

/-- Each clause of rule R120 for each kind of unit, and words that no clause names. -/
theorem witness_IllegalWordsAnswerErrAndDoNothing :
    illegalFor .dec 0x00000006#32 ∧ illegalFor .dec 0x00000013#32 ∧ illegalFor .dec 0x00000800#32 ∧
      illegalFor .dec 0x80000005#32 ∧ illegalFor .dec 0x00000503#32 ∧ illegalFor .ers 0x000000FF#32 ∧
      illegalFor .ers 0x00000000#32 ∧ illegalFor .ers 0x10000012#32 ∧ illegalFor .ers 0x00000013#32 ∧
      illegalFor .ers 0x00000D13#32 ∧ ¬ illegalFor .dec 0x00000403#32 ∧ ¬ illegalFor .dec 0x00000700#32 ∧
      ¬ illegalFor .ers 0x0000FF12#32 ∧ ¬ illegalFor .ers 0x00000C13#32 := by
  unfold illegalFor zeroBitSet
  repeat' apply And.intro
  all_goals decide

theorem witness_StepRunsTheDecodedOperation :
    (State.reset.withFetchWord 32 0x00000002).host = [.command .dec 0x00000002#32] ∧
      decode 0x00000002#32 = .ok .rate ∧ Instr.unit .rate = .dec := ⟨rfl, by decide, rfl⟩

/-- A word of the other kind of unit. -/
theorem witness_StepRunsTheDecodedOperation_illegal :
    ({ ready with host := [.command .ers 0x00000002#32] } : State).host = [.command .ers 0x00000002#32] ∧
      ∀ i, decode 0x00000002#32 = .ok i → i.unit ≠ .ers := by
  refine ⟨rfl, fun i h => ?_⟩
  rw [show decode 0x00000002#32 = .ok .rate by decide] at h
  cases h
  decide

/-- Every kind of move that is no command, and no move left. -/
theorem witness_StepRunsTheDecodedOperation_move :
    (∀ m ∈ [HostMove.bindAudio [1, 2], .bindPixels .spec [1], .bindPixels .sgram [1], .bindPixels .cons [],
        .bindPixels .peak [1], .bindBytes .call9 [1], .bindBytes .payload [1], .bindBytes .chunkin [1],
        .bindBytes .out [1], .bindOverlaps [(.audio, .pixel .spec)], .setAllocOk false, .powerOn],
      ({ ready with host := [m] } : State).host = [m]) ∧ ready.host = [] := ⟨fun _ _ => rfl, rfl⟩

/-- Binding three samples and reading the last. -/
theorem test_bind_reads :
    ((ready.hostSets (.bindAudio [5, 0, 7])).bufs.audio.len, (ready.hostSets (.bindAudio [5, 0, 7])).bufs.audio.read 2)
      = (3, 7) := by decide

theorem witness_PowerOnLeavesBothUnitsAbsent : ({ ready with host := [.powerOn] } : State).host = [.powerOn] := rfl

/-- A unit right after CREATE is live. -/
theorem unit_live : unit.Live where
  ring := List.length_replicate
  blocks := ⟨0, rfl⟩
  hilbert := List.length_replicate
  code := List.length_replicate
  pending := rfl
  call := by decide
  peak := Nat.zero_le _
  ready := fun h => by cases h
  locked := fun h => absurd rfl h
  running := fun h => by cases h
  complete := fun h => by cases h

/-- Both units created and no move left: the invariant holds and the step gives the same state. -/
theorem witness_EveryStepKeepsTheInvariant : ready.Inv ∧ step ready = .next ready :=
  ⟨⟨by decide, unit_live, by (show ∀ s ∈ _, _; decide)⟩, rfl⟩

theorem witness_StepTakesOneMoveAndKeepsParameters :
    step { ready with host := [.command .dec 0x00000002#32] } = .next (ready.decRespond 8000) := rfl

/-- The three failures of CREATE, and a success at the last rate. -/
theorem witness_CreateConstructsOrFails :
    ready.dec.alive = .created ∧ 5 ≤ (5 : BitVec 3).toNat ∧ ({ start with allocOk := false } : State).allocOk = false ∧
      start.dec.alive = .absent ∧ (4 : BitVec 3).toNat < 5 ∧ start.allocOk = true :=
  ⟨rfl, by decide, rfl, rfl, by decide, rfl⟩

/-- The hypotheses of DestroyLeavesNothing, RateAnswersTheRateUsed and, for the erasure unit, EdestroyLeavesNothing. -/
theorem witness_created_units :
    ready.dec.alive = .created ∧ (4 : BitVec 3).toNat < 5 ∧ ready.allocOk = true ∧ ready.ers.alive = .created :=
  ⟨rfl, by decide, rfl, rfl⟩

theorem witness_DestroyThenCreateIsAFirstCreate :
    ready.dec.alive = .created ∧ start.dec = State.reset.dec ∧ start.params = ready.params ∧
      start.allocOk = ready.allocOk ∧ ready.ers.alive = .created ∧ start.ers = State.reset.ers :=
  ⟨rfl, rfl, rfl, rfl, rfl, rfl⟩

theorem witness_AbsentUnitsAnswerHeapOrErr :
    start.dec.alive = .absent ∧ (4 : BitVec 3).toNat ≤ 4 ∧ start.ers.alive = .absent ∧ 1 ≤ (1 : BitVec 4).toNat ∧
      (12 : BitVec 4).toNat ≤ 12 := ⟨rfl, by decide, rfl, by decide, by decide⟩

theorem witness_EcreateConstructsOrFails : ready.ers.alive = .created ∧ start.ers.alive = .absent := ⟨rfl, rfl⟩

/-- A unit whose last preamble passed its CRC with an invalid call (program P5). -/
def nope : State := { ready with dec := unit.cachePreamble (.nope 13 0) }

theorem witness_CachedReportsTheLastPreamble :
    nope.dec.alive = .created ∧ nope.dec.cachedAny = true ∧ nope.bufs.call9.len = 9 ∧ nope.bufs.call9.wf = true ∧
      nope.dec.cachedCall = 0 := by decide

theorem cached_runs : exec .cached nope = .next (cachedNext Config.functions nope) := rfl

/-- The largest value of nine characters, and the digits of "TEST12345". -/
theorem witness_CallSignTextRoundTrips :
    129961739795076 < 37 ^ 9 ∧
      ∀ c ∈ ([0x54, 0x45, 0x53, 0x54, 0x31, 0x32, 0x33, 0x34, 0x35] : List Byte), ∃ d < 37, c = base37Char d := by
  decide

/-! A burst that is complete: mode 6, the first 21728 positions frozen. -/

/-- A frozen table: the frozen positions first (rule R262). -/
def frozenTable (frozen message : Nat) : List Bool := List.replicate frozen true ++ List.replicate message false

theorem frozenTable_ok {frozen message : Nat} (h : frozen + message = 65536) :
    frozenOk (frozenTable frozen message) message = true := by
  rw [frozenOk_iff, frozenTable, List.length_append, List.count_append, List.length_replicate, List.length_replicate,
    List.count_replicate_self, List.count_replicate, if_neg (by decide), Nat.zero_add]
  exact ⟨h, rfl⟩

theorem frozenTable_message {frozen message i : Nat} (h : frozen ≤ i) :
    (frozenTable frozen message).getD i false = false := by
  rw [frozenTable, List.getD_eq_getElem?_getD, List.getElem?_append_right (by rwa [List.length_replicate]),
    List.getElem?_replicate]
  split <;> simp

/-- A burst of mode 6 of which all 50 data symbols were taken, its payload not yet fetched. -/
def fetchable (kind : SoftKind) : State :=
  { ready with
    params := { params with frozen64800 := frozenTable 21728 43808, soft := kind }
    dec := { unit with
      fsm := .done, mode := modeRow 6 432 50 3 .t64800, symbolNumber := 50, cachedAny := true, payloadReady := true } }

theorem fetchable_frozen (kind : SoftKind) :
    frozenOk (Params.frozen (fetchable kind).params (fetchable kind).dec.mode.frozenSel)
      (fetchable kind).dec.mode.mesgBits = true :=
  frozenTable_ok (frozen := 21728) (message := 43808) rfl

theorem witness_FetchDecodesTheBurst (kind : SoftKind) :
    (fetchable kind).dec.alive = .created ∧ (fetchable kind).dec.payloadReady = true ∧
      frozenOk (Params.frozen (fetchable kind).params (fetchable kind).dec.mode.frozenSel)
        (fetchable kind).dec.mode.mesgBits = true ∧
      (fetchable kind).bufs.payload.len = 5380 ∧ (fetchable kind).bufs.payload.wf = true ∧
      (fetchable .float).params.soft = .float :=
  ⟨rfl, rfl, fetchable_frozen kind, rfl, rfl, rfl⟩

/-- FETCH runs there: a witness for the first clause of SuccessfulFetchHasZeroCrc, the last of
RefusalsAreTheListedOnes and the second of PayloadReadyIsSetByDoneOnly. -/
theorem fetch_runs (kind : SoftKind) :
    exec .fetch (fetchable kind) = .next (fetchNext Config.functions (fetchable kind)) := by
  have h : execFetch (fetchable kind) = whenLengthsFit (fetchable kind) [(.byte .payload, payloadLen)]
      (.next (fetchNext Config.functions (fetchable kind))) := by
    unfold execFetch
    rw [whenDecCreated_created rfl, if_pos (show (fetchable kind).dec.payloadReady = true from rfl),
      if_pos (fetchable_frozen kind)]
  exact h

/-! A list decoder that decides every bit 0: all lanes carry the zero message, whose CRC is 0. -/

theorem polar_zero : ∀ n : Nat, polarTransform n (List.replicate (2 ^ n) false) = List.replicate (2 ^ n) false
  | 0 => rfl
  | n + 1 => by
    have h : 2 ^ (n + 1) = 2 ^ n + 2 ^ n := by omega
    simp only [polarTransform, h, List.take_replicate, List.drop_replicate, Nat.add_sub_cancel,
      Nat.min_eq_left (Nat.le_add_right _ _), polar_zero n]
    simp

theorem scatter_zero : ∀ (flags : List Bool) (m : Nat),
    scatter flags (List.replicate m false) = List.replicate flags.length false
  | [], _ => rfl
  | true :: flags, m => congrArg (false :: ·) (scatter_zero flags m)
  | false :: flags, 0 => congrArg (false :: ·) (scatter_zero flags 0)
  | false :: flags, m + 1 => congrArg (false :: ·) (scatter_zero flags m)

theorem gather_zero : ∀ flags : List Bool,
    gather flags (List.replicate flags.length false) = List.replicate (flags.count false) false
  | [] => rfl
  | true :: flags => by simp [List.replicate_succ, gather, gather_zero flags]
  | false :: flags => by simp [List.replicate_succ, gather, gather_zero flags]

theorem crc_zero (p : Params) (n : Nat) : crcPolar p (List.replicate n false) = 0 := by
  have step : ∀ conv, crcStep conv 0xD419CC15#32 0#32 false = 0#32 := fun conv => by cases conv <;> decide
  induction n with
  | zero => rfl
  | succ n ih => rwa [crcPolar, crcBitsOf, List.replicate_succ, List.foldl_cons, step]

/-- The functions with every open function at a constant: the list decoder decides 0, the detector is silent. -/
def quiet : Functions := default

theorem quiet_lane {frozen : List Bool} {mesg : Nat} (code : List SoftBit) (l : Nat) (h : frozenOk frozen mesg = true) :
    (laneOf quiet frozen mesg code l).message = List.replicate mesg false := by
  obtain ⟨hl, hc⟩ := frozenOk_iff.mp h
  have hu : (List.range mesg).map (quiet.sclBit code frozen l) = List.replicate mesg false := by
    rw [List.eq_replicate_iff]
    exact ⟨by simp, fun b hb => by obtain ⟨m, -, rfl⟩ := List.mem_map.mp hb; rfl⟩
  unfold laneOf
  dsimp only
  rw [hu, scatter_zero, show frozen.length = 2 ^ codeOrder from hl, polar_zero,
    show 2 ^ codeOrder = frozen.length from hl.symm, gather_zero, hc]

theorem quiet_select {p : Params} {frozen : List Bool} {mesg : Nat} (code : List SoftBit) (hs : p.soft = .int8)
    (h : frozenOk frozen mesg = true) : ∃ lane, selectLane p (lanesOf quiet frozen mesg code) = some lane := by
  have hp : lanePasses p (laneOf quiet frozen mesg code 0) = true := by
    rw [lanePasses, quiet_lane _ _ h, List.take_replicate]
    exact decide_eq_true (crc_zero _ _)
  refine ⟨laneOf quiet frozen mesg code 0, ?_⟩
  rw [selectLane, hs, laneOrder, lanesOf, listWidth, List.range_succ_eq_map, List.map_cons, List.find?_cons_of_pos hp]

theorem quiet_fetch {s : State} (hs : s.params.soft = .int8)
    (h : frozenOk (Params.frozen s.params s.dec.mode.frozenSel) s.dec.mode.mesgBits = true) :
    (fetchNext quiet s).dec.rsp.getLsbD 0 = true := by
  obtain ⟨lane, hl⟩ := quiet_select (s.dec.lengthened quiet s.params) hs h
  unfold fetchNext
  dsimp only
  rw [hl]
  simp [Dec.fetched, rspFetch]

theorem witness_SuccessfulFetchHasZeroCrc :
    frozenOk (Params.frozen (fetchable .int8).params (fetchable .int8).dec.mode.frozenSel)
        (fetchable .int8).dec.mode.mesgBits = true ∧
      43072 ≤ (fetchable .int8).dec.mode.mesgBits ∧ (fetchable .int8).bufs.payload.len = 5380 ∧
      (fetchable .int8).bufs.payload.wf = true ∧ (fetchNext quiet (fetchable .int8)).dec.rsp.getLsbD 0 = true :=
  ⟨fetchable_frozen _, Nat.le_of_ble_eq_true rfl, rfl, rfl, quiet_fetch rfl (fetchable_frozen _)⟩

theorem witness_LaneSelectionFollowsTheVariant :
    ({ params with soft := .float } : Params).soft = .float ∧
      selectLane { params with soft := .float }
          [{ word := [], message := [true], metric := 0 }, { word := [], message := [], metric := 2 },
            { word := [], message := [], metric := 1 }] =
        some { word := [], message := [], metric := 1 } ∧
      ({ params with soft := .int8 } : Params).soft = .int8 ∧
      selectLane { params with soft := .int8 }
          [{ word := [], message := [true], metric := 0 }, { word := [], message := [], metric := 2 },
            { word := [], message := [], metric := 1 }] =
        some { word := [], message := [], metric := 2 } := by decide +kernel

theorem witness_LaneSelectionFollowsTheVariant_flips :
    (List.replicate codeLen (SoftBit.int8 0)).length = codeLen ∧
      ({ word := List.replicate codeLen true, message := [], metric := 0 } : Lane).word.length = codeLen :=
  ⟨List.length_replicate, List.length_replicate⟩

/-- The example of `test_lengthen`: limit 3, two positions shortened away. -/
theorem witness_LengtheningPlacesEverySoftBit :
    ([true, true, false, true, false, false, false, false] : List Bool).count false = 5 ∧ 3 ≤ 5 ∧ 6 + (5 - 3) = 8 ∧
      6 ≤ ([.int8 1, .int8 2, .int8 3, .int8 4, .int8 5, .int8 6] : List SoftBit).length := by decide

/-- A vector of length 4; a frozen table of mode 6 and its first and last non-frozen positions. -/
theorem witness_PolarTransformIsItsOwnInverse :
    [true, false, true, true].length = 2 ^ 2 ∧ frozenOk (frozenTable 21728 43808) 43808 = true ∧
      (frozenTable 21728 43808).getD 21728 false = false ∧ (frozenTable 21728 43808).getD 65535 false = false :=
  ⟨rfl, frozenTable_ok rfl, frozenTable_message (Nat.le_refl _), frozenTable_message (by decide)⟩

/-- An illegal operand, an ABSENT unit and neither, for both kinds of unit. -/
theorem witness_ErrBitMeansIllegalOrAbsent :
    exec (.process 7) ready = .next (ready.decRespond 0x80000000) ∧
      exec .rate start = .next (start.decRespond 0x80000000) ∧ exec .rate ready = .next (ready.decRespond 8000) ∧
      exec (.recover 13 0) ready = .next (ready.ersRespond 0x80000000) ∧
      exec .edestroy start = .next (start.ersRespond 0x80000000) ∧
      exec (.chunk 15 0) ready = .next (ready.ersRespond 0) := ⟨rfl, rfl, rfl, rfl, rfl, rfl⟩

theorem recover_unwritten : exec (.recover 1 4) ready = .refused .slotInvalid := by
  have hr : recoverRefusal ready (4 : BitVec 20).toNat (1 : BitVec 4).toNat = some .slotInvalid := by decide +kernel
  exact execRecover_refused (s := ready) (count := 1) (total := 4) rfl (by decide) hr

theorem chunk_unbound :
    exec (.chunk 0 0) { ready with bufs := .unbound } = .refused (.bufferTooShort (.byte .chunkin)) :=
  (execChunk_of_slot 0 rfl (by decide)).trans (if_pos (by decide +kernel))

theorem cached_unbound :
    exec .cached { nope with bufs := .unbound } = .refused (.bufferWrongLength (.byte .call9)) := rfl

/-- AUDIO has the length of two channels, twice what channel 0 takes. -/
theorem process_long_audio : exec (.process 0) ready = .refused (.bufferWrongLength .audio) := by
  show processWith Config.functions .mono ready = _
  unfold processWith
  rw [if_neg (by decide)]
  exact whenLengthsFit_of_misfit (by decide +kernel) _

/-- A refusal of each operation that has one. -/
theorem witness_RefusalsAreTheListedOnes :
    exec (.process 0) ready = .refused (.bufferWrongLength .audio) ∧
      exec (.process 0) { ready with overlaps := [(.pixel .cons, .pixel .spec)] } = .refused .buffersOverlap ∧
      exec .cached ready = .refused .cachedNothing ∧
      exec .cached { nope with bufs := .unbound } = .refused (.bufferWrongLength (.byte .call9)) ∧
      exec .fetch ready = .refused .noPayload ∧
      exec (.chunk 0 0) { ready with bufs := .unbound } = .refused (.bufferTooShort (.byte .chunkin)) ∧
      exec (.recover 1 4) ready = .refused .slotInvalid :=
  ⟨process_long_audio, rfl, rfl, cached_unbound, rfl, chunk_unbound, recover_unwritten⟩

/-- SPEC and CONS overlapping, a wrong AUDIO in channel 0 and no other overlap, a CALL9 and a PAYLOAD one too long. -/
theorem witness_RefusalsAreTheListedOnes_buffers :
    (ready.dec.alive = .created ∧ (4 : BitVec 3).toNat ≤ 4 ∧
        processBuffersOverlap { ready with overlaps := [(.pixel .cons, .pixel .spec)] }) ∧
      (¬ processBuffersOverlap ready ∧ (.audio, 1440) ∈ processTable ready.dec.rate 0 ∧
        ready.bufs.lenOf .audio ≠ 1440) ∧
      (nope.dec.alive = .created ∧ nope.dec.cachedAny = true ∧ ({ len := 10, cells := [] } : Buffer 8).len ≠ 9) ∧
      (fetchable .float).dec.alive = .created ∧ (fetchable .float).dec.payloadReady = true ∧
      frozenOk (Params.frozen (fetchable .float).params (fetchable .float).dec.mode.frozenSel)
        (fetchable .float).dec.mode.mesgBits = true ∧ ({ len := 5381, cells := [] } : Buffer 8).len ≠ 5380 :=
  ⟨⟨rfl, by decide, _, List.mem_singleton.mpr rfl, by decide, by decide, by decide⟩,
    ⟨fun h => by (obtain ⟨_, h, _⟩ := h; cases h), by decide, by decide⟩, ⟨rfl, rfl, by decide⟩, rfl, rfl, fetchable_frozen _,
    by decide⟩

/-- The refusals of CACHED and FETCH on a created unit, and a FETCH that completes. -/
theorem witness_RefusalsAreTheListedOnes_windows :
    ready.dec.alive = .created ∧ ready.dec.cachedAny = false ∧ ready.dec.payloadReady = false ∧
      (fetchable .float).dec.alive = .created ∧
      exec .fetch (fetchable .float) = .next (fetchNext Config.functions (fetchable .float)) :=
  ⟨rfl, rfl, rfl, rfl, fetch_runs .float⟩

/-! A running burst of mode 6, and a detector that reports at every sample. -/

/-- `n` data symbols of the burst were taken; the last symbol read starts at sample 3000. -/
def burstUnit (n : Nat) : Dec :=
  { unit with
    fsm := .synced, mode := modeRow 6 432 50 3 .t64800, cachedAny := true, prev := List.replicate 432 Cplx.zero
    symbolNumber := n, symbolPositionAbs := 3000 - n * 1440 }

/-- Both units created, the decoder unit in a burst. -/
def burst (n : Nat) : State := { ready with dec := burstUnit n }

theorem burst_live {n : Nat} (h : n < 50) : (burst n).dec.Live :=
  { unit_live with
    pending := rfl
    ready := fun h => by cases h
    locked := fun _ => ⟨⟨6, rfl⟩, rfl, List.length_replicate⟩
    running := fun _ => by
      have h1 : Rate.ringCap .r8000 = 5760 := by decide
      have h2 : Rate.lExt .r8000 = 1440 := by decide
      have h3 : Rate.lSym .r8000 = 1280 := by decide
      refine ⟨h, ?_⟩
      unfold Dec.HoldsSymbol
      simp only [burst, burstUnit, unit, Dec.created, h1, h2, h3]
      omega
    complete := fun h => by cases h }

theorem buffers_fit {ch : Channel} (h : ch ≠ .mono) :
    ∀ need ∈ processLengths .r8000 ch, buffers.lenOf need.1 = need.2 := by
  cases ch
  · exact absurd rfl h
  all_goals decide

/-- In channel 0 AUDIO has half that length. -/
theorem buffers_fit_mono :
    ∀ need ∈ processLengths .r8000 .mono,
      Buffers.lenOf { buffers with audio := { len := 1440, cells := [] } } need.1 = need.2 := by decide

/-- The first and the last data symbol of a burst. -/
theorem witness_ProcessInABurstTakesOneSymbol :
    Channel.ofSel 4 = some .iq ∧ (burst 0).dec.alive = .created ∧ (burst 0).dec.Live ∧ (burst 49).dec.Live ∧
      (burst 0).dec.fsm = .synced ∧ (burst 0).params.resync = .ignore ∧ (burst 0).overlaps = [] ∧
      ∀ need ∈ processLengths (burst 0).dec.rate .iq, (burst 0).bufs.lenOf need.1 = need.2 :=
  ⟨rfl, rfl, burst_live (by decide), burst_live (by decide), rfl, rfl, rfl, buffers_fit (ch := .iq) (by decide)⟩

/-- PROCESS runs in the burst; after the last data symbol a payload waits. -/
theorem burst_process (f : Functions) (n : Nat) (h : n < 50) :
    ∃ t, processWith f .iq (burst n) = .next t ∧ (n = 49 → t.dec.payloadReady = true) := by
  have hl := burst_live h
  obtain ⟨turn, ht, hd⟩ := processTurn_in_burst f .iq hl rfl (.inl rfl)
  refine ⟨_, processWith_next_iff.mpr ⟨rfl, buffers_fit (ch := .iq) (by decide), turn, ht, rfl⟩, fun e => ?_⟩
  obtain ⟨sb, -⟩ := processLoop_spec f .iq (burst n) hl.ring
  obtain ⟨xs, -, -, ⟨c, -⟩ | ⟨-, e', -⟩⟩ := dataSymbol_cases hd
  · rw [show ({ (burst n).dec.sampleLoop f (burst n).params .iq (processFrames .iq (burst n)) with
        detPending := false } : Dec).symbolNumber = n from sb.symbolNumber,
      show ({ (burst n).dec.sampleLoop f (burst n).params .iq (processFrames .iq (burst n)) with
        detPending := false } : Dec).mode = modeRow 6 432 50 3 .t64800 from sb.mode, e] at c
    exact absurd c (by decide)
  · rw [processNext_dec, e']
    rfl

theorem burst_runs (n : Nat) (h : n < 50) :
    ∃ t, exec (.process 4) (burst n) = .next t ∧ (n = 49 → t.dec.payloadReady = true) :=
  burst_process Config.functions n h

/-- DONE sets `payload_ready`, DESTROY and FETCH clear it. -/
theorem witness_PayloadReadyIsSetByDoneOnly :
    (∃ t, exec (.process 4) (burst 49) = .next t ∧ (burst 49).dec.payloadReady = false ∧ t.dec.payloadReady = true) ∧
      exec .destroy (fetchable .float) = .next { fetchable .float with dec := Dec.absent 0 } ∧
      (fetchable .float).dec.payloadReady = true ∧ (Dec.absent 0).payloadReady = false :=
  let ⟨t, ht, hp⟩ := burst_runs 49 (by decide)
  ⟨⟨t, ht, rfl, hp rfl⟩, rfl, rfl, rfl⟩

theorem recover_runs : exec (.recover 2 4) chunks = .next (recoverNext chunks 4 2) := by
  have hr : recoverRefusal chunks (4 : BitVec 20).toNat (2 : BitVec 4).toNat = none := by decide +kernel
  exact execRecover_next (s := chunks) (count := 2) (total := 4) rfl (by decide) hr

theorem chunk_runs : ∃ t, exec (.chunk 11 7) ready = .next t :=
  ⟨_, (execChunk_of_slot 7 rfl (by decide)).trans (if_neg (by decide))⟩

/-- Both kinds of unit run an operation. -/
theorem witness_UnitsShareNothing :
    Instr.unit .cached = .dec ∧ exec .cached nope = .next (cachedNext Config.functions nope) ∧
      Instr.unit (.recover 2 4) = .ers ∧ exec (.recover 2 4) chunks = .next (recoverNext chunks 4 2) :=
  ⟨rfl, cached_runs, rfl, recover_runs⟩

/-- The four operations that write buffers, and a PROCESS on an ABSENT unit. -/
theorem witness_OperationsWriteOnlyTheirRanges :
    (∃ t, exec (.process 4) (burst 0) = .next t) ∧ exec .cached nope = .next (cachedNext Config.functions nope) ∧
      exec .fetch (fetchable .float) = .next (fetchNext Config.functions (fetchable .float)) ∧
      exec (.recover 2 4) chunks = .next (recoverNext chunks 4 2) ∧ start.dec.alive = .absent ∧
      exec (.process 0) start = .next (start.decRespond 4) :=
  let ⟨t, ht, _⟩ := burst_runs 0 (by decide)
  ⟨⟨t, ht⟩, cached_runs, fetch_runs .float, recover_runs, rfl, rfl⟩

theorem witness_RateCachedAndChunkAreRepeatable :
    ready.bufs.wf = true ∧ exec .rate ready = .next (ready.decRespond 8000) ∧
      exec .cached nope = .next (cachedNext Config.functions nope) ∧
      ∃ t, exec (.chunk 11 7) ready = .next t := ⟨by decide, rfl, cached_runs, chunk_runs⟩

theorem witness_OnlyProcessAdvancesTheSampleCounter :
    ready.dec.alive = .created ∧ exec .rate ready = .next (ready.decRespond 8000) ∧
      exec (.process 5) ready = .next (ready.decRespond 0x80000000) ∧ (burst 0).dec.alive = .created ∧
      ∃ t, exec (.process 4) (burst 0) = .next t :=
  let ⟨t, ht, _⟩ := burst_runs 0 (by decide)
  ⟨rfl, rfl, rfl, rfl, t, ht⟩

/-- A detector that reports, at every sample, the position two symbols back. -/
def eager : Functions :=
  { quiet with
    detect := { init := fun _ => [], step := fun r cs _ n => (cs, some ((n : Int) - 2 * Rate.lExt r, 0))
                trainCarrier := fun k => -126 + 2 * (k : Int) } }

/-- A step of the correlator that reports nothing, and one that reports. -/
theorem witness_RingReturnsTheSampleWrittenKStepsAgo_correlator (fr : Frame) :
    (∃ b z cs, unit.condition quiet params .left fr = (b, z) ∧
        quiet.detect.step unit.rate unit.corrState (b.append z).ring (unit.nW + 1) = (cs, none)) ∧
      ∃ b z cs pos cfo, unit.condition eager params .left fr = (b, z) ∧
        eager.detect.step unit.rate unit.corrState (b.append z).ring (unit.nW + 1) = (cs, some (pos, cfo)) :=
  ⟨⟨_, _, _, rfl, rfl⟩, _, _, _, _, _, rfl, rfl⟩

/-- The held range at its ends: k = 1 and k = `RING_CAP - 1`, and the indexes one below and one above it. -/
theorem witness_RingReturnsTheSampleWrittenKStepsAgo :
    unit.ring.length = Rate.ringCap unit.rate ∧ 1 ≤ Rate.ringCap unit.rate - 1 ∧
      Rate.ringCap unit.rate - 1 < Rate.ringCap unit.rate ∧
      (unit.nW : Int) - Rate.ringCap unit.rate ≤ (unit.nW : Int) - Rate.ringCap unit.rate ∧
      (unit.nW : Int) < unit.nW + 1 := ⟨List.length_replicate, by decide, by decide, Int.le_refl _, by omega⟩

/-- A frame in channel 3. -/
theorem witness_IqFramesReachTheRingInOrder_filters :
    Channel.sum ≠ .iq ∧ unit.ring.length = Rate.ringCap unit.rate ∧
      ∃ k taps x h, k = PerRate.get params.dcFilter unit.rate ∧ taps = PerRate.get params.hilbertTaps unit.rate ∧
        x = channelScalar quiet.num .sum { left := 16384, right := 0xE000 } ∧
        h = (F32.add quiet.num (F32.mul quiet.num k.c unit.dcState) (F32.mul quiet.num k.d x) :: unit.hilbert).take
          (Rate.hilbertLen unit.rate) := ⟨by decide, List.length_replicate, _, _, _, _, rfl, rfl, rfl, rfl⟩

theorem witness_IqFramesReachTheRingInOrder :
    unit.ring.length = Rate.ringCap unit.rate ∧
      (List.replicate 1440 ({ left := 5, right := 0x8000 } : Frame)).length ≤ Rate.ringCap unit.rate ∧
      (List.replicate 1440 ({ left := 5, right := 0x8000 } : Frame))[1439]? = some { left := 5, right := 0x8000 } :=
  ⟨List.length_replicate, by rw [List.length_replicate]; decide, by rw [List.getElem?_replicate, if_pos (by decide)]⟩

theorem unit_ring : unit.ring = List.replicate (Rate.ringCap .r8000) Cplx.zero := by
  simp only [unit, Dec.created]
  exact congrArg _ rfl

theorem witness_SilenceStaysSilent :
    (∀ x ∈ [(PerRate.get params.dcFilter .r8000).a, (PerRate.get params.dcFilter .r8000).b,
        (PerRate.get params.dcFilter .r8000).c, (PerRate.get params.dcFilter .r8000).d], F32.isFinite x = true) ∧
      (∀ x ∈ PerRate.get params.hilbertTaps .r8000, F32.isFinite x = true) ∧ unit.rate = .r8000 ∧ unit.dcState = 0 ∧
      unit.hilbert = List.replicate (Rate.hilbertLen .r8000) 0 ∧
      unit.ring = List.replicate (Rate.ringCap .r8000) Cplx.zero :=
  ⟨List.all_eq_true.mp (by decide +kernel), List.all_eq_true.mp (by decide +kernel), rfl, rfl, rfl, unit_ring⟩

/-- Numerics whose open results are not numbers. -/
def nanNumerics : Numerics := { (default : Numerics) with special := fun _ _ _ => 0x7FC00000 }

/-- Each step of rule R17: a NaN argument, a reference 0, a ratio 3 (norm 9), a ratio that is not a number, the ratio 2
(norm 4, kept), and a finite reference for the zero symbol. -/
theorem witness_DemodOrEraseFollowsItsSteps :
    Cplx.hasNaN { re := 0x7FC00000, im := 0 } = true ∧ F32.le (Cplx.norm default Cplx.zero) 0 = true ∧
      F32.lt F32.four (Cplx.norm default (Cplx.div default { re := 0x40400000, im := 0 } { re := 0x3F800000, im := 0 }))
        = true ∧
      Cplx.hasNaN (Cplx.div nanNumerics { re := 0x7F800000, im := 0 } { re := 0x3F800000, im := 0 }) = true ∧
      (Cplx.hasNaN { re := 0x40000000, im := 0 } = false ∧ Cplx.hasNaN { re := 0x3F800000, im := 0 } = false ∧
        F32.le (Cplx.norm default { re := 0x3F800000, im := 0 }) 0 = false ∧
        Cplx.hasNaN (Cplx.div default { re := 0x40000000, im := 0 } { re := 0x3F800000, im := 0 }) = false ∧
        F32.le (Cplx.norm default (Cplx.div default { re := 0x40000000, im := 0 } { re := 0x3F800000, im := 0 }))
          F32.four = true) ∧
      F32.isFinite 0x3F800000 = true ∧ F32.isFinite 0 = true ∧
      F32.isFinite (Cplx.norm default { re := 0x3F800000, im := 0 }) = true := by decide +kernel

theorem witness_MedianHasTheMiddleRank :
    ([0x40400000, 0x3F800000, 0x40000000] : List F32) ≠ [] ∧
      (∀ x ∈ ([0x40400000, 0x3F800000, 0x40000000] : List F32), F32.isNaN x = false) ∧
      median [0x40400000, 0x3F800000, 0x40000000] = 0x40000000 := by
  refine ⟨by simp, fun x hx => ?_, by decide +kernel⟩
  simp only [List.mem_cons, List.not_mem_nil, or_false] at hx
  rcases hx with rfl | rfl | rfl <;> decide

/-- Two points and more for the line of Theil and Sen. -/
theorem witness_MedianHasTheMiddleRank_line : 2 ≤ ([(-1, 0), (1, 0)] : List (Int × F32)).length := by decide

/-- Metadata words: mode 13 with the CRC of 95_test_vectors.md, the same with a wrong CRC, and an invalid word with its
CRC. -/
def goodWord : BitVec 255 := 0#184 ++ (0x1D72#16 ++ 0x6133BD97BF780D#55)
def wrongCrcWord : BitVec 255 := 0#184 ++ (0x1D73#16 ++ 0x6133BD97BF780D#55)
def emptyWord : BitVec 255 := 0#184 ++ (crcPreamble params 0 ++ 0#55)

theorem witness_PreambleChecksRunInOrder :
    crcPreamble params (wordProtected wrongCrcWord) ≠ wordRx wrongCrcWord ∧
      (crcPreamble params (wordProtected emptyWord) = wordRx emptyWord ∧ (wordMode emptyWord).toNat < 6) ∧
      crcPreamble params (wordProtected goodWord) = wordRx goodWord ∧ (wordMode goodWord).toNat = 13 ∧
      1 ≤ (wordCall goodWord).toNat ∧ (wordCall goodWord).toNat < 129961739795077 := by decide +kernel

/-- A divisor of `x^255 + 1` of degree 184. -/
theorem witness_BchEncodingGivesCodewords :
    bchGenOk 0x140a722a1a468d36d87a25364e685922a1e56fd1a478c1d = true := by decide +kernel

/-- Functions whose OSD answers one word. -/
def deciding (cw : Option (BitVec 255)) : Functions := { quiet with osd := fun _ _ => cw }

/-- A unit with a detection at sample 2000 still to be acted on. -/
def detected : Dec := { unit with detPending := true, symbolPosAbs := 2000 }

/-- The same detection in a burst. -/
def redetected : Dec := { burstUnit 3 with detPending := true, symbolPosAbs := 2000 }

theorem holds_metadata (f : Functions) {d : Dec} (hr : d.ring.length = Rate.ringCap d.rate)
    (h : d.HoldsSymbol (d.symbolPosAbs + Rate.lExt d.rate)) : ∃ tdom, d.metadataSamples f = some tdom := by
  obtain ⟨xs, hx⟩ := Option.isSome_iff_exists.mp ((window_isSome_iff hr).mpr h)
  unfold Dec.metadataSamples
  rw [hx]
  exact ⟨_, rfl⟩

theorem detected_metadata (f : Functions) : ∃ tdom, detected.metadataSamples f = some tdom :=
  holds_metadata f List.length_replicate (by decide)

theorem redetected_metadata (f : Functions) : ∃ tdom, redetected.metadataSamples f = some tdom :=
  holds_metadata f List.length_replicate (by decide)

/-- A burst whose ring holds data symbol n, which starts at sample 2880. -/
def symbolReady (n : Nat) : Dec := { burstUnit n with symbolPositionAbs := 1440 - n * 1440 }

theorem symbolReady_window (n : Nat) : ∃ xs, (symbolReady n).window (symbolReady n).dataBase = some xs := by
  have h1 : Rate.ringCap .r8000 = 5760 := by decide
  have h2 : Rate.lExt .r8000 = 1440 := by decide
  have h3 : Rate.lSym .r8000 = 1280 := by decide
  apply Option.isSome_iff_exists.mp
  rw [window_isSome_iff List.length_replicate]
  unfold Dec.HoldsSymbol Dec.dataBase
  simp only [symbolReady, burstUnit, unit, Dec.created, h1, h2, h3]
  omega

/-- The three results of the preamble decoder are reached. -/
theorem preamble_results (lSym : Nat) (tdom : List Cplx) :
    preambleResult (deciding none) params lSym tdom = .fail ∧
      preambleResult (deciding (some emptyWord)) params lSym tdom = .nope 0 0 ∧
      ∃ call, preambleResult (deciding (some goodWord)) params lSym tdom = .okay 13 call := by
  have h (cw : Option (BitVec 255)) : preambleResult (deciding cw) params lSym tdom = classify params cw := rfl
  refine ⟨h _, (h _).trans (by decide +kernel), wordCall goodWord, (h _).trans (by decide +kernel)⟩

/-- A detection outside a burst whose preamble is accepted with mode 13. -/
theorem witness_SyncLoadsTheBurstRegisters :
    detected.fsm ≠ .synced ∧ detected.detPending = true ∧
      ∃ tdom call, detected.metadataSamples (deciding (some goodWord)) = some tdom ∧
        preambleResult (deciding (some goodWord)) params (Rate.lSym detected.rate) tdom = .okay 13 call :=
  let ⟨tdom, h⟩ := detected_metadata (deciding (some goodWord))
  let ⟨call, hc⟩ := (preamble_results (Rate.lSym detected.rate) tdom).2.2
  ⟨by decide, rfl, tdom, call, h, hc⟩

/-- A detection outside a burst that fails, and one that is rejected with mode 0 and call 0. -/
theorem witness_RejectedPreamblesKeepTheBurstState :
    detected.fsm ≠ .synced ∧ detected.detPending = true ∧
      (∃ tdom, detected.metadataSamples (deciding none) = some tdom ∧
        preambleResult (deciding none) params (Rate.lSym detected.rate) tdom = .fail) ∧
      ∃ tdom, detected.metadataSamples (deciding (some emptyWord)) = some tdom ∧
        preambleResult (deciding (some emptyWord)) params (Rate.lSym detected.rate) tdom = .nope 0 0 :=
  let ⟨tdom, h⟩ := detected_metadata (deciding none)
  let ⟨tdom', h'⟩ := detected_metadata (deciding (some emptyWord))
  ⟨by decide, rfl, ⟨tdom, h, (preamble_results _ tdom).1⟩, tdom', h', (preamble_results _ tdom').2.1⟩

/-- No detection outside a burst; a detection whose symbol is held; a data symbol, not the last and the last. -/
theorem witness_BurstMachineFollowsItsTable :
    params.resync = .ignore ∧ (unit.fsm ≠ .synced ∧ unit.detPending = false) ∧
      (detected.fsm ≠ .synced ∧ detected.detPending = true ∧ ∀ f, ∃ tdom, detected.metadataSamples f = some tdom) ∧
      ((symbolReady 0).fsm = .synced ∧ (symbolReady 0).symbolNumber + 1 < (symbolReady 0).mode.symbolCount ∧
        ∃ xs, (symbolReady 0).window (symbolReady 0).dataBase = some xs) ∧
      (symbolReady 49).fsm = .synced ∧ ¬ (symbolReady 49).symbolNumber + 1 < (symbolReady 49).mode.symbolCount ∧
      ∃ xs, (symbolReady 49).window (symbolReady 49).dataBase = some xs :=
  ⟨rfl, ⟨by decide, rfl⟩, ⟨by decide, rfl, detected_metadata⟩, ⟨rfl, by decide, symbolReady_window 0⟩, rfl, by decide,
    symbolReady_window 49⟩

/-- The ring holds every sample of the metadata symbol of that detection. -/
theorem witness_BurstMachineFollowsItsTable_metadata :
    ∀ n < Rate.lSym detected.rate,
      detected.ringAt (detected.symbolPosAbs + Rate.lExt detected.rate + (n : Int)) = some Cplx.zero := by
  intro n hn
  have h1 : Rate.ringCap .r8000 = 5760 := by decide
  have h2 : Rate.lExt .r8000 = 1440 := by decide
  have h3 : Rate.lSym .r8000 = 1280 := by decide
  simp only [detected, unit, Dec.created, h3] at hn
  simp only [Dec.ringAt, detected, unit, Dec.created, h1, h2]
  rw [if_pos (by omega), List.getElem?_replicate, if_pos (by omega)]
  rfl

theorem witness_DetectionInABurstFollowsResync :
    redetected.fsm = .synced ∧ redetected.detPending = true ∧ params.resync = .ignore ∧
      ({ params with resync := .restart } : Params).resync = .restart ∧
      ∀ f, ∃ tdom, redetected.metadataSamples f = some tdom := ⟨rfl, rfl, rfl, rfl, redetected_metadata⟩

/-- The first and the last data symbol of a burst of mode 6. -/
theorem witness_SoftBitsFillTheCodeVector :
    (burstUnit 0).mode.IsRow ∧ (burstUnit 0).code.length = codeLen ∧
      (burstUnit 0).symbolNumber < (burstUnit 0).mode.symbolCount ∧
      (burstUnit 49).symbolNumber < (burstUnit 49).mode.symbolCount :=
  ⟨⟨6, rfl⟩, List.length_replicate, by decide, by decide⟩

/-! Detectors that have P6. -/

theorem quiet_count (p : Params) (ch : Channel) :
    ∀ (frames : List Frame) (d : Dec), d.reportCount quiet p ch frames = 0
  | [], _ => rfl
  | fr :: rest, d => by
    rw [Dec.reportCount, quiet_count p ch rest]
    rfl

theorem quiet_P6 : Functions.P6 quiet := fun p ch d frames hl _ h => by
  rw [sampleLoop_no_report quiet p ch frames d hl.pending (quiet_count p ch frames d)] at h
  cases h

theorem eager_step (p : Params) (ch : Channel) (d : Dec) (fr : Frame) :
    (d.sampleStep eager p ch fr).symbolPosAbs = ((d.sampleStep eager p ch fr).nW : Int) - 2 * Rate.lExt d.rate := by
  obtain ⟨st, h, hc, -⟩ := condition_dec eager p ch d fr
  unfold Dec.sampleStep
  simp only [hc]
  rfl

theorem eager_P6 : Functions.P6 eager := fun p ch d frames hl hf _ => by
  have hne : frames ≠ [] := by
    rintro rfl
    exact absurd hf (Nat.ne_of_lt (lExt_pos d.rate))
  obtain ⟨sb, hn, -, -⟩ := sampleLoop_spec eager p ch frames d
  have e : d.sampleLoop eager p ch frames =
      (d.sampleLoop eager p ch frames.dropLast).sampleStep eager p ch (frames.getLast hne) := by
    unfold Dec.sampleLoop
    conv_lhs => rw [← List.dropLast_concat_getLast hne]
    rw [List.foldl_append]
    rfl
  have hp := eager_step p ch (d.sampleLoop eager p ch frames.dropLast) (frames.getLast hne)
  rw [← e, (sampleLoop_spec eager p ch frames.dropLast d).1.rate] at hp
  have hs := lSym_le_lExt d.rate
  have hc := ringCap_eq d.rate
  unfold Dec.HoldsSymbol
  rw [sb.rate, hp]
  omega

/-- A live unit with its buffers, a detector with P6 that reports and one that does not. -/
theorem witness_ProcessCompletesWithP6 :
    Functions.P6 eager ∧ Functions.P6 quiet ∧ Channel.ofSel 1 = some .left ∧ ready.dec.alive = .created ∧
      ready.dec.Live ∧ ready.overlaps = [] ∧
      (∀ need ∈ processLengths ready.dec.rate .left, ready.bufs.lenOf need.1 = need.2) ∧ ready.dec.fsm ≠ .synced ∧
      ready.dec.reportCount quiet ready.params .left (processFrames .left ready) = 0 :=
  ⟨eager_P6, quiet_P6, rfl, rfl, unit_live, rfl, buffers_fit (ch := .left) (by decide), by decide, quiet_count _ _ _ _⟩

/-- A PROCESS in channel 4 in a burst under `RESYNC = ignore`, and one on a unit that is in no burst. -/
theorem witness_ProcessKeepsWhatItDoesNotWrite :
    (∃ t, exec (.process 4) (burst 0) = .next t) ∧ (burst 0).dec.fsm = .synced ∧ (burst 0).params.resync = .ignore ∧
      exec (.process 4) start = .next (start.decRespond 4) ∧ start.dec.fsm ≠ .synced :=
  let ⟨t, ht, _⟩ := burst_runs 0 (by decide)
  ⟨⟨t, ht⟩, rfl, rfl, rfl, by decide⟩

/-- PROCESS with a detector that never reports, on a unit in no burst. -/
theorem quiet_process : ∃ t, processWith quiet .left ready = .next t := by
  obtain ⟨sb, -⟩ := processLoop_spec quiet .left ready unit_live.ring
  have hp := sampleLoop_no_report quiet ready.params .left (processFrames .left ready) ready.dec rfl
    (quiet_count _ _ _ _)
  have ht : processTurn quiet .left ready = .ok
      { dec := ready.dec.sampleLoop quiet ready.params .left (processFrames .left ready), status := .okay,
        points := none } := by
    unfold processTurn Dec.machineStep
    rw [sb.fsm, hp]
    rfl
  exact ⟨_, processWith_next_iff.mpr ⟨rfl, buffers_fit (ch := .left) (by decide), _, ht, rfl⟩⟩

/-- Other content in SPEC and in the last row of SGRAM. -/
theorem witness_ProcessReadsOnlyItsFrames :
    (∃ t, processWith quiet .left ready = .next t) ∧ ready.bufs.wf = true ∧
      ∃ b : Buffers, b ≠ ready.bufs ∧ b.wf = true ∧ (∀ sp, b.lenOf sp = ready.bufs.lenOf sp) ∧
        (∀ k < audioLen ready.dec.rate .left, b.audio.read k = ready.bufs.audio.read k) ∧
        ∀ k < 640 * 255, b.sgram.read k = ready.bufs.sgram.read k := by
  refine ⟨quiet_process, by decide, { buffers with
    spec := { len := 640 * 64, cells := [(5, 1)] }, sgram := { len := 640 * 256, cells := [(163839, 1)] } },
    by decide, by decide, fun sp => ?_, fun _ _ => rfl, fun k hk => ?_⟩
  · rcases sp with _ | (_ | _ | _ | _) | (_ | _ | _ | _) <;> rfl
  · show (if k = 163839 then _ else _) = _
    rw [if_neg (by omega)]
    rfl

/-- A PROCESS in no burst and one that demodulates a data symbol; the ends of the ranges. -/
theorem witness_SpectrogramScrollsOneRow :
    ready.bufs.spec.wf = true ∧ ready.bufs.sgram.wf = true ∧ (∃ t, processWith quiet .left ready = .next t) ∧
      (∃ t, processWith quiet .iq (burst 0) = .next t) ∧ 1 ≤ 255 ∧ 255 ≤ 255 ∧ 639 < 640 ∧ 63 < 64 :=
  ⟨rfl, rfl, quiet_process, (burst_process quiet 0 (by decide)).imp fun _ h => h.1, by decide, by decide, by decide,
    by decide⟩

theorem witness_PeakMeterShowsTheLargestSample :
    ready.bufs.peak.wf = true ∧ ∃ t, processWith quiet .left ready = .next t := ⟨rfl, quiet_process⟩

/-- A carrier at (√½, -√½) in binary32, pixel (43, 20), and one that was erased. -/
theorem witness_CarrierLightsItsConstellationPixel :
    Cplx.isZero Cplx.zero = true ∧ Cplx.isZero { re := 0x3F3504F3, im := 0xBF3504F3 } = false ∧
      (F32.toRat? 0x3F3504F3).isSome = true ∧ (F32.toRat? 0xBF3504F3).isSome = true ∧
      consIndex { re := 0x3F3504F3, im := 0xBF3504F3 } = some (20 * 64 + 43) := by decide +kernel

/-- The first data symbol of a burst under `RESYNC = restart`. -/
def restarting : State := { burst 0 with params := { params with resync := .restart } }

/-- A PROCESS that demodulates a data symbol: under `RESYNC = ignore`, and under restart without a detection. -/
theorem witness_CarrierLightsItsConstellationPixel_cons :
    ((burst 0).dec.Live ∧ (burst 0).dec.fsm = .synced ∧ (burst 0).params.resync = .ignore ∧
      (burst 0).bufs.cons.wf = true ∧ ∃ t, processWith quiet .iq (burst 0) = .next t) ∧
    restarting.dec.Live ∧ restarting.dec.fsm = .synced ∧ restarting.params.resync = .restart ∧
      (restarting.dec.sampleLoop quiet restarting.params .iq (processFrames .iq restarting)).detPending = false ∧
      restarting.bufs.cons.wf = true ∧ ∃ t, processWith quiet .iq restarting = .next t := by
  have hp : (restarting.dec.sampleLoop quiet restarting.params .iq (processFrames .iq restarting)).detPending = false :=
    sampleLoop_no_report quiet _ .iq _ _ rfl (quiet_count _ _ _ _)
  have hl : restarting.dec.Live := burst_live (by decide)
  obtain ⟨turn, ht, -⟩ := processTurn_in_burst quiet .iq (s := restarting) hl rfl (.inr hp)
  exact ⟨⟨burst_live (by decide), rfl, rfl, rfl, (burst_process quiet 0 (by decide)).imp fun _ h => h.1⟩, hl, rfl, rfl,
    hp, rfl, _, processWith_next_iff.mpr ⟨rfl, buffers_fit (ch := .iq) (by decide), turn, ht, rfl⟩⟩

/-- A slot above 11, a CHUNKIN one byte too short, and one just long enough. -/
theorem witness_ChunkStoresOnePayload :
    ready.ers.alive = .created ∧ 12 ≤ (12 : BitVec 4).toNat ∧ (11 : BitVec 4).toNat < 12 ∧
      ({ len := 5379, cells := [] } : Buffer 8).len < ready.params.chunkHdr + 5376 ∧
      ready.params.chunkHdr + 5376 ≤ ready.bufs.chunkin.len := ⟨rfl, by decide, by decide, by decide, by decide⟩

/-- Counts 1 and 12; slots that were never written, and the chunks of program P3, which nothing refuses. -/
theorem witness_RecoverRefusesExactlyBrokenPreconditions :
    ready.ers.alive = .created ∧ 1 ≤ (1 : BitVec 4).toNat ∧ (12 : BitVec 4).toNat ≤ 12 ∧
      exec (.recover 1 4) ready = .refused .slotInvalid ∧
      exec (.recover 2 4) chunks = .next (recoverNext chunks 4 2) :=
  ⟨rfl, by decide, by decide, recover_unwritten, recover_runs⟩

theorem witness_RecoverWritesTheBlocks :
    chunks.ers.alive = .created ∧ 1 ≤ (2 : BitVec 4).toNat ∧ (2 : BitVec 4).toNat ≤ 12 ∧
      recoverRefusal chunks (4 : BitVec 20).toNat (2 : BitVec 4).toNat = none ∧ chunks.bufs.out.wf = true := by
  refine ⟨rfl, by decide, by decide, by decide +kernel, rfl⟩

/-- The chunks of program P3 are the encodings of the blocks 0x1234 and 0x5678 (rule R320). -/
theorem witness_ChunkThenRecoverReconstructs :
    gfIrreducible params.gfPoly = true ∧ 2 ≤ 12 ∧ (columnPoints params 2).Nodup ∧ (chunks.ers.idents 2).Nodup ∧
      (∀ x ∈ chunks.ers.idents 2, x ∉ columnPoints params 2) ∧
      ∀ r < 2, chunks.ers.symbol r 0 = chunkElement params.gfPoly (columnPoints params 2) (chunks.ers.slot r).ident
        fun j => if j = 0 then 0x1234 else 0x5678 := by
  refine ⟨by decide +kernel, by decide, by decide +kernel, by decide +kernel, fun x hx => ?_, by decide +kernel⟩
  rw [show chunks.ers.idents 2 = [1, 2] by decide +kernel] at hx
  rw [show columnPoints params 2 = [0xFFFF, 0xFFFE] by decide +kernel]
  simp only [List.mem_cons, List.not_mem_nil, or_false] at hx
  rcases hx with rfl | rfl <;> decide

/-- CHUNKIN with the chunk of each of the two identifiers. -/
def chunkInput (r : Nat) : Buffer 8 :=
  { len := 5380, cells := if r = 0 then [(4, 0x06), (5, 0xB8)] else [(4, 0x84), (5, 0x8B)] }

/-- The state after r CHUNKs, HOST binding CHUNKIN anew before each. -/
def afterChunks : Nat → State
  | 0 => ready
  | r + 1 =>
    let s := { afterChunks r with bufs := { (afterChunks r).bufs with chunkin := chunkInput r } }
    { s with ers := { s.ers with
      slots := if h : r < 12 then s.ers.slots.set r (chunkSlot s (BitVec.ofNat 16 (r + 1))) h else s.ers.slots
      rsp := 1 } }

/-- The transmitter's blocks: one element each, the rest 0. -/
def sentBlocks (j e : Nat) : Half := if e = 0 then (if j = 0 then 0x1234 else 0x5678) else 0

/-- Two CHUNKs and what their bytes are. -/
theorem witness_ChunkThenRecoverReconstructs_chain :
    (afterChunks 0).ers.alive = .created ∧ (4 : BitVec 20).toNat ≤ (afterChunks 0).bufs.out.len ∧
      (afterChunks 0).bufs.out.wf = true ∧ (afterChunks 0).params.crsCol.toList.take 2 = [0xFFFF, 0xFFFE] ∧
      (∀ r < 2, exec (.chunk (BitVec.ofNat 4 r) (BitVec.ofNat 16 (r + 1)))
          { afterChunks r with bufs := { (afterChunks r).bufs with chunkin := chunkInput r } } =
        .next (afterChunks (r + 1))) ∧
      ∀ r < 2, ∀ e < 2688,
        ((chunkInput r).read (4 + (2 * e + 1)) ++ (chunkInput r).read (4 + 2 * e) : Half) =
          chunkElement 0x1100B [0xFFFF, 0xFFFE] (BitVec.ofNat 16 (r + 1)) fun j => sentBlocks j e := by
  refine ⟨rfl, by decide, rfl, by decide +kernel, fun r hr => ?_, fun r hr e _ => ?_⟩
  · obtain rfl | rfl : r = 0 ∨ r = 1 := by omega
    · exact (execChunk_of_slot (idx := 0) 1 rfl (by decide)).trans (if_neg (by decide))
    · exact (execChunk_of_slot (idx := 1) 2 rfl (by decide)).trans (if_neg (by decide))
  · have hz : e ≠ 0 → ∀ k, 4 + 2 * e ≤ k → (chunkInput r).read k = 0 := fun he k hk => by
      obtain rfl | rfl : r = 0 ∨ r = 1 := by omega
      · exact cells_read_above (lo := 0) (hi := 6) (by omega) (by decide)
      · exact cells_read_above (lo := 0) (hi := 6) (by omega) (by decide)
    by_cases he : e = 0
    · subst he
      obtain rfl | rfl : r = 0 ∨ r = 1 := by omega
      · decide +kernel
      · decide +kernel
    · rw [hz he _ (by omega), hz he _ (by omega),
        show (fun j => sentBlocks j e) = fun _ => 0 from funext fun j => if_neg he]
      obtain rfl | rfl : r = 0 ∨ r = 1 := by omega
      · decide +kernel
      · decide +kernel

theorem witness_FieldElementsHaveInverses : gfIrreducible 0x1100B = true ∧ (0xFFFF : Half) ≠ 0 := by decide +kernel

theorem witness_SecondRecoverIsRefused :
    chunks.ers.alive = .created ∧ 1 ≤ (2 : BitVec 4).toNat ∧ (2 : BitVec 4).toNat ≤ 12 ∧
      exec (.recover 2 4) chunks = .next (recoverNext chunks 4 2) := ⟨rfl, by decide, by decide, recover_runs⟩

/-! ### The premise on PSK can be met -/

/-- QPSK on the axes, Gray labels 0, 1, 3, 2. -/
def axes : PskMap :=
  { points := [⟨0x3F800000, 0⟩, ⟨0, 0x3F800000⟩, ⟨0xBF800000, 0⟩, ⟨0, 0xBF800000⟩], labels := [0, 1, 3, 2] }

/-- The quadrant of a value, ties going to the lower index. -/
def quadrant (z : Cplx) : Nat :=
  match Cplx.exact? z with
  | none => 0
  | some q =>
    if |q.im| ≤ q.re then 0 else if |q.re| ≤ q.im then 1 else if |q.im| ≤ -q.re then 2 else 3

/-- `PSK` with those points: soft values 1 and −1. -/
def qpsk : Functions :=
  { (default : Functions) with
    pskDecide := fun _ z => quadrant z
    pskSoft := fun _ z b => if (axes.labels.getD (quadrant z) 0).testBit b then 0xBF800000 else 0x3F800000 }

/-- The parameters that hold those points. -/
def qpskParams : Params := { (default : Params) with psk2 := axes }

theorem psk_axes : Params.psk qpskParams 2 = axes := rfl

theorem axes_points :
    Params.pskPoint qpskParams 2 0 = ⟨1, 0⟩ ∧ Params.pskPoint qpskParams 2 1 = ⟨0, 1⟩ ∧
      Params.pskPoint qpskParams 2 2 = ⟨-1, 0⟩ ∧ Params.pskPoint qpskParams 2 3 = ⟨0, -1⟩ := by
  unfold Params.pskPoint
  rw [psk_axes]
  decide +kernel

theorem hard_sign (c : Bool) : SoftBit.hard (.float (if c then 0xBF800000 else 0x3F800000)) = c := by
  cases c <;> decide

theorem quadrant_lt (z : Cplx) : quadrant z < 4 := by
  unfold quadrant
  split
  · decide
  · split_ifs <;> decide

theorem quadrant_nearest {z : Cplx} {q : CRat} (h : Cplx.exact? z = some q) {k : Nat} (hk : k < 4) :
    q.distSq (Params.pskPoint qpskParams 2 (quadrant z)) ≤ q.distSq (Params.pskPoint qpskParams 2 k) := by
  obtain ⟨p0, p1, p2, p3⟩ := axes_points
  have hk : k = 0 ∨ k = 1 ∨ k = 2 ∨ k = 3 := by omega
  unfold quadrant
  rw [h]
  dsimp only
  split_ifs with c1 c2 c3 <;> rcases hk with rfl | rfl | rfl | rfl <;>
    simp only [p0, p1, p2, p3, CRat.distSq, abs_le, not_and_or, not_le] at * <;>
    first | exact le_rfl | grind

theorem axes_circle {k : Nat} (hk : k < 4) :
    (((Params.pskPoint qpskParams 2 k).re : ℝ) = Real.cos (2 * Real.pi * k / 4)) ∧
      ((Params.pskPoint qpskParams 2 k).im : ℝ) = Real.sin (2 * Real.pi * k / 4) := by
  obtain ⟨p0, p1, p2, p3⟩ := axes_points
  have e1 : 2 * Real.pi * ((1 : ℕ) : ℝ) / 4 = Real.pi / 2 := by push_cast; ring
  have e2 : 2 * Real.pi * ((2 : ℕ) : ℝ) / 4 = Real.pi := by push_cast; ring
  have e3 : 2 * Real.pi * ((3 : ℕ) : ℝ) / 4 = Real.pi / 2 + Real.pi := by push_cast; ring
  obtain rfl | rfl | rfl | rfl : k = 0 ∨ k = 1 ∨ k = 2 ∨ k = 3 := by omega
  · simp [p0]
  · rw [p1, e1]; simp
  · rw [p2, e2]; simp
  · rw [p3, e3]; simp [Real.cos_add_pi, Real.sin_add_pi]

/-- Rule R226 can be met: QPSK on the axes. -/
theorem witness_PskOk : Functions.PskOk qpsk qpskParams 2 0 where
  count := by rw [psk_axes]; rfl
  finite := by rw [psk_axes]; decide +kernel
  circle := by
    refine ⟨0, fun k hk => ?_⟩
    obtain ⟨h1, h2⟩ := axes_circle (k := k) hk
    rw [h1, h2, zero_add, show ((2 : ℝ) ^ 2) = 4 by norm_num]
    simp
  labels := by rw [psk_axes]; decide
  gray := by rw [psk_axes]; decide
  nearest z q h := ⟨quadrant_lt z, fun k hk => quadrant_nearest h hk⟩
  signs z _ _ b _ := hard_sign ((axes.labels.getD (quadrant z) 0).testBit b)

end Sys2Proof.Machine.Tests
end

section
/-! SUPPORT. Rule R18: base-37 text for any number of digits, one digit at a time from the last.
Rule R6: the fixed sizes. -/

namespace Sys2Proof.Machine

theorem base37Digit_base37Char {d : Nat} (h : d < 37) : base37Digit (base37Char d) = d := by
  have table : ∀ d < 37, base37Digit (base37Char d) = d := by decide
  exact table d h

@[simp] theorem length_base37Digits (v n : Nat) : (base37Digits v n).length = n := by
  induction n generalizing v with
  | zero => rfl
  | succ n ih => simp [base37Digits, ih]

/-- Character n-1-k of n characters is the digit of place k. -/
theorem base37Digits_getElem? (v : Nat) {n k : Nat} (h : k < n) :
    (base37Digits v n)[n - 1 - k]? = some (base37Char (v / 37 ^ k % 37)) := by
  induction n generalizing v k with
  | zero => omega
  | succ n ih =>
    rw [base37Digits]
    cases k with
    | zero => simp
    | succ k =>
      have inner : n + 1 - 1 - (k + 1) = n - 1 - k := by omega
      have place : v / 37 / 37 ^ k = v / 37 ^ (k + 1) := by rw [Nat.div_div_eq_div_mul, Nat.pow_succ']
      rw [inner, List.getElem?_append_left (by simp; omega), ih (v / 37) (by omega), place]

@[simp] theorem base37Value_append_singleton (s : List Byte) (c : Byte) :
    base37Value (s ++ [c]) = 37 * base37Value s + base37Digit c := by
  simp [base37Value]

/-- Reading n digits of v gives v back up to the digits that were cut off. -/
theorem base37Value_base37Digits (v n : Nat) : base37Value (base37Digits v n) = v % 37 ^ n := by
  induction n generalizing v with
  | zero => simp [base37Digits, base37Value, Nat.mod_one]
  | succ n ih =>
    rw [base37Digits, base37Value_append_singleton, ih, base37Digit_base37Char (Nat.mod_lt _ (by decide)),
      Nat.pow_succ', Nat.mod_mul, Nat.add_comm]

/-- The digits of `37·v + d` are those of v and then d. -/
theorem base37Digits_mul_add (v n : Nat) {d : Nat} (h : d < 37) :
    base37Digits (37 * v + d) (n + 1) = base37Digits v n ++ [base37Char d] := by
  have quotient : (37 * v + d) / 37 = v := by omega
  have remainder : (37 * v + d) % 37 = d := by omega
  rw [base37Digits, quotient, remainder]

/-- The value of n characters of the alphabet has n digits, and they are those characters. -/
theorem base37Value_spec (s : List Byte) (alphabet : ∀ c ∈ s, ∃ d < 37, c = base37Char d) :
    base37Value s < 37 ^ s.length ∧ base37Digits (base37Value s) s.length = s := by
  induction s using List.reverseRecOn with
  | nil => exact ⟨by decide, rfl⟩
  | append_singleton s c ih =>
    obtain ⟨bound, text⟩ := ih fun a ha => alphabet a (by simp [ha])
    obtain ⟨d, hd, rfl⟩ := alphabet c (by simp)
    rw [base37Value_append_singleton, base37Digit_base37Char hd, List.length_append, List.length_singleton,
      base37Digits_mul_add _ _ hd, text, Nat.pow_succ']
    exact ⟨by omega, rfl⟩

/-- `base37_value(s) = Σ_k index(s[n-1-k])·37^k` (rule R18) for any number n of characters. -/
theorem base37Value_eq_sum (s : List Byte) :
    base37Value s =
      ((List.range s.length).map fun k => base37Digit (s.getD (s.length - 1 - k) 0) * 37 ^ k).sum := by
  induction s using List.reverseRecOn with
  | nil => rfl
  | append_singleton s c ih =>
    have place : ∀ k ∈ List.range s.length,
        37 * (base37Digit (s.getD (s.length - 1 - k) 0) * 37 ^ k) =
          base37Digit ((s ++ [c]).getD (s.length - (k + 1)) 0) * 37 ^ (k + 1) := by
      intro k hk
      have hk : k < s.length := List.mem_range.mp hk
      rw [List.getD_append _ _ _ _ (by omega), Nat.sub_add_eq, Nat.sub_right_comm, Nat.pow_succ]
      ring
    have last : (s ++ [c]).getD s.length 0 = c := by simp
    rw [base37Value_append_singleton, ih, List.length_append, List.length_singleton, List.range_succ_eq_map,
      List.map_cons, List.sum_cons, List.map_map, Nat.add_sub_cancel, Nat.sub_zero, last, pow_zero, mul_one,
      ← List.sum_map_mul_left, Nat.add_comm]
    exact congrArg (_ + List.sum ·) (List.map_congr_left place)

/-- Settles O20: nine digits of a value below `37^9` lose nothing, and nine characters of the alphabet are the digits
of their value. -/
theorem callSignTextRoundTrips : Obligations.CallSignTextRoundTrips := by
  refine ⟨by decide, fun v hv => ⟨length_base37Digits v 9, ?_, fun k hk => ?_⟩,
    fun s hs alphabet => ?_, by decide⟩
  · exact (base37Value_base37Digits v 9).trans (Nat.mod_eq_of_lt hv)
  · exact base37Digits_getElem? v (by omega)
  · obtain ⟨bound, text⟩ := base37Value_spec s alphabet
    have sum := base37Value_eq_sum s
    rw [hs] at bound text sum
    exact ⟨bound, text, sum⟩

/-- The selectors 0 to 4 select the five rates in order, the others none (rules R6, R103). -/
theorem ofSel_eq_getElem? (sel : BitVec 3) :
    Rate.ofSel sel = ([.r8000, .r16000, .r32000, .r44100, .r48000] : List Rate)[sel.toNat]? := by
  revert sel
  decide

/-- Settles O10: the sizes evaluate to the listed values, and so does the selection at each of the eight selectors. -/
theorem lengthsOfTheFiveRates : Obligations.LengthsOfTheFiveRates :=
  ⟨rfl, by decide, by decide, by decide, by decide, by decide, rfl, rfl, rfl, rfl, rfl, rfl, rfl, rfl,
    ofSel_eq_getElem?⟩

end Sys2Proof.Machine
end

section
/-! SUPPORT. What each operation can do where it completes: on a CREATED decoder unit, and to that unit for the
operations of the erasure unit.
Rule R23: only PROCESS advances `n_w`. -/

namespace Sys2Proof.Machine

section
variable {s t : State}

/-! ### The operations of a CREATED decoder unit -/

/-- CREATE fails on a CREATED unit (rule R360). -/
theorem execCreate_created (sel : BitVec 3) (h : s.dec.alive = .created) :
    execCreate sel s = .next (s.decRespond (rspBool false)) := by
  unfold execCreate
  rw [h]

theorem execRate_created (h : s.dec.alive = .created) : execRate s = .next (s.decRespond (rspRate s.dec.rate)) :=
  whenDecCreated_created h _

/-- A CACHED that completes had a preamble to report and a CALL9 of nine bytes (rules R72, R365). -/
theorem execCached_next (h : s.dec.alive = .created) (hx : execCached s = .next t) :
    s.dec.cachedAny = true ∧ s.bufs.lenOf (.byte .call9) = 9 ∧ t = cachedNext Config.functions s := by
  rw [execCached, whenDecCreated_created h] at hx
  split at hx
  next any =>
    obtain ⟨body, fits⟩ := whenLengthsFit_next hx
    cases body
    exact ⟨any, fits (.byte .call9, 9) List.mem_cons_self, rfl⟩
  next => cases hx

/-- A FETCH that completes had a payload ready, an admissible frozen table and a PAYLOAD of 5380 bytes
(rules R72, R262, R366). -/
theorem execFetch_next (h : s.dec.alive = .created) (hx : execFetch s = .next t) :
    s.dec.payloadReady = true ∧ frozenOk (Params.frozen s.params s.dec.mode.frozenSel) s.dec.mode.mesgBits = true ∧
      s.bufs.lenOf (.byte .payload) = payloadLen ∧ t = fetchNext Config.functions s := by
  rw [execFetch, whenDecCreated_created h] at hx
  split at hx
  next ready =>
    split at hx
    next table =>
      obtain ⟨body, fits⟩ := whenLengthsFit_next hx
      cases body
      exact ⟨ready, table, fits (.byte .payload, payloadLen) List.mem_cons_self, rfl⟩
    next => cases hx
  next => cases hx

/-- The channel selectors are 0 to 4 (rules R103, R120). -/
theorem channelOfSel_isSome_iff (sel : BitVec 3) : (Channel.ofSel sel).isSome ↔ sel.toNat ≤ 4 := by
  revert sel
  decide

/-- PROCESS with an illegal channel answers `ERR` (rule R120). -/
theorem execProcess_illegal {sel : BitVec 3} (hc : Channel.ofSel sel = none) :
    execProcess sel s = .next (s.decRespond rspErr) := by
  rw [execProcess, hc, err_dec]

/-- PROCESS with a legal channel on a CREATED unit (rule R363). -/
theorem execProcess_created {sel : BitVec 3} {ch : Channel} (hc : Channel.ofSel sel = some ch)
    (h : s.dec.alive = .created) : execProcess sel s = processWith Config.functions ch s := by
  rw [execProcess, hc, h]

/-! ### The operations of the erasure unit leave the decoder unit -/

/-- An operation of the erasure unit completes with its body, or answers `ERR` where the unit is ABSENT (rule R406). -/
theorem whenErsCreated_next {body : Result} (hx : whenErsCreated s body = .next t) :
    t = s.ersRespond rspErr ∨ body = .next t := by
  cases h : s.ers.alive with
  | absent =>
    rw [whenErsCreated_absent h] at hx
    cases hx
    exact .inl rfl
  | created =>
    rw [whenErsCreated_created h] at hx
    exact .inr hx

theorem execEcreate_dec (hx : execEcreate s = .next t) : t.dec = s.dec := by
  unfold execEcreate at hx
  split at hx <;> cases hx <;> rfl

theorem execEdestroy_dec (hx : execEdestroy s = .next t) : t.dec = s.dec := by
  obtain rfl | body := whenErsCreated_next hx
  · rfl
  · cases body
    rfl

theorem execChunk_dec {idx : BitVec 4} {ident : BitVec 16} (hx : execChunk idx ident s = .next t) :
    t.dec = s.dec := by
  obtain rfl | body := whenErsCreated_next hx
  · rfl
  · split at body
    · split at body <;> cases body
      rfl
    · cases body
      rfl

theorem execRecover_dec {count : BitVec 4} {total : BitVec 20} (hx : execRecover count total s = .next t) :
    t.dec = s.dec := by
  unfold execRecover at hx
  split at hx
  · obtain rfl | body := whenErsCreated_next hx
    · rfl
    · split at body <;> cases body
      rfl
  · cases hx
    rfl

/-- No operation of the erasure unit changes the decoder unit (rule R83). -/
theorem exec_ers_dec {i : Instr} (hu : i.unit = .ers) (hx : exec i s = .next t) : t.dec = s.dec := by
  cases i with
  | ecreate => exact execEcreate_dec hx
  | edestroy => exact execEdestroy_dec hx
  | chunk idx ident => exact execChunk_dec hx
  | recover count total => exact execRecover_dec hx
  | create | destroy | rate | process | cached | fetch => cases hu

/-! ### The sample counter (rule R23) -/

/-- A PROCESS that completes advances `n_w` by its block: once per frame in the sample loop, and not in the turn of the
burst machine (rules R23, R136, R363). -/
theorem processWith_nW {f : Functions} {ch : Channel} (hx : processWith f ch s = .next t) :
    t.dec.nW = s.dec.nW + Rate.lExt s.dec.rate := by
  obtain ⟨-, -, turn, machine, rfl⟩ := processWith_next_iff.mp hx
  obtain ⟨-, loop, -⟩ := sampleLoop_spec f s.params ch (processFrames ch s) s.dec
  calc (processNext f ch s turn).dec.nW
      = turn.dec.nW := rfl
    _ = (s.dec.sampleLoop f s.params ch (processFrames ch s)).nW := (machineStep_sameStream machine).nW
    _ = s.dec.nW + (processFrames ch s).length := loop
    _ = s.dec.nW + Rate.lExt s.dec.rate := by rw [processFrames, framesOf_length]

theorem execProcess_nW {sel : BitVec 3} (h : s.dec.alive = .created) (hx : execProcess sel s = .next t) :
    t.dec.nW = s.dec.nW + if sel.toNat ≤ 4 then Rate.lExt s.dec.rate else 0 := by
  have legal := channelOfSel_isSome_iff sel
  cases hc : Channel.ofSel sel with
  | none =>
    rw [execProcess_illegal hc] at hx
    cases hx
    rw [if_neg (by simpa [hc] using legal)]
    rfl
  | some ch =>
    rw [execProcess_created hc h] at hx
    rw [if_pos (by simpa [hc] using legal), processWith_nW hx]

theorem fetchNext_nW (f : Functions) (s : State) : (fetchNext f s).dec.nW = s.dec.nW := by
  obtain ⟨rsp, unit⟩ := fetchNext_dec f s
  rw [unit]
  rfl

end

/-- Settles O33: the sample loop of a PROCESS counts its frames; the other operations of the decoder unit answer without
touching the counter, and those of the erasure unit do not touch the decoder unit. -/
theorem onlyProcessAdvancesTheSampleCounter : Obligations.OnlyProcessAdvancesTheSampleCounter := by
  intro i s t created notDestroy hx
  cases i with
  | process sel => exact execProcess_nW created hx
  | create sel =>
    cases (execCreate_created sel created).symm.trans hx
    rfl
  | destroy => exact absurd rfl notDestroy
  | rate =>
    cases (execRate_created created).symm.trans hx
    rfl
  | cached =>
    obtain ⟨-, -, rfl⟩ := execCached_next created hx
    rfl
  | fetch =>
    obtain ⟨-, -, -, rfl⟩ := execFetch_next created hx
    exact fetchNext_nW _ s
  | ecreate | edestroy | chunk | recover => exact congrArg Dec.nW (exec_ers_dec rfl hx)

end Sys2Proof.Machine
end

section
/-! SUPPORT. The decoder reads exactly the words of the operations: `decode` and `encode` undo each other, a row is
selected by its mask, and rule R120's clauses name the words that are no legal operation of the unit. -/

namespace Sys2Proof

/-! ### The fields of the four formats (rules R101 to R105) -/

section
variable (opcode : BitVec 8) (sel : BitVec 3) (idx count : BitVec 4) (ident : BitVec 16) (total : BitVec 20)

@[simp] theorem opcodeOf_encodeZ : opcodeOf (encodeZ opcode) = opcode := (Laws.EncodesInRow.formatZ opcode).2

@[simp] theorem opcodeOf_encodeS : opcodeOf (encodeS opcode sel) = opcode := (Laws.EncodesInRow.formatS opcode sel).2

@[simp] theorem opcodeOf_encodeK : opcodeOf (encodeK 0x12#8 idx ident) = 0x12#8 :=
  (Laws.EncodesInRow.formatK idx ident).2

@[simp] theorem opcodeOf_encodeV : opcodeOf (encodeV 0x13#8 count total) = 0x13#8 :=
  (Laws.EncodesInRow.formatV count total).2

@[simp] theorem encodeZ_zero_field : (encodeZ opcode).extractLsb' 8 24 = 0 := BitVec.extractLsb'_append_eq_left

@[simp] theorem encodeS_zero_field : (encodeS opcode sel).extractLsb' 11 21 = 0 := BitVec.extractLsb'_append_eq_left

@[simp] theorem encodeS_sel_field : (encodeS opcode sel).extractLsb' 8 3 = sel := by
  rw [encodeS, BitVec.extractLsb'_append_eq_of_add_le (by decide), BitVec.extractLsb'_append_eq_left]

@[simp] theorem encodeK_zero_field : (encodeK opcode idx ident).extractLsb' 28 4 = 0 :=
  BitVec.extractLsb'_append_eq_left

@[simp] theorem encodeK_idx_field : (encodeK opcode idx ident).extractLsb' 8 4 = idx := by
  rw [encodeK, BitVec.extractLsb'_append_eq_of_add_le (by decide),
    BitVec.extractLsb'_append_eq_of_add_le (by decide), BitVec.extractLsb'_append_eq_left]

@[simp] theorem encodeK_ident_field : (encodeK opcode idx ident).extractLsb' 12 16 = ident := by
  rw [encodeK, BitVec.extractLsb'_append_eq_of_add_le (by decide), BitVec.extractLsb'_append_eq_left]

@[simp] theorem encodeV_count_field : (encodeV opcode count total).extractLsb' 8 4 = count := by
  rw [encodeV, BitVec.extractLsb'_append_eq_of_add_le (by decide), BitVec.extractLsb'_append_eq_left]

@[simp] theorem encodeV_total_field : (encodeV opcode count total).extractLsb' 12 20 = total :=
  BitVec.extractLsb'_append_eq_left

end

/-! A word is put together again from its fields, where its `zero` bits are zero. -/

section
variable {w : Word} {opcode : BitVec 8}

theorem encodeZ_fields (row : opcodeOf w = opcode) (zero : w.extractLsb' 8 24 = 0) : encodeZ opcode = w := by
  rw [encodeZ, ← row, opcodeOf, ← zero, BitVec.extractLsb'_append_extractLsb'_eq_extractLsb' (by rfl),
    BitVec.extractLsb'_eq_self]

theorem encodeS_fields (row : opcodeOf w = opcode) (zero : w.extractLsb' 11 21 = 0) :
    encodeS opcode (w.extractLsb' 8 3) = w := by
  rw [encodeS, ← row, opcodeOf, ← zero, BitVec.extractLsb'_append_extractLsb'_eq_extractLsb' (by rfl),
    BitVec.extractLsb'_append_extractLsb'_eq_extractLsb' (by rfl), BitVec.extractLsb'_eq_self]

theorem encodeK_fields (row : opcodeOf w = opcode) (zero : w.extractLsb' 28 4 = 0) :
    encodeK opcode (w.extractLsb' 8 4) (w.extractLsb' 12 16) = w := by
  rw [encodeK, ← row, opcodeOf, ← zero, BitVec.extractLsb'_append_extractLsb'_eq_extractLsb' (by rfl),
    BitVec.extractLsb'_append_extractLsb'_eq_extractLsb' (by rfl),
    BitVec.extractLsb'_append_extractLsb'_eq_extractLsb' (by rfl), BitVec.extractLsb'_eq_self]

theorem encodeV_fields (row : opcodeOf w = opcode) :
    encodeV opcode (w.extractLsb' 8 4) (w.extractLsb' 12 20) = w := by
  rw [encodeV, ← row, opcodeOf, BitVec.extractLsb'_append_extractLsb'_eq_extractLsb' (by rfl),
    BitVec.extractLsb'_append_extractLsb'_eq_extractLsb' (by rfl), BitVec.extractLsb'_eq_self]

/-! What each format reads: where its `zero` bits are zero, its operands; else nothing. -/

section
variable {n : Nat} {i j : Instr}

theorem opcodeOf_eq (h : (opcodeOf w).toNat = n) : opcodeOf w = BitVec.ofNat 8 n := by
  rw [← h, BitVec.ofNat_toNat, BitVec.setWidth_eq]

theorem decodeZ_eq_ok (opcode : (opcodeOf w).toNat = n) (h : decodeZ w i = .ok j) :
    j = i ∧ encodeZ (BitVec.ofNat 8 n) = w := by
  unfold decodeZ at h
  split at h
  next zero =>
    cases h
    exact ⟨rfl, encodeZ_fields (opcodeOf_eq opcode) zero⟩
  next => cases h

theorem decodeS_eq_ok {row : BitVec 3 → Instr} (opcode : (opcodeOf w).toNat = n) (h : decodeS w row = .ok j) :
    ∃ sel, j = row sel ∧ encodeS (BitVec.ofNat 8 n) sel = w := by
  unfold decodeS at h
  split at h
  next zero =>
    cases h
    exact ⟨_, rfl, encodeS_fields (opcodeOf_eq opcode) zero⟩
  next => cases h

theorem decodeK_eq_ok {row : BitVec 4 → BitVec 16 → Instr} (opcode : (opcodeOf w).toNat = n)
    (h : decodeK w row = .ok j) : ∃ idx ident, j = row idx ident ∧ encodeK (BitVec.ofNat 8 n) idx ident = w := by
  unfold decodeK at h
  split at h
  next zero =>
    cases h
    exact ⟨_, _, rfl, encodeK_fields (opcodeOf_eq opcode) zero⟩
  next => cases h

theorem decodeV_eq_ok {row : BitVec 4 → BitVec 20 → Instr} (opcode : (opcodeOf w).toNat = n)
    (h : decodeV w row = .ok j) :
    ∃ count total, j = row count total ∧ encodeV (BitVec.ofNat 8 n) count total = w := by
  cases h
  exact ⟨_, _, rfl, encodeV_fields (opcodeOf_eq opcode)⟩

end

end

/-! ### Decoding and encoding (rule R107) -/

theorem decode_encode (i : Instr) : decode (encode i) = .ok i := by
  cases i with
  | create | process => simp [encode, decode, decodeS]
  | destroy | rate | cached | fetch | ecreate | edestroy => simp [encode, decode, decodeZ]
  | chunk => simp [encode, decode, decodeK]
  | recover => simp [encode, decode, decodeV]

theorem encode_decode {w : Word} {i : Instr} (h : decode w = .ok i) : encode i = w := by
  unfold decode at h
  split at h
  case h_1 opcode | h_4 opcode =>
    obtain ⟨sel, rfl, word⟩ := decodeS_eq_ok opcode h
    exact word
  case h_9 opcode =>
    obtain ⟨idx, ident, rfl, word⟩ := decodeK_eq_ok opcode h
    exact word
  case h_10 opcode =>
    obtain ⟨count, total, rfl, word⟩ := decodeV_eq_ok opcode h
    exact word
  case h_11 => cases h
  case h_2 opcode | h_3 opcode | h_5 opcode | h_6 opcode | h_7 opcode | h_8 opcode =>
    obtain ⟨rfl, word⟩ := decodeZ_eq_ok opcode h
    exact word

/-- No bit of a command word is ignored, and every operation has one word (rules R102 to R107). -/
theorem decode_eq_ok_iff {w : Word} {i : Instr} : decode w = .ok i ↔ encode i = w :=
  ⟨encode_decode, fun h => h ▸ decode_encode i⟩

/-! ### Rows and masks (rule R107) -/

@[simp] theorem opcodeOf_zeroExtend (opcode : BitVec 8) : opcodeOf (opcode.zeroExtend 32) = opcode := by
  rw [opcodeOf, BitVec.zeroExtend, BitVec.extractLsb'_setWidth_of_le (by decide), BitVec.extractLsb'_eq_self]

theorem zeroExtend_above (opcode : BitVec 8) {start : Nat} (above : 8 ≤ start) (len : Nat) :
    (opcode.zeroExtend 32).extractLsb' start len = 0 := by
  ext k hk
  have beyond : opcode.getLsbD (start + k) = false := BitVec.getLsbD_of_ge _ _ (by omega)
  simp [beyond]

section
variable {w mask : Word} {opcode : BitVec 8}

/-- The opcode of a word under a mask that covers the opcode. -/
theorem opcodeOf_of_masked (h : w &&& mask = opcode.zeroExtend 32) (covered : opcodeOf mask = BitVec.allOnes 8) :
    opcodeOf w = opcode := by
  have field := congrArg opcodeOf h
  rwa [opcodeOf_zeroExtend, opcodeOf, BitVec.extractLsb'_and, ← opcodeOf, ← opcodeOf, covered,
    BitVec.and_allOnes] at field

/-- A field above the opcode that the mask covers is zero. -/
theorem field_of_masked (h : w &&& mask = opcode.zeroExtend 32) {start len : Nat}
    (covered : mask.extractLsb' start len = BitVec.allOnes len) (above : 8 ≤ start) : w.extractLsb' start len = 0 := by
  have field := congrArg (BitVec.extractLsb' start len) h
  rwa [zeroExtend_above opcode above, BitVec.extractLsb'_and, covered, BitVec.and_allOnes] at field

theorem encodeZ_of_masked (h : w &&& 0xFFFFFFFF#32 = opcode.zeroExtend 32) : encodeZ opcode = w :=
  encodeZ_fields (opcodeOf_of_masked h (by decide)) (field_of_masked h (by decide) (by decide))

theorem encodeS_of_masked (h : w &&& 0xFFFFF8FF#32 = opcode.zeroExtend 32) :
    encodeS opcode (w.extractLsb' 8 3) = w :=
  encodeS_fields (opcodeOf_of_masked h (by decide)) (field_of_masked h (by decide) (by decide))

theorem encodeK_of_masked (h : w &&& 0xF00000FF#32 = opcode.zeroExtend 32) :
    encodeK opcode (w.extractLsb' 8 4) (w.extractLsb' 12 16) = w :=
  encodeK_fields (opcodeOf_of_masked h (by decide)) (field_of_masked h (by decide) (by decide))

theorem encodeV_of_masked (h : w &&& 0x000000FF#32 = opcode.zeroExtend 32) :
    encodeV opcode (w.extractLsb' 8 4) (w.extractLsb' 12 20) = w :=
  encodeV_fields (opcodeOf_of_masked h (by decide))

end

/-- A word under the mask of a row is the word of an operation of that row: the mask covers the opcode and the `zero`
bits, and the other bits are the operands. -/
theorem exists_encode_of_masked {w : Word} {i : Instr} (h : w &&& rowMask i = rowMatch i) :
    ∃ j, encode j = w ∧ j.mnemonic = i.mnemonic := by
  cases i with
  | create => exact ⟨.create _, encodeS_of_masked h, rfl⟩
  | destroy => exact ⟨.destroy, encodeZ_of_masked h, rfl⟩
  | rate => exact ⟨.rate, encodeZ_of_masked h, rfl⟩
  | process => exact ⟨.process _, encodeS_of_masked h, rfl⟩
  | cached => exact ⟨.cached, encodeZ_of_masked h, rfl⟩
  | fetch => exact ⟨.fetch, encodeZ_of_masked h, rfl⟩
  | ecreate => exact ⟨.ecreate, encodeZ_of_masked h, rfl⟩
  | edestroy => exact ⟨.edestroy, encodeZ_of_masked h, rfl⟩
  | chunk => exact ⟨.chunk _ _, encodeK_of_masked h, rfl⟩
  | recover => exact ⟨.recover _ _, encodeV_of_masked h, rfl⟩

/-- The opcode map: mnemonic, match and mask of each row. -/
def opcodeMap : List (String × Word × Word) :=
  [("CREATE", 0x00000000, 0xFFFFF8FF), ("DESTROY", 0x00000001, 0xFFFFFFFF), ("RATE", 0x00000002, 0xFFFFFFFF),
    ("PROCESS", 0x00000003, 0xFFFFF8FF), ("CACHED", 0x00000004, 0xFFFFFFFF), ("FETCH", 0x00000005, 0xFFFFFFFF),
    ("ECREATE", 0x00000010, 0xFFFFFFFF), ("EDESTROY", 0x00000011, 0xFFFFFFFF), ("CHUNK", 0x00000012, 0xF00000FF),
    ("RECOVER", 0x00000013, 0x000000FF)]

theorem opcodeMap_lookup (i : Instr) : opcodeMap.lookup i.mnemonic = some (rowMatch i, rowMask i) := by
  cases i <;> rfl

theorem row_eq_of_mnemonic_eq {i j : Instr} (h : j.mnemonic = i.mnemonic) :
    rowMatch j = rowMatch i ∧ rowMask j = rowMask i := by
  have row := (opcodeMap_lookup j).symm.trans (h ▸ opcodeMap_lookup i)
  simpa using row

theorem encode_in_row (i : Instr) : Laws.EncodesInRow.Statement i := by
  cases i with
  | create sel => exact Laws.EncodesInRow.create sel
  | destroy => exact Laws.EncodesInRow.destroy
  | rate => exact Laws.EncodesInRow.rate
  | process ch => exact Laws.EncodesInRow.process ch
  | cached => exact Laws.EncodesInRow.cached
  | fetch => exact Laws.EncodesInRow.fetch
  | ecreate => exact Laws.EncodesInRow.ecreate
  | edestroy => exact Laws.EncodesInRow.edestroy
  | chunk idx ident => exact Laws.EncodesInRow.chunk idx ident
  | recover count total => exact Laws.EncodesInRow.recover count total

/-- A word selects a row exactly when it decodes to an operation of that row. -/
theorem masked_iff_decode (w : Word) (i : Instr) :
    w &&& rowMask i = rowMatch i ↔ ∃ j, decode w = .ok j ∧ j.mnemonic = i.mnemonic := by
  simp only [decode_eq_ok_iff]
  constructor
  · exact exists_encode_of_masked
  · rintro ⟨j, rfl, row⟩
    obtain ⟨sameMatch, sameMask⟩ := row_eq_of_mnemonic_eq row
    rw [← sameMatch, ← sameMask]
    exact (encode_in_row j).1

theorem unit_iff_rowMatch (i : Instr) :
    (i.unit = .dec ↔ (rowMatch i).toNat ≤ 0x05) ∧ (i.unit = .ers ↔ 0x10 ≤ (rowMatch i).toNat) := by
  cases i <;> simp [Instr.unit, rowMatch]

namespace Machine

/-- A unit reads an operation from a word exactly when the word is the operation's and its CMD accepts it. -/
theorem acceptedBy_eq_some_iff {u : UnitId} {w : Word} {i : Instr} :
    acceptedBy u w = some i ↔ decode w = .ok i ∧ i.unit = u := by
  unfold acceptedBy
  cases decode w with
  | error => simp
  | ok j =>
    simp only [Option.ite_none_right_eq_some, Option.some.injEq, Except.ok.injEq]
    exact ⟨fun ⟨unit, same⟩ => ⟨same, same ▸ unit⟩, fun ⟨same, unit⟩ => ⟨same ▸ unit, same⟩⟩

/-- Settles O3: a row's mask covers exactly the opcode and the `zero` bits of its format, and a word is the word of the
operation it decodes to. -/
theorem matchAndMaskSelectTheRow : Obligations.MatchAndMaskSelectTheRow :=
  ⟨fun _ _ _ _ _ => rfl, masked_iff_decode, fun _ _ _ => acceptedBy_eq_some_iff, unit_iff_rowMatch⟩

/-! ### Illegal commands (rule R120) -/

section
variable {w : Word} {e : DecodeError}

theorem decodeZ_eq_error {i : Instr} (h : decodeZ w i = .error e) : w.extractLsb' 8 24 ≠ 0 := by
  intro zero
  rw [decodeZ, if_pos zero] at h
  cases h

theorem decodeS_eq_error {row : BitVec 3 → Instr} (h : decodeS w row = .error e) : w.extractLsb' 11 21 ≠ 0 := by
  intro zero
  rw [decodeS, if_pos zero] at h
  cases h

theorem decodeK_eq_error {row : BitVec 4 → BitVec 16 → Instr} (h : decodeK w row = .error e) :
    w.extractLsb' 28 4 ≠ 0 := by
  intro zero
  rw [decodeK, if_pos zero] at h
  cases h

/-- A word that is no operation's has no opcode of the map or a `zero` bit that is 1. -/
theorem reserved_of_decode_eq_error (h : decode w = .error e) :
    (opcodeOf w).toNat ∉ [0x00, 0x01, 0x02, 0x03, 0x04, 0x05, 0x10, 0x11, 0x12, 0x13] ∨ zeroBitSet w := by
  unfold decode at h
  split at h
  case h_1 opcode | h_4 opcode => exact .inr (.inl ⟨by simp [opcode], decodeS_eq_error h⟩)
  case h_9 opcode => exact .inr (.inr (.inr ⟨opcode, decodeK_eq_error h⟩))
  case h_10 => cases h
  case h_11 =>
    left
    simp only [List.mem_cons, List.not_mem_nil]
    tauto
  case h_2 opcode | h_3 opcode | h_5 opcode | h_6 opcode | h_7 opcode | h_8 opcode =>
    exact .inr (.inr (.inl ⟨by simp [opcode], decodeZ_eq_error h⟩))

end

/-! The clauses of rule R120 on the word of an operation. -/

section
variable (i : Instr)

theorem opcode_encode_mem :
    (opcodeOf (encode i)).toNat ∈ [0x00, 0x01, 0x02, 0x03, 0x04, 0x05, 0x10, 0x11, 0x12, 0x13] := by
  cases i <;> simp [encode]

theorem opcode_encode_mem_dec :
    (opcodeOf (encode i)).toNat ∈ [0x00, 0x01, 0x02, 0x03, 0x04, 0x05] ↔ i.unit = .dec := by
  cases i <;> simp [encode, Instr.unit]

theorem opcode_encode_mem_ers :
    (opcodeOf (encode i)).toNat ∈ [0x10, 0x11, 0x12, 0x13] ↔ i.unit = .ers := by
  cases i <;> simp [encode, Instr.unit]

theorem not_zeroBitSet_encode : ¬ zeroBitSet (encode i) := by
  cases i <;> simp [zeroBitSet, encode]

end

theorem channelLegal_eq_false_iff {channel : BitVec 3} : channelLegal channel = false ↔ 5 ≤ channel.toNat := by
  rw [channelLegal, decide_eq_false_iff_not]
  omega

theorem countLegal_eq_false_iff {count : BitVec 4} :
    countLegal count = false ↔ count.toNat = 0 ∨ 13 ≤ count.toNat := by
  rw [countLegal, Bool.and_eq_false_iff, decide_eq_false_iff_not, decide_eq_false_iff_not]
  omega

/-- The last clause of rule R120: a selector is out of its range. -/
theorem selector_encode_iff (i : Instr) :
    ((opcodeOf (encode i)).toNat = 0x03 ∧ 5 ≤ ((encode i).extractLsb' 8 3).toNat ∨
      (opcodeOf (encode i)).toNat = 0x13 ∧
        (((encode i).extractLsb' 8 4).toNat = 0 ∨ 13 ≤ ((encode i).extractLsb' 8 4).toNat)) ↔ i.wf = false := by
  cases i with
  | process => simp [encode, Instr.wf, channelLegal_eq_false_iff]
  | recover => simp [encode, Instr.wf, countLegal_eq_false_iff]
  | create | destroy | rate | cached | fetch | ecreate | edestroy | chunk => simp [encode, Instr.wf]

/-- The word of an operation is illegal for a unit exactly when the operation belongs to the other kind of unit or a
selector of it is out of its range. -/
theorem illegalFor_encode_iff {u : UnitId} {i : Instr} :
    illegalFor u (encode i) ↔ i.unit ≠ u ∨ i.wf = false := by
  rw [illegalFor, selector_encode_iff, opcode_encode_mem_dec, opcode_encode_mem_ers]
  have mem := opcode_encode_mem i
  have zeros := not_zeroBitSet_encode i
  cases u <;> cases hu : i.unit <;> simp [mem, zeros]

/-- The legal commands of a unit are the words of its well-formed operations. -/
theorem not_illegalFor_iff {u : UnitId} {w : Word} :
    ¬ illegalFor u w ↔ ∃ i, decode w = .ok i ∧ i.unit = u ∧ i.wf = true := by
  cases h : decode w with
  | error e =>
    have illegal : illegalFor u w := by
      rcases reserved_of_decode_eq_error h with reserved | reserved
      · exact .inl reserved
      · exact .inr (.inr (.inr (.inl reserved)))
    simp [illegal]
  | ok i =>
    rw [← encode_decode h, illegalFor_encode_iff]
    simp

/-- An operation with an illegal selector answers `ERR` (rule R120). -/
theorem exec_of_illformed {i : Instr} (h : i.wf = false) (s : State) : exec i s = .next (s.err i.unit) := by
  cases i with
  | process channel =>
    have noChannel : ¬ (Channel.ofSel channel).isSome :=
      mt (channelOfSel_isSome_iff channel).mp (of_decide_eq_false h)
    exact execProcess_illegal (Option.not_isSome_iff_eq_none.mp noChannel)
  | recover count total => exact if_neg (ne_true_of_eq_false h)
  | create | destroy | rate | cached | fetch | ecreate | edestroy | chunk => cases h

section
variable {u : UnitId} {w : Word}

theorem runCommand_eq_exec {i : Instr} (word : decode w = .ok i) (unit : i.unit = u) (s : State) :
    runCommand u w s = exec i s := by
  rw [runCommand, acceptedBy_eq_some_iff.mpr ⟨word, unit⟩]

theorem runCommand_encode (i : Instr) (s : State) : runCommand i.unit (encode i) s = exec i s :=
  runCommand_eq_exec (decode_encode i) rfl s

/-- An illegal command answers `ERR` and does nothing else (rule R120). -/
theorem runCommand_of_illegal (h : illegalFor u w) (s : State) : runCommand u w s = .next (s.err u) := by
  unfold runCommand
  cases accepted : acceptedBy u w with
  | none => rfl
  | some i =>
    obtain ⟨word, rfl⟩ := acceptedBy_eq_some_iff.mp accepted
    rw [← encode_decode word, illegalFor_encode_iff] at h
    exact exec_of_illformed (h.resolve_left fun other => other rfl) s

end

/-- CREATE with a `rate_sel` of no rate returns false (rules R103, R360). -/
theorem execCreate_of_no_rate {sel : BitVec 3} (h : 5 ≤ sel.toNat) (s : State) :
    execCreate sel s = .next (s.decRespond 0) := by
  have noRate : Rate.ofSel sel = none := by
    rw [ofSel_eq_getElem?, List.getElem?_eq_none h]
  unfold execCreate
  rw [noRate]
  cases s.dec.alive <;> rfl

/-- CHUNK with a slot number above 11 returns false (rule R305). -/
theorem execChunk_of_no_slot {s : State} {idx : BitVec 4} (ident : BitVec 16) (created : s.ers.alive = .created)
    (h : 12 ≤ idx.toNat) : execChunk idx ident s = .next (s.ersRespond 0) := by
  rw [execChunk, whenErsCreated_created created, dif_neg (by omega)]
  rfl

/-- Settles O5: the legal commands of a unit are the words of its well-formed operations; any other word is not accepted
or has a selector that its operation answers with `ERR`. -/
theorem illegalWordsAnswerErrAndDoNothing : Obligations.IllegalWordsAnswerErrAndDoNothing := by
  refine ⟨fun w s h => runCommand_of_illegal h s, fun w s h => runCommand_of_illegal h s, fun u w s h => ?_,
    fun sel h => ?_, fun idx ident h => ?_, fun sel s h => ?_, fun idx ident s h created => ?_⟩
  · obtain ⟨i, word, unit, wf⟩ := not_illegalFor_iff.mp h
    exact ⟨i, word, unit, wf, runCommand_eq_exec word unit s⟩
  · simp [illegalFor_encode_iff, Instr.unit, Instr.wf] at h
  · simp [illegalFor_encode_iff, Instr.unit, Instr.wf] at h
  · exact (runCommand_encode (.create sel) s).trans (execCreate_of_no_rate h s)
  · exact (runCommand_encode (.chunk idx ident) s).trans (execChunk_of_no_slot ident created h)

end Machine

end Sys2Proof
end

section
/-! SUPPORT. FETCH where it completes (rule R366). -/

namespace Sys2Proof.Machine

/-! ### The constant of the lengthening (rule R264) -/

theorem nineThousand_exact : F32.toRat? F32.nineThousand = some 9000 := by decide

theorem roundNearest_intCast (num : Numerics) (n : Int) : roundNearest num n = n := by
  simp [roundNearest]

theorem toInt8_nineThousand (num : Numerics) : toInt8 num F32.nineThousand = 127#8 := by
  unfold toInt8
  rw [nineThousand_exact]
  exact congrArg saturate127 (roundNearest_intCast num 9000)

theorem quant9000_int8 (num : Numerics) : quant9000 num .int8 = .int8 127#8 :=
  congrArg SoftBit.int8 (toInt8_nineThousand num)

/-! ### The answer (rule R110) -/

theorem flipCount_le_length (kind : SoftKind) (code : List SoftBit) (lane : Lane) :
    flipCount kind code lane ≤ code.length := by
  cases kind with
  | float => exact Nat.zero_le _
  | int8 =>
    refine List.count_le_length.trans ?_
    rw [List.length_zipWith]
    exact Nat.min_le_left _ _

section
variable {flips : Nat}

theorem rspFetch_toNat (h : flips < 2 ^ 23) : (rspFetch flips).toNat = 1 + 2 ^ 8 * flips := by
  have disjoint : 2 ^ 8 * flips + 1 = 2 ^ 8 * flips ||| 1 := Nat.two_pow_add_eq_or_of_lt (by decide) flips
  have fits : 2 ^ 8 * flips < 2 ^ 32 := by omega
  rw [Nat.add_comm, disjoint, rspFetch, BitVec.toNat_or, BitVec.toNat_shiftLeft, BitVec.toNat_ofNat,
    BitVec.toNat_ofNat, Nat.shiftLeft_eq, Nat.mod_mul_mod, Nat.mul_comm, Nat.mod_eq_of_lt fits]
  exact Nat.or_comm _ _

/-- `OK` is set, `ERR` is clear and the flip count stands in bits 30:8 (rule R110). -/
theorem rspFetch_fields (h : flips < 2 ^ 23) :
    (rspFetch flips).getLsbD 0 = true ∧ (rspFetch flips).getLsbD 31 = false ∧
      ((rspFetch flips).extractLsb' 8 23).toNat = flips := by
  have value := rspFetch_toNat h
  refine ⟨by simp [rspFetch], ?_, ?_⟩
  · rw [← BitVec.testBit_toNat]
    exact Nat.testBit_lt_two_pow (by omega)
  · rw [BitVec.extractLsb'_toNat, value, Nat.shiftRight_eq_div_pow]
    omega

end

/-! ### What FETCH leaves (rule R366) -/

section
variable {s : State} (f : Functions)

/-- On a CREATED unit with a payload ready, an admissible frozen table and a PAYLOAD of its length FETCH completes. -/
theorem execFetch_completes (created : s.dec.alive = .created) (ready : s.dec.payloadReady = true)
    (table : frozenOk (Params.frozen s.params s.dec.mode.frozenSel) s.dec.mode.mesgBits = true)
    (len : s.bufs.payload.len = payloadLen) : execFetch s = .next (fetchNext Config.functions s) := by
  rw [execFetch, whenDecCreated_created created, if_pos ready, if_pos table]
  exact whenLengthsFit_of_fits (List.forall_mem_singleton.mpr len)

/-- FETCH changes PAYLOAD, the draw counter, and `code`, `payload_ready` and RSP of the unit. -/
theorem fetchNext_frame (s : State) :
    fetchNext f s = { s with
      draws := (fetchNext f s).draws
      bufs := { s.bufs with payload := (fetchNext f s).bufs.payload }
      dec := s.dec.fetched (s.dec.lengthened f s.params) (fetchNext f s).dec.rsp } := by
  generalize left : fetchNext f s = t
  unfold fetchNext at left
  dsimp only at left
  split at left <;> exact left ▸ rfl

theorem fetchNext_payload_sameFrom (s : State) :
    s.bufs.payload.SameFrom (fetchNext f s).bufs.payload payloadLen := by
  obtain ⟨bytes, length, bufs⟩ := fetchNext_payload f s
  rw [bufs]
  exact buffer_sameFrom_write _ _ (Nat.le_of_eq length)

/-- A selected lane gives the flip count and the payload. -/
theorem fetchNext_of_lane {lane : Lane}
    (selected : selectLane s.params (lanesOf f (Params.frozen s.params s.dec.mode.frozenSel) s.dec.mode.mesgBits
      (s.dec.lengthened f s.params)) = some lane) :
    (fetchNext f s).dec.rsp = rspFetch (flipCount s.params.soft (s.dec.lengthened f s.params) lane) ∧
      (fetchNext f s).bufs.payload = s.bufs.payload.writeFrom 0 (payloadBytes s.params lane.message) := by
  unfold fetchNext
  dsimp only
  rw [selected]
  exact ⟨rfl, rfl⟩

theorem fetchNext_rsp_of_no_lane
    (unselected : selectLane s.params (lanesOf f (Params.frozen s.params s.dec.mode.frozenSel) s.dec.mode.mesgBits
      (s.dec.lengthened f s.params)) = none) : (fetchNext f s).dec.rsp = 0 := by
  unfold fetchNext
  dsimp only
  rw [unselected]
  rfl

/-- The lengthened code of an admissible table has 65536 soft bits, so the flip count fits its field. -/
theorem flipCount_lengthened_lt (kind : SoftKind) (lane : Lane)
    (table : frozenOk (Params.frozen s.params s.dec.mode.frozenSel) s.dec.mode.mesgBits = true) :
    flipCount kind (s.dec.lengthened f s.params) lane < 2 ^ 23 := by
  have bound := flipCount_le_length kind (s.dec.lengthened f s.params) lane
  rw [Dec.lengthened, lengthen_length, (frozenOk_iff.mp table).1] at bound
  exact bound.trans_lt (by decide)

end

/-- Settles O21: FETCH completes, its frame is that of `fetchNext`, and the selected lane, if there is one, gives the
answer and the payload. -/
theorem fetchDecodesTheBurst : Obligations.FetchDecodesTheBurst := by
  refine ⟨fun f p d => ?_, nineThousand_exact, fun s created ready table len wf =>
    ⟨_, execFetch_completes created ready table len, fetchNext_frame _ s, fetchNext_payload_sameFrom _ s, ?_⟩⟩
  · unfold Dec.lengthened
    cases p.soft with
    | float => rfl
    | int8 =>
      rw [quant9000_int8]
      rfl
  split
  next lane selected =>
    obtain ⟨rsp, payload⟩ := fetchNext_of_lane _ selected
    have fits := flipCount_lengthened_lt Config.functions s.params.soft lane table
    obtain ⟨ok, err, flips⟩ := rspFetch_fields fits
    rw [rsp, payload]
    refine ⟨rspFetch_toNat fits, ok, err, flips, fun soft => ?_, fun k hk => ?_⟩
    · rw [soft]
      exact (by decide : rspFetch 0 = 1)
    · have length : (payloadBytes s.params lane.message).length = 5380 := payloadBytes_length ..
      rw [buffer_read_write_zero wf (by omega) (by omega), List.getD_eq_getElem _ _ (by omega)]
  next unselected => exact fetchNext_rsp_of_no_lane _ unselected

end Sys2Proof.Machine
end

section
/-! SUPPORT. binary32 is exact where it claims to be: a float32 given as the exact result has the value asked for, and
every fraction of a 24-bit integer by a power of two has one (rule R431, log entry 14). -/

namespace Sys2Proof.Machine

/-! ### The fields of a float32 -/

section
variable {e m : Nat}

theorem exponent_ofNat (he : e < 2 ^ 8) (hm : m < 2 ^ 23) :
    F32.exponent (BitVec.ofNat 32 (e * 2 ^ 23 + m)) = e := by
  have inWord : e * 2 ^ 23 + m < 2 ^ 32 := by omega
  rw [F32.exponent, BitVec.extractLsb'_toNat, BitVec.toNat_ofNat, Nat.mod_eq_of_lt inWord, Nat.shiftRight_eq_div_pow,
    Nat.mul_comm, Nat.mul_add_div (by decide), Nat.div_eq_of_lt hm, Nat.add_zero, Nat.mod_eq_of_lt he]

theorem fraction_ofNat (he : e < 2 ^ 8) (hm : m < 2 ^ 23) :
    F32.fraction (BitVec.ofNat 32 (e * 2 ^ 23 + m)) = m := by
  have inWord : e * 2 ^ 23 + m < 2 ^ 32 := by omega
  rw [F32.fraction, BitVec.extractLsb'_toNat, BitVec.toNat_ofNat, Nat.mod_eq_of_lt inWord, Nat.shiftRight_zero,
    Nat.mul_add_mod_of_lt hm]

theorem negative_ofNat (he : e < 2 ^ 8) (hm : m < 2 ^ 23) :
    F32.negative (BitVec.ofNat 32 (e * 2 ^ 23 + m)) = false := by
  rw [F32.negative, BitVec.msb_eq_false_iff_two_mul_lt, BitVec.toNat_ofNat]
  omega

/-- The value of a float32 with the sign clear. -/
theorem toRat?_ofNat (he : e < 255) (hm : m < 2 ^ 23) :
    F32.toRat? (BitVec.ofNat 32 (e * 2 ^ 23 + m)) = some (F32.magnitude e m) := by
  have finite : F32.isFinite (BitVec.ofNat 32 (e * 2 ^ 23 + m)) = true := by
    rw [F32.isFinite, exponent_ofNat (by omega) hm]
    exact decide_eq_true (by omega)
  rw [F32.toRat?, if_pos finite, exponent_ofNat (by omega) hm, fraction_ofNat (by omega) hm,
    negative_ofNat (by omega) hm]
  rfl

theorem magnitude_subnormal : F32.magnitude 0 m = m * 2 ^ (-149 : ℤ) := by
  rw [F32.magnitude, if_pos rfl, Rat.mkRat_eq_div, zpow_neg, div_eq_mul_inv]
  norm_cast

theorem magnitude_normal (he : 0 < e) : F32.magnitude e m = (2 ^ 23 + m : Nat) * 2 ^ ((e : ℤ) - 150) := by
  rw [F32.magnitude, if_neg he.ne']
  split
  next large =>
    rw [show (e : ℤ) - 150 = (e - 150 : Nat) by omega, zpow_natCast]
    push_cast
    rfl
  next small =>
    rw [show (e : ℤ) - 150 = -(150 - e : Nat) by omega, zpow_neg, zpow_natCast, Rat.mkRat_eq_div, div_eq_mul_inv]
    push_cast
    rfl

theorem toRat?_subnormal (hm : m < 2 ^ 23) : F32.toRat? (BitVec.ofNat 32 m) = some ((m : ℚ) * 2 ^ (-149 : ℤ)) := by
  have value := toRat?_ofNat (e := 0) (by decide) hm
  rwa [Nat.zero_mul, Nat.zero_add, magnitude_subnormal] at value

/-- A significand of 24 bits with the exponent x. -/
theorem toRat?_normal {x : ℤ} (low : -126 ≤ x) (high : x ≤ 127) (hm : 2 ^ 23 ≤ m) (hm' : m < 2 ^ 24) :
    F32.toRat? (BitVec.ofNat 32 ((x + 127).toNat * 2 ^ 23 + (m - 2 ^ 23))) = some ((m : ℚ) * 2 ^ (x - 23)) := by
  have bias : ((x + 127).toNat : ℤ) - 150 = x - 23 := by omega
  rw [toRat?_ofNat (by omega) (by omega), magnitude_normal (by omega), Nat.add_sub_cancel' hm, bias]

end

/-- Flipping the sign bit negates the value. -/
theorem toRat?_neg (x : F32) : F32.toRat? (F32.neg x) = (F32.toRat? x).map Neg.neg := by
  have exponent : F32.exponent (F32.neg x) = F32.exponent x := by simp [F32.exponent, F32.neg, BitVec.extractLsb'_xor]
  have fraction : F32.fraction (F32.neg x) = F32.fraction x := by simp [F32.fraction, F32.neg, BitVec.extractLsb'_xor]
  have negative : F32.negative (F32.neg x) = !F32.negative x := by
    rw [F32.negative, F32.neg, BitVec.msb_xor, show BitVec.msb 0x80000000#32 = true by decide, Bool.xor_true]
    rfl
  have finite : F32.isFinite (F32.neg x) = F32.isFinite x := by rw [F32.isFinite, F32.isFinite, exponent]
  simp only [F32.toRat?, finite, exponent, fraction, negative]
  cases F32.isFinite x <;> cases F32.negative x <;> simp

theorem toRat?_isSome_iff {x : F32} : (F32.toRat? x).isSome ↔ F32.isFinite x = true := by
  unfold F32.toRat?
  split <;> simp_all

/-! ### Exact results -/

/-- A significand is scaled without loss. -/
theorem significand_exact {n k m : Nat} {u : ℤ} (h : F32.significand n k u = some m) :
    (m : ℚ) * 2 ^ u = n * 2 ^ (-(k : ℤ)) := by
  unfold F32.significand at h
  dsimp only at h
  split at h
  next up =>
    cases h
    have shift : ((-(k : ℤ) - u).toNat : ℤ) = -k - u := Int.toNat_of_nonneg up
    rw [Nat.cast_mul, Nat.cast_pow, ← zpow_natCast, shift, mul_assoc, Nat.cast_two, ← zpow_add₀ two_ne_zero,
      sub_add_cancel]
  next down =>
    split at h
    next whole =>
      cases h
      have shift : ((-(-(k : ℤ) - u)).toNat : ℤ) = k + u := by omega
      obtain ⟨m, rfl⟩ := Nat.dvd_of_mod_eq_zero whole
      rw [Nat.mul_div_cancel_left _ (by positivity), Nat.cast_mul, Nat.cast_pow, ← zpow_natCast, shift,
        mul_right_comm, Nat.cast_two, ← zpow_add₀ two_ne_zero, mul_comm]
      congr 2
      ring
    next => cases h

/-- The power of two below a dyadic fraction. -/
theorem dyadic_binade {n : Nat} (hn : n ≠ 0) (k : Nat) :
    2 ^ ((Nat.log2 n : ℤ) - k) ≤ (n : ℚ) * 2 ^ (-(k : ℤ)) ∧
      (n : ℚ) * 2 ^ (-(k : ℤ)) < 2 ^ ((Nat.log2 n : ℤ) - k + 1) := by
  have low : ((2 ^ Nat.log2 n : Nat) : ℚ) ≤ n := by exact_mod_cast Nat.log2_self_le hn
  have high : (n : ℚ) < (2 ^ (Nat.log2 n + 1) : Nat) := by exact_mod_cast Nat.lt_log2_self
  rw [sub_add_eq_add_sub, sub_eq_add_neg, sub_eq_add_neg, zpow_add₀ two_ne_zero, zpow_add₀ two_ne_zero]
  constructor
  · gcongr
    exact_mod_cast low
  · gcongr
    exact_mod_cast high

/-- A significand has at most 24 bits; with all of them its unit is that of the exponent, with fewer the subnormal
one. -/
theorem significand_range {e u : ℤ} {m : Nat} (unit : u = max (e - 23) (-149)) (low : (2 : ℚ) ^ e ≤ m * 2 ^ u)
    (high : (m : ℚ) * 2 ^ u < 2 ^ (e + 1)) :
    m < 2 ^ 24 ∧ (m < 2 ^ 23 → u = -149) ∧ (2 ^ 23 ≤ m → u = e - 23) := by
  have shift (i : Nat) : (2 : ℚ) ^ ((i : ℤ) + u) = (2 ^ i : Nat) * 2 ^ u := by
    rw [zpow_add₀ two_ne_zero, zpow_natCast]
    push_cast
    rfl
  have positive : (0 : ℚ) < 2 ^ u := by positivity
  have below {i : Nat} (h : m < 2 ^ i) : e < i + u := by
    refine (zpow_lt_zpow_iff_right₀ (one_lt_two (α := ℚ))).mp (low.trans_lt ?_)
    rw [shift]
    gcongr
  have above {i : Nat} (h : 2 ^ i ≤ m) : i + u < e + 1 := by
    refine (zpow_lt_zpow_iff_right₀ (one_lt_two (α := ℚ))).mp (lt_of_le_of_lt ?_ high)
    rw [shift]
    gcongr
  refine ⟨?_, fun small => ?_, fun large => ?_⟩
  · by_contra wide
    have := above (not_lt.mp wide)
    omega
  · have := below small
    omega
  · have := above large
    omega

/-- The float32 given for a fraction in lowest terms has its value. -/
theorem toRat?_of_exactMag {n d : Nat} {x : F32} (h : F32.exactMag n d = some x) :
    F32.toRat? x = some ((n : ℚ) / d) := by
  unfold F32.exactMag at h
  split at h
  next zero =>
    cases h
    simp only [zero, Nat.cast_zero, zero_div]
    decide
  next nonzero =>
    dsimp only at h
    generalize binary : (Nat.log2 n : ℤ) - Nat.log2 d = e at h
    split at h
    next => cases h
    next range =>
      obtain ⟨power, top⟩ := not_or.mp range
      split at h
      next => cases h
      next m scaled =>
        obtain ⟨low, high⟩ := dyadic_binade nonzero (Nat.log2 d)
        have lossless := significand_exact scaled
        rw [← lossless, binary] at low high
        obtain ⟨bits, subnormal, normal⟩ := significand_range rfl low high
        have fraction : (n : ℚ) / d = n * 2 ^ (-(Nat.log2 d : ℤ)) := by
          rw [zpow_neg, zpow_natCast, ← div_eq_mul_inv]
          exact_mod_cast congrArg (fun d : Nat => (n : ℚ) / d) (not_not.mp power)
        rw [fraction, ← lossless]
        split at h <;> obtain rfl := Option.some.inj h
        next small => rw [toRat?_subnormal small, subnormal small]
        next large => rw [toRat?_normal (by omega) (by omega) (by omega) bits, normal (by omega)]

/-- The float32 given as the exact result has the value asked for. -/
theorem toRat?_of_exact? {q : ℚ} {x : F32} (h : F32.exact? q = some x) : F32.toRat? x = some q := by
  unfold F32.exact? at h
  split at h
  next => cases h
  next y mag =>
    have value := toRat?_of_exactMag mag
    cases h
    split
    next negative =>
      rw [toRat?_neg, value, Option.map_some, ← Int.cast_natCast,
        Int.ofNat_natAbs_of_nonpos (Rat.num_nonpos.mpr negative.le), Int.cast_neg, neg_div, neg_neg, Rat.num_div_den]
    next nonneg =>
      rw [value, ← Int.cast_natCast, Int.natAbs_of_nonneg (Rat.num_nonneg.mpr (not_lt.mp nonneg)), Rat.num_div_den]

/-- A fraction of a 24-bit number by a power of two, subnormal units included, has a float32. -/
theorem exactMag_isSome {n k : Nat} (hn : n < 2 ^ 24) (hk : k ≤ 149) : (F32.exactMag n (2 ^ k)).isSome := by
  unfold F32.exactMag
  split
  next => rfl
  next nonzero =>
    have bits : Nat.log2 n < 24 := (Nat.log2_lt nonzero).mpr hn
    dsimp only
    rw [Nat.log2_two_pow, if_neg (by omega), F32.significand, if_pos (by omega)]
    dsimp only
    split <;> rfl

/-- Narrowing the fraction of a 24-bit integer by a power of two loses nothing, whatever `NUM` is. -/
theorem toRat?_narrow_mkRat (num : Numerics) {v : ℤ} {k : Nat} (hv : v.natAbs < 2 ^ 24) (hk : k ≤ 149) :
    F32.toRat? (narrow num (mkRat v (2 ^ k))) = some (mkRat v (2 ^ k)) := by
  have denominator : (mkRat v (2 ^ k)).den ∣ 2 ^ k := by exact_mod_cast Rat.den_dvd v (2 ^ k : Nat)
  obtain ⟨j, below, power⟩ := (Nat.dvd_prime_pow Nat.prime_two).mp denominator
  have numerator : (mkRat v (2 ^ k)).num.natAbs < 2 ^ 24 := by
    rw [Rat.num_mkRat, if_neg (by positivity)]
    exact (Int.natAbs_ediv_le_natAbs _ _).trans_lt hv
  obtain ⟨mag, given⟩ := Option.isSome_iff_exists.mp (exactMag_isSome numerator (below.trans hk))
  rw [← power] at given
  have found : F32.exact? (mkRat v (2 ^ k)) = some (if mkRat v (2 ^ k) < 0 then F32.neg mag else mag) := by
    rw [F32.exact?, given]
  rw [narrow, found]
  exact toRat?_of_exact? found

end Sys2Proof.Machine
end

section
/-! SUPPORT. Stage 1 of PROCESS and the append to the ring: the channel select (rule R131), the sample stream
(rules R130 to R136), silence (rule R138). -/

namespace Sys2Proof.Machine

/-! ### The channel select (rule R131) -/

section
variable (num : Numerics) (a b : Half)

theorem toRat?_pcm {v : ℤ} (k : Nat) (hv : v.natAbs < 2 ^ 24) (hk : k ≤ 149) :
    F32.toRat? (pcm num v (2 ^ k)) = some ((v : ℚ) / 2 ^ k) := by
  rw [pcm, toRat?_narrow_mkRat num hv hk, Rat.mkRat_eq_div]
  norm_cast

theorem natAbs_toInt_le : a.toInt.natAbs ≤ 2 ^ 15 := by
  have upper := BitVec.toInt_lt (x := a)
  have lower := BitVec.le_toInt (x := a)
  omega

/-- A PCM sample over 32768 is a float32. -/
theorem toRat?_pcm_sample : F32.toRat? (pcm num a.toInt 32768) = some ((a.toInt : ℚ) / 32768) := by
  have value := toRat?_pcm num (v := a.toInt) 15 ((natAbs_toInt_le a).trans_lt (by decide)) (by decide)
  norm_num at value
  exact value

/-- The sum of two PCM samples, which may need 17 bits, over 65536 is a float32. -/
theorem toRat?_pcm_sum :
    F32.toRat? (pcm num (a.toInt + b.toInt) 65536) = some (((a.toInt : ℚ) + b.toInt) / 65536) := by
  have bits : (a.toInt + b.toInt).natAbs < 2 ^ 24 := by
    have := natAbs_toInt_le a
    have := natAbs_toInt_le b
    omega
  have value := toRat?_pcm num 16 bits (by decide)
  norm_num at value
  exact value

end

/-- Settles O36: a sample and the sum of two are fractions of 24-bit integers by a power of two. -/
theorem channelSelectIsExact : Obligations.ChannelSelectIsExact := fun num _ _ =>
  ⟨toRat?_pcm_sample num _, toRat?_pcm_sample num _, toRat?_pcm_sample num _, toRat?_pcm_sum num _ _,
    toRat?_pcm_sample num _, toRat?_pcm_sample num _⟩

/-! ### What a frame does to the sample stream (rules R130 to R136) -/

/-- The correlator leaves the conditioner's state and the samples. -/
structure Dec.SameSamples (d e : Dec) : Prop where
  rate : e.rate = d.rate
  ring : e.ring = d.ring
  nW : e.nW = d.nW
  dcState : e.dcState = d.dcState
  hilbert : e.hilbert = d.hilbert

theorem ringCap_pos (r : Rate) : 0 < Rate.ringCap r := by
  rw [ringCap_eq]
  exact Nat.mul_pos (by decide) (lExt_pos r)

theorem correlate_sameSamples (f : Functions) (d : Dec) : d.SameSamples (d.correlate f) := by
  rcases correlate_dec f d with ⟨cs, e⟩ | ⟨cs, pos, cfo, e⟩ <;> rw [e] <;> constructor <;> rfl

section
variable (f : Functions) (p : Params) (ch : Channel) (d : Dec) (fr : Frame)

theorem sampleStep_sameSamples :
    ((d.condition f p ch fr).1.append (d.condition f p ch fr).2).SameSamples (d.sampleStep f p ch fr) :=
  correlate_sameSamples f _

theorem sampleLoop_cons (rest : List Frame) :
    d.sampleLoop f p ch (fr :: rest) = (d.sampleStep f p ch fr).sampleLoop f p ch rest := rfl

theorem sampleLoop_append (block next : List Frame) :
    d.sampleLoop f p ch (block ++ next) = (d.sampleLoop f p ch block).sampleLoop f p ch next :=
  List.foldl_append

/-- Channels 0 to 3 go through both filters, channel 4 through none (rules R134, R135). -/
theorem condition_of_ne_iq (real : ch ≠ .iq) :
    d.condition f p ch fr = d.conditionReal f p (channelScalar f.num ch fr) := by
  cases ch with
  | iq => exact absurd rfl real
  | mono | left | right | sum => rfl

end

/-- The sample just appended is the newest of the ring. -/
theorem append_ringAt_self (d : Dec) (z : Cplx) : (d.append z).ringAt d.nW = some z := by
  have cap := ringCap_pos d.rate
  have held : ((d.append z).nW : Int) - Rate.ringCap (d.append z).rate ≤ d.nW ∧ (d.nW : Int) < (d.append z).nW := by
    simp only [append_nW, append_rate]
    omega
  have newest : (((d.append z).nW : Int) - 1 - d.nW).toNat = 0 := by
    simp only [append_nW]
    omega
  rw [Dec.ringAt, if_pos held, newest, append_ring, List.getElem?_take_of_lt cap]
  rfl

theorem ringAt_of_sameSamples {d e : Dec} (h : d.SameSamples e) (n : Int) : e.ringAt n = d.ringAt n := by
  rw [Dec.ringAt, Dec.ringAt, h.rate, h.nW, h.ring]

/-- After frames in channel 4 the ring holds their pairs, newest first, before the older samples. -/
theorem sampleLoop_iq_ring (f : Functions) (p : Params) (frames : List Frame) (d : Dec)
    (full : d.ring.length = Rate.ringCap d.rate) :
    (d.sampleLoop f p .iq frames).ring =
      ((frames.map (channelPair f.num)).reverse ++ d.ring).take (Rate.ringCap d.rate) := by
  induction frames generalizing d with
  | nil => simp [Dec.sampleLoop, ← full]
  | cons fr rest ih =>
    have step := sampleStep_sameSamples f p .iq d fr
    have ring : (d.sampleStep f p .iq fr).ring = (channelPair f.num fr :: d.ring).take (Rate.ringCap d.rate) :=
      step.ring
    have rate : (d.sampleStep f p .iq fr).rate = d.rate := step.rate
    rw [sampleLoop_cons, ih _ (by simp [ring, rate, full]), rate, ring]
    simp [List.take_append, List.take_take]

/-- Settles O35: the correlator changes none of these, the conditioner's two filters are their equations, and in channel
4 frame j of n is n - 1 - j places from the newest sample. -/
theorem iqFramesReachTheRingInOrder : Obligations.IqFramesReachTheRingInOrder := by
  refine ⟨fun f p ch d fr k taps h x real full => ?_, fun f p ch d fr block next => sampleLoop_append ..,
    fun f p d frames full fits => ?_⟩
  · rintro rfl rfl rfl rfl
    have step := sampleStep_sameSamples f p ch d fr
    rw [condition_of_ne_iq f p ch d fr real] at step
    exact ⟨step.nW, step.hilbert, step.dcState, (ringAt_of_sameSamples step _).trans (append_ringAt_self _ _)⟩
  · obtain ⟨burst, count, -⟩ := sampleLoop_spec f p .iq frames d
    obtain ⟨dc, delay⟩ := sampleLoop_iq_filters f p frames d
    refine ⟨count, dc, delay, fun j fr at_j => ?_⟩
    obtain ⟨before, -⟩ := List.getElem?_eq_some_iff.mp at_j
    have place : ((d.nW : Int) + frames.length - 1 - (d.nW + j)).toNat = frames.length - 1 - j := by omega
    rw [Dec.ringAt, count, burst.rate, sampleLoop_iq_ring f p frames d full]
    push_cast
    rw [if_pos (by omega), place, List.getElem?_take_of_lt (by omega), List.getElem?_append_left (by simp; omega),
      List.getElem?_reverse (by simp; omega)]
    rw [List.length_map, Nat.sub_sub_self (by omega), List.getElem?_map, at_j, Option.map_some]

/-! ### Silence (rule R138) -/

section
variable (num : Numerics)

/-- An exact zero is +0 (log entry 14). -/
@[simp] theorem narrow_zero : narrow num 0 = 0 := rfl

theorem toRat?_zero : F32.toRat? 0 = some 0 := by decide

theorem add_zero_zero : F32.add num 0 0 = 0 := by
  rw [F32.add, arith, toRat?_zero]
  show narrow num (0 + 0) = 0
  rw [add_zero, narrow_zero]

theorem mul_zero_of_finite {x : F32} (finite : F32.isFinite x = true) : F32.mul num x 0 = 0 := by
  obtain ⟨q, value⟩ := Option.isSome_iff_exists.mp (toRat?_isSome_iff.mpr finite)
  rw [F32.mul, arith, toRat?_zero, value]
  show narrow num (q * 0) = 0
  rw [mul_zero, narrow_zero]

theorem getD_of_zeros {xs : List F32} (zeros : ∀ x ∈ xs, x = 0) (i : Nat) : xs.getD i 0 = 0 := by
  rw [List.getD_eq_getElem?_getD]
  cases entry : xs[i]? with
  | none => rfl
  | some x => exact zeros x (List.mem_of_getElem? entry)

/-- Zeros add up to zero in every order. -/
theorem sumLoop_zeros (order : Nat → Nat) (steps : Nat) (xs : List F32) (zeros : ∀ x ∈ xs, x = 0) :
    sumLoop num order steps xs = 0 := by
  induction steps generalizing xs with
  | zero =>
    rw [sumLoop, List.headD_eq_getD]
    exact getD_of_zeros zeros 0
  | succ steps ih =>
    match xs with
    | [] => rfl
    | [x] => exact zeros x List.mem_cons_self
    | x0 :: x1 :: rest =>
      have others : ∀ x ∈ (x0 :: x1 :: rest).eraseIdx (order (2 * steps) % (x0 :: x1 :: rest).length), x = 0 :=
        fun x hx => zeros x (List.mem_of_mem_eraseIdx hx)
      rw [sumLoop]
      refine ih _ (List.forall_mem_cons.mpr ⟨?_, fun x hx => others x (List.mem_of_mem_eraseIdx hx)⟩)
      rw [getD_of_zeros zeros, getD_of_zeros others, add_zero_zero]

end

/-- The coefficients and taps of a rate are finite float32. -/
structure Params.FiniteFilters (p : Params) (r : Rate) : Prop where
  a : F32.isFinite (PerRate.get p.dcFilter r).a = true
  b : F32.isFinite (PerRate.get p.dcFilter r).b = true
  c : F32.isFinite (PerRate.get p.dcFilter r).c = true
  d : F32.isFinite (PerRate.get p.dcFilter r).d = true
  taps : ∀ x ∈ PerRate.get p.hilbertTaps r, F32.isFinite x = true

/-- The filters and the ring hold zeros. -/
structure Dec.Silent (d : Dec) : Prop where
  dcState : d.dcState = 0
  hilbert : d.hilbert = List.replicate (Rate.hilbertLen d.rate) 0
  ring : d.ring = List.replicate (Rate.ringCap d.rate) Cplx.zero

section
variable (num : Numerics)

theorem pcm_zero (scale : Nat) : pcm num 0 scale = 0 := by rw [pcm, Rat.zero_mkRat, narrow_zero]

theorem channelScalar_silence (ch : Channel) : channelScalar num ch { left := 0, right := 0 } = 0 := by
  cases ch <;> exact pcm_zero num _

theorem channelPair_silence : channelPair num { left := 0, right := 0 } = Cplx.zero :=
  congrArg₂ Cplx.mk (pcm_zero num _) (pcm_zero num _)

/-- A line of zeros that takes one more drops one. -/
theorem take_cons_replicate {α : Type} (x : α) (n : Nat) :
    (x :: List.replicate n x).take n = List.replicate n x := by
  rw [← List.replicate_succ, List.take_replicate, Nat.min_eq_left n.le_succ]

/-- The Hilbert sum over a line of zeros, also where there are fewer taps than samples. -/
theorem hilbertOutput_zeros (r : Rate) {taps : List F32} (finite : ∀ x ∈ taps, F32.isFinite x = true) (n : Nat) :
    hilbertOutput num r taps (List.replicate n 0) = Cplx.zero := by
  have line (k : Nat) : (List.replicate n (0 : F32)).getD k 0 = 0 := getD_of_zeros (fun _ => List.eq_of_mem_replicate) k
  have tap (k : Nat) : F32.isFinite (taps.getD k 0) = true := by
    rw [List.getD_eq_getElem?_getD]
    cases entry : taps[k]? with
    | none => rfl
    | some x => exact finite x (List.mem_of_getElem? entry)
  refine congrArg₂ Cplx.mk (line _) (sumLoop_zeros num _ _ _ ?_)
  simp only [List.forall_mem_map, line, mul_zero_of_finite num (tap _), implies_true]

end

section
variable (f : Functions) {p : Params} (ch : Channel) {d : Dec}

/-- A frame of zeros leaves silent filters as they are and gives the sample (0, 0). -/
theorem condition_silence (finite : Params.FiniteFilters p d.rate) (silent : d.Silent) :
    d.condition f p ch { left := 0, right := 0 } = (d, Cplx.zero) := by
  by_cases real : ch = .iq
  · rw [real]
    exact congrArg (d, ·) (channelPair_silence f.num)
  · have output : dcOutput f.num (PerRate.get p.dcFilter d.rate) d.dcState 0 = 0 := by
      rw [dcOutput, silent.dcState, mul_zero_of_finite _ finite.c, mul_zero_of_finite _ finite.d, add_zero_zero]
    have next : dcNext f.num (PerRate.get p.dcFilter d.rate) d.dcState 0 = d.dcState := by
      rw [dcNext, silent.dcState, mul_zero_of_finite _ finite.a, mul_zero_of_finite _ finite.b, add_zero_zero]
    have line : hilbertShift d.rate 0 d.hilbert = d.hilbert := by
      rw [hilbertShift, silent.hilbert, take_cons_replicate]
    have sample : hilbertOutput f.num d.rate (PerRate.get p.hilbertTaps d.rate) d.hilbert = Cplx.zero := by
      rw [silent.hilbert, hilbertOutput_zeros _ _ finite.taps]
    rw [condition_of_ne_iq f p ch d _ real, channelScalar_silence, Dec.conditionReal]
    rw [output, next, line, sample]

/-- A frame of zeros leaves the filters and the ring of a silent unit as they are. -/
theorem sampleStep_silence (finite : Params.FiniteFilters p d.rate) (silent : d.Silent) :
    (d.sampleStep f p ch { left := 0, right := 0 }).Silent := by
  have step := sampleStep_sameSamples f p ch d { left := 0, right := 0 }
  rw [condition_silence f ch finite silent] at step
  refine ⟨step.dcState.trans silent.dcState, ?_, ?_⟩
  · rw [step.hilbert, step.rate]
    exact silent.hilbert
  · rw [step.ring, step.rate, append_ring, append_rate, silent.ring, take_cons_replicate]

theorem sampleLoop_silence (n : Nat) (finite : Params.FiniteFilters p d.rate) (silent : d.Silent) :
    (d.sampleLoop f p ch (List.replicate n { left := 0, right := 0 })).Silent := by
  induction n generalizing d with
  | zero => exact silent
  | succ n ih =>
    rw [List.replicate_succ, sampleLoop_cons]
    have rate := (sampleStep_sameBurst f p ch d { left := 0, right := 0 }).rate
    exact ih (rate ▸ finite) (sampleStep_silence f ch finite silent)

end

/-- Settles O37: zeros in, a finite number times zero and a sum of zeros are +0, so each frame appends (0, 0). -/
theorem silenceStaysSilent : Obligations.SilenceStaysSilent := by
  intro f p ch d n coefficients taps dc delay ring
  simp only [List.forall_mem_cons] at coefficients
  obtain ⟨a, b, c, d', -⟩ := coefficients
  obtain ⟨burst, count, -⟩ := sampleLoop_spec f p ch (List.replicate n { left := 0, right := 0 }) d
  have after := sampleLoop_silence f ch n ⟨a, b, c, d', taps⟩ ⟨dc, delay, ring⟩
  refine ⟨after.dcState, ?_, ?_, by rw [count, List.length_replicate]⟩
  · rw [after.hilbert, burst.rate, delay]
  · rw [after.ring, burst.rate, ring]

end Sys2Proof.Machine
end

section
/-! SUPPORT. What PROCESS leaves unchanged (rules R135, R158, R363, R377). -/

namespace Sys2Proof.Machine

/-! ### The correlator's outputs (rule R158) -/

section
variable {f : Functions} {p : Params} {ch : Channel} {d : Dec}

/-- A step of the correlator that reports nothing leaves its outputs. -/
theorem correlate_of_no_report (quiet : d.reports f = false) :
    (d.correlate f).symbolPosAbs = d.symbolPosAbs ∧ (d.correlate f).cfoRad = d.cfoRad := by
  unfold Dec.reports at quiet
  obtain ⟨cs, report⟩ : ∃ cs, f.detect.step d.rate d.corrState d.ring d.nW = (cs, none) :=
    ⟨_, Prod.ext rfl (Option.not_isSome_iff_eq_none.mp (by simp [quiet]))⟩
  rw [correlate_of_none report]
  exact ⟨rfl, rfl⟩

theorem condition_outputs (f : Functions) (p : Params) (ch : Channel) (d : Dec) (fr : Frame) :
    (d.condition f p ch fr).1.symbolPosAbs = d.symbolPosAbs ∧ (d.condition f p ch fr).1.cfoRad = d.cfoRad := by
  obtain ⟨st, h, conditioned, -⟩ := condition_dec f p ch d fr
  rw [conditioned]
  exact ⟨rfl, rfl⟩

theorem sampleStep_of_no_report {fr : Frame}
    (quiet : ((d.condition f p ch fr).1.append (d.condition f p ch fr).2).reports f = false) :
    (d.sampleStep f p ch fr).symbolPosAbs = d.symbolPosAbs ∧ (d.sampleStep f p ch fr).cfoRad = d.cfoRad := by
  obtain ⟨pos, cfo⟩ := correlate_of_no_report quiet
  obtain ⟨pos', cfo'⟩ := condition_outputs f p ch d fr
  exact ⟨pos.trans pos', cfo.trans cfo'⟩

theorem sampleLoop_of_no_report (frames : List Frame) (quiet : d.reportCount f p ch frames = 0) :
    (d.sampleLoop f p ch frames).symbolPosAbs = d.symbolPosAbs ∧ (d.sampleLoop f p ch frames).cfoRad = d.cfoRad := by
  induction frames generalizing d with
  | nil => exact ⟨rfl, rfl⟩
  | cons fr rest ih =>
    simp only [Dec.reportCount, Nat.add_eq_zero_iff, ite_eq_right_iff, one_ne_zero, imp_false,
      Bool.not_eq_true] at quiet
    obtain ⟨first, later⟩ := quiet
    obtain ⟨pos, cfo⟩ := ih later
    obtain ⟨pos', cfo'⟩ := sampleStep_of_no_report first
    exact ⟨pos.trans pos', cfo.trans cfo'⟩

theorem processWith_of_no_report {s t : State} (hx : processWith f ch s = .next t)
    (quiet : s.dec.reportCount f s.params ch (processFrames ch s) = 0) :
    t.dec.symbolPosAbs = s.dec.symbolPosAbs ∧ t.dec.cfoRad = s.dec.cfoRad := by
  obtain ⟨-, -, turn, machine, rfl⟩ := processWith_next_iff.mp hx
  have stream := machineStep_sameStream machine
  obtain ⟨pos, cfo⟩ := sampleLoop_of_no_report _ quiet
  exact ⟨stream.symbolPosAbs.trans pos, stream.cfoRad.trans cfo⟩

end

/-! ### The burst machine (rules R371, R377) -/

/-- What is latched for the length of a burst, and the cached preamble. -/
structure Dec.SameLatches (d e : Dec) : Prop where
  mode : e.mode = d.mode
  symbolPositionAbs : e.symbolPositionAbs = d.symbolPositionAbs
  cfoBurst : e.cfoBurst = d.cfoBurst
  cachedMode : e.cachedMode = d.cachedMode
  cachedCall : e.cachedCall = d.cachedCall
  cachedAny : e.cachedAny = d.cachedAny

section
variable {f : Functions} {p : Params} {d : Dec} {turn : Turn}

theorem dataSymbol_sameLatches (h : d.dataSymbol f p = .ok turn) : d.SameLatches turn.dec := by
  obtain ⟨xs, -, -, ⟨-, e, -⟩ | ⟨-, e, -⟩⟩ := dataSymbol_cases h <;> rw [e] <;> constructor <;> rfl

/-- In a burst under `RESYNC = ignore` the turn is a data symbol. -/
theorem machineStep_sameLatches (h : d.machineStep f p = .ok turn) (burst : d.fsm = .synced)
    (ignore : p.resync = .ignore) : d.SameLatches turn.dec := by
  rcases machineStep_cases h with ⟨idle, -⟩ | ⟨idle, -⟩ | ⟨-, -, symbol⟩ | ⟨-, -, restart, -⟩
  · exact absurd burst idle
  · exact absurd burst idle
  · have kept := dataSymbol_sameLatches symbol
    exact ⟨kept.mode, kept.symbolPositionAbs, kept.cfoBurst, kept.cachedMode, kept.cachedCall, kept.cachedAny⟩
  · rw [ignore] at restart
    cases restart

/-- Outside a burst no data symbol is demodulated. -/
theorem machineStep_outside_burst (h : d.machineStep f p = .ok turn) (outside : d.fsm ≠ .synced) :
    turn.dec.code = d.code ∧ turn.dec.consPts = d.consPts := by
  rcases machineStep_cases h with ⟨-, -, rfl⟩ | ⟨-, -, detection⟩ | ⟨burst, -⟩ | ⟨burst, -⟩
  · exact ⟨rfl, rfl⟩
  · obtain ⟨-, code, points, -⟩ := detection_sameStream detection
    exact ⟨code, points⟩
  · exact absurd burst outside
  · exact absurd burst outside

end

/-! ### PROCESS -/

/-- What every PROCESS leaves of the block, whatever its channel. -/
structure State.SameAroundProcess (s t : State) : Prop where
  ers : t.ers = s.ers
  params : t.params = s.params
  host : t.host = s.host
  allocOk : t.allocOk = s.allocOk
  overlaps : t.overlaps = s.overlaps
  audio : t.bufs.audio = s.bufs.audio
  alive : t.dec.alive = s.dec.alive
  rate : t.dec.rate = s.dec.rate
  cfoReg : t.dec.cfoReg = s.dec.cfoReg
  modeReg : t.dec.modeReg = s.dec.modeReg

section
variable {f : Functions} {ch : Channel} {s t : State}

theorem processWith_sameAround (hx : processWith f ch s = .next t) : s.SameAroundProcess t := by
  obtain ⟨-, -, turn, machine, rfl⟩ := processWith_next_iff.mp hx
  obtain ⟨loop, -⟩ := sampleLoop_spec f s.params ch (processFrames ch s) s.dec
  have stream := machineStep_sameStream machine
  exact ⟨rfl, rfl, rfl, rfl, rfl, by rw [processNext_bufs, drawPixels_audio], stream.alive.trans loop.alive,
    stream.rate.trans loop.rate, stream.cfoReg.trans loop.cfoReg, stream.modeReg.trans loop.modeReg⟩

/-- Channel 4 leaves the filters' state (rule R135). -/
theorem processWith_iq_filters (hx : processWith f .iq s = .next t) :
    t.dec.dcState = s.dec.dcState ∧ t.dec.hilbert = s.dec.hilbert := by
  obtain ⟨-, -, turn, machine, rfl⟩ := processWith_next_iff.mp hx
  obtain ⟨dc, delay⟩ := sampleLoop_iq_filters f s.params (processFrames .iq s) s.dec
  have stream := machineStep_sameStream machine
  exact ⟨stream.dcState.trans dc, stream.hilbert.trans delay⟩

theorem processWith_outside_burst (hx : processWith f ch s = .next t) (outside : s.dec.fsm ≠ .synced) :
    t.dec.code = s.dec.code ∧ t.dec.consPts = s.dec.consPts := by
  obtain ⟨-, -, turn, machine, rfl⟩ := processWith_next_iff.mp hx
  obtain ⟨loop, -⟩ := sampleLoop_spec f s.params ch (processFrames ch s) s.dec
  obtain ⟨code, points⟩ := machineStep_outside_burst machine (loop.fsm.trans_ne outside)
  exact ⟨code.trans loop.code, points.trans loop.consPts⟩

theorem processWith_sameLatches (hx : processWith f ch s = .next t) (burst : s.dec.fsm = .synced)
    (ignore : s.params.resync = .ignore) : s.dec.SameLatches t.dec := by
  obtain ⟨-, -, turn, machine, rfl⟩ := processWith_next_iff.mp hx
  obtain ⟨loop, -⟩ := sampleLoop_spec f s.params ch (processFrames ch s) s.dec
  have kept := machineStep_sameLatches machine (loop.fsm.trans burst) ignore
  exact ⟨kept.mode.trans loop.mode, kept.symbolPositionAbs.trans loop.symbolPositionAbs,
    kept.cfoBurst.trans loop.cfoBurst, kept.cachedMode.trans loop.cachedMode, kept.cachedCall.trans loop.cachedCall,
    kept.cachedAny.trans loop.cachedAny⟩

/-- A PROCESS that completes only answered, or did the work of its channel on a CREATED unit. -/
theorem execProcess_next {sel : BitVec 3} (hx : execProcess sel s = .next t) :
    (∃ rsp, t = s.decRespond rsp) ∨
      ∃ ch, Channel.ofSel sel = some ch ∧ processWith Config.functions ch s = .next t := by
  cases legal : Channel.ofSel sel with
  | none =>
    rw [execProcess_illegal legal] at hx
    cases hx
    exact .inl ⟨_, rfl⟩
  | some ch =>
    cases alive : s.dec.alive with
    | absent =>
      rw [execProcess, legal, alive] at hx
      cases hx
      exact .inl ⟨_, rfl⟩
    | created =>
      rw [execProcess_created legal alive] at hx
      exact .inr ⟨ch, rfl, hx⟩

end

/-- Settles O50: a PROCESS that only answers changes RSP, one that works keeps what the sample loop and the turn of the
burst machine keep. -/
theorem processKeepsWhatItDoesNotWrite : Obligations.ProcessKeepsWhatItDoesNotWrite := by
  refine ⟨fun f ch s t => processWith_of_no_report, fun s t sel hx => ?_⟩
  obtain ⟨rsp, rfl⟩ | ⟨ch, legal, work⟩ := execProcess_next hx
  · simp
  · obtain ⟨ers, params, host, allocOk, overlaps, audio, alive, rate, cfoReg, modeReg⟩ :=
      processWith_sameAround work
    refine ⟨ers, params, host, allocOk, overlaps, audio, alive, rate, cfoReg, modeReg, fun iq => ?_,
      processWith_outside_burst work, fun burst ignore => ?_⟩
    · rw [iq] at legal
      cases legal
      exact processWith_iq_filters work
    · obtain ⟨mode, position, cfo, cachedMode, call, any⟩ := processWith_sameLatches work burst ignore
      exact ⟨mode, position, cfo, cachedMode, call, any⟩

end Sys2Proof.Machine
end

section
/-! SUPPORT. The metadata word (rule R194) and the order of the preamble decoder's checks (rules R197 to R199, R203). -/

namespace Sys2Proof.Machine

/-! ### The fields of the metadata word (rule R194) -/

/-- A field of `len` bits is the sum of its bits, each at its place. -/
theorem toNat_extractLsb'_eq_sum {n : Nat} (x : BitVec n) (start len : Nat) :
    (x.extractLsb' start len).toNat =
      ((List.range len).map fun k => (x.getLsbD (start + k)).toNat * 2 ^ k).sum := by
  rw [BitVec.extractLsb'_toNat]
  induction len with
  | zero => simp [Nat.mod_one]
  | succ len ih =>
    rw [Nat.mod_pow_succ, ← Nat.toNat_testBit, ih, List.range_succ, List.map_append, List.sum_append, List.map_singleton,
      List.sum_singleton, Nat.testBit_shiftRight, Nat.mul_comm]
    rfl

theorem wordMode_toNat (cw : BitVec 255) : (wordMode cw).toNat = (wordMd cw).toNat % 256 :=
  BitVec.extractLsb'_toNat ..

/-- `call` takes all the bits of `md` above the mode. -/
theorem wordCall_toNat (cw : BitVec 255) : (wordCall cw).toNat = (wordMd cw).toNat / 256 := by
  have md := (wordMd cw).isLt
  rw [wordCall, BitVec.extractLsb'_toNat, Nat.shiftRight_eq_div_pow]
  omega

/-- The 55 bits of `md` and nine zeros fit the 64 bits of the protected value (rule R196). -/
theorem wordProtected_toNat (cw : BitVec 255) : (wordProtected cw).toNat = (wordMd cw).toNat * 2 ^ 9 := by
  have md := (wordMd cw).isLt
  rw [wordProtected, BitVec.toNat_shiftLeft, BitVec.toNat_setWidth, Nat.shiftLeft_eq]
  omega

/-- Settles O40: each field is a range of the word's bits, and `mode` and `call` are the two parts of `md`. -/
theorem metadataWordSplitsIntoItsFields : Obligations.MetadataWordSplitsIntoItsFields := by
  intro cw
  have md := toNat_extractLsb'_eq_sum cw 0 55
  simp only [Nat.zero_add] at md
  exact ⟨md, wordMode_toNat cw, wordCall_toNat cw, toNat_extractLsb'_eq_sum cw 55 16, wordProtected_toNat cw⟩

/-! ### The order of the checks (rule R203) -/

section
variable {p : Params} {cw : BitVec 255}

theorem wordCrcOk_iff : wordCrcOk p cw = true ↔ crcPreamble p (wordProtected cw) = wordRx cw := decide_eq_true_iff

theorem modeValid_iff {mode : BitVec 8} : modeValid mode = true ↔ 6 ≤ mode.toNat ∧ mode.toNat ≤ 13 := by
  simp [modeValid]

theorem callValid_iff {call : BitVec 47} : callValid call = true ↔ 1 ≤ call.toNat ∧ call.toNat < callBound := by
  simp [callValid]

theorem classify_of_wrong_crc (wrong : wordCrcOk p cw ≠ true) : classify p (some cw) = .fail := if_neg wrong

/-- With a matching CRC the ranges of mode and call decide (rules R197, R198). -/
theorem classify_of_crc (crc : wordCrcOk p cw = true) :
    classify p (some cw) =
      if modeValid (wordMode cw) && callValid (wordCall cw) then .okay (wordMode cw) (wordCall cw)
      else .nope (wordMode cw) (wordCall cw) := if_pos crc

end

/-- Settles O41: the CRC is tested before the ranges, and the ranges are those of the mode table and of the call signs. -/
theorem preambleChecksRunInOrder : Obligations.PreambleChecksRunInOrder := by
  refine fun p => ⟨rfl, fun cw => ⟨fun wrong => ?_, fun crc outside => ?_, fun crc low high nonzero bound => ?_⟩⟩
  · exact classify_of_wrong_crc (mt wordCrcOk_iff.mp wrong)
  · rw [classify_of_crc (wordCrcOk_iff.mpr crc), if_neg]
    rwa [Bool.and_eq_true, modeValid_iff, callValid_iff]
  · rw [classify_of_crc (wordCrcOk_iff.mpr crc), if_pos]
    rw [Bool.and_eq_true, modeValid_iff, callValid_iff]
    exact ⟨⟨low, high⟩, nonzero, bound⟩

end Sys2Proof.Machine
end

section
/-! SUPPORT. The burst machine (rules R371 to R377) and what reaches the OSD of the preamble decoder: the mode table (rule
R40), the MLS mask (rule R16), the metadata samples from the ring (rule R181) and the masked carriers (rules R183 to
R187). -/

namespace Sys2Proof.Machine

/-! ### The mode table (rule R40) -/

theorem modeTable_eq_none {mode : Nat} (h : mode < 6 ∨ 13 < mode) : modeTable mode = none := by
  unfold modeTable
  split
  case h_9 => rfl
  all_goals omega

/-! ### Maximum-length sequences (rule R16) -/

section
variable (poly d : Nat)

/-- One step of the register: its top bit is shifted out, and adds the polynomial. -/
def mlsNext (reg : Nat) : Nat := if reg.testBit (d - 1) then (reg <<< 1) ^^^ poly else reg <<< 1

theorem mlsFrom_succ (reg n : Nat) :
    mlsFrom poly d reg (n + 1) = reg.testBit (d - 1) :: mlsFrom poly d (mlsNext poly d reg) n := rfl

@[simp] theorem mlsFrom_length (reg n : Nat) : (mlsFrom poly d reg n).length = n := by
  induction n generalizing reg with
  | zero => rfl
  | succ n ih => rw [mlsFrom_succ, List.length_cons, ih]

/-- Output bit k is the top bit of the register after k steps. -/
theorem mlsFrom_getD (reg : Nat) {n k : Nat} (h : k < n) :
    (mlsFrom poly d reg n).getD k false = ((mlsNext poly d)^[k] reg).testBit (d - 1) := by
  induction n generalizing reg k with
  | zero => omega
  | succ n ih =>
    rw [mlsFrom_succ]
    cases k with
    | zero => rfl
    | succ k => exact ih (mlsNext poly d reg) (by omega)

end

/-- The mask's register stays within eight bits, and from each of its values the bit eight places on is the sum of those
at the other terms of the polynomial `x^8 + x^5 + x^3 + x + 1`. -/
theorem mlsNext_mask_table : ∀ reg < 2 ^ 8,
    mlsNext 0b100101011 8 reg < 2 ^ 8 ∧
      ((mlsNext 0b100101011 8)^[8] reg).testBit 7 =
        (((((mlsNext 0b100101011 8)^[5] reg).testBit 7 ^^ ((mlsNext 0b100101011 8)^[3] reg).testBit 7) ^^
          ((mlsNext 0b100101011 8)^[1] reg).testBit 7) ^^ reg.testBit 7) := by
  decide +kernel

theorem mlsNext_mask_lt (k : Nat) {reg : Nat} (h : reg < 2 ^ 8) : (mlsNext 0b100101011 8)^[k] reg < 2 ^ 8 := by
  induction k generalizing reg with
  | zero => exact h
  | succ k ih => exact ih (mlsNext_mask_table reg h).1

/-- Every stretch of the sequence of the mask's polynomial, however long, meets its recurrence. -/
theorem mlsFrom_mask_recurrence {reg n k : Nat} (h : reg < 2 ^ 8) (hk : k + 8 < n) :
    (mlsFrom 0b100101011 8 reg n).getD (k + 8) false =
      ((((mlsFrom 0b100101011 8 reg n).getD (k + 5) false ^^ (mlsFrom 0b100101011 8 reg n).getD (k + 3) false) ^^
        (mlsFrom 0b100101011 8 reg n).getD (k + 1) false) ^^ (mlsFrom 0b100101011 8 reg n).getD k false) := by
  have later (j : Nat) (hj : j ≤ 8) : (mlsFrom 0b100101011 8 reg n).getD (k + j) false =
      ((mlsNext 0b100101011 8)^[j] ((mlsNext 0b100101011 8)^[k] reg)).testBit 7 := by
    rw [mlsFrom_getD _ _ _ (by omega), Nat.add_comm, Function.iterate_add_apply]
  rw [later 8 (by omega), later 5 (by omega), later 3 (by omega), later 1 (by omega), mlsFrom_getD _ _ _ (by omega)]
  exact (mlsNext_mask_table _ (mlsNext_mask_lt k h)).2

/-! ### The metadata samples (rule R181) -/

/-- A stretch of the ring is its samples in order (rule R30). -/
theorem readRing_of_ringAt {d : Dec} {len : Nat} {base : Int} {x : Nat → Cplx}
    (held : ∀ n < len, d.ringAt (base + (n : Int)) = some (x n)) :
    d.readRing base len = some ((List.range len).map x) := by
  induction len generalizing base x with
  | zero => rfl
  | succ len ih =>
    have first : d.ringAt base = some (x 0) := by simpa using held 0 (by omega)
    have rest : d.readRing (base + 1) len = some ((List.range len).map fun n => x (n + 1)) := by
      refine ih fun n hn => ?_
      have place : base + 1 + (n : Int) = base + ((n + 1 : Nat) : Int) := by omega
      rw [place]
      exact held (n + 1) (by omega)
    rw [Dec.readRing, first, rest, List.range_succ_eq_map, List.map_cons, List.map_map]
    rfl

theorem derotate_map_range (num : Numerics) (cfo : F32) (x : Nat → Cplx) (len : Nat) :
    derotate num cfo ((List.range len).map x) =
      (List.range len).map fun n => Cplx.mul num (x n) (rotor num (F32.mul num cfo (F32.ofInt num n))) :=
  List.ext_getElem (by simp [derotate]) (by simp [derotate])

theorem metadataSamples_of_window {f : Functions} {d : Dec} {xs : List Cplx}
    (h : d.window (d.symbolPosAbs + Rate.lExt d.rate) = some xs) :
    d.metadataSamples f = some (derotate f.num d.cfoRad xs) := by
  rw [Dec.metadataSamples, h]

/-! ### The masked carriers (rules R183 to R187) -/

section
variable {α : Type} {place : Nat → Nat} {change : Nat → α → α}

/-- Changes at other places leave an entry. -/
theorem foldl_modify_of_ne {js : List Nat} {i : Nat} (other : ∀ j ∈ js, place j ≠ i) (xs : List α) :
    (js.foldl (fun acc j => acc.modify (place j) (change j)) xs)[i]? = xs[i]? := by
  induction js generalizing xs with
  | nil => rfl
  | cons j js ih =>
    rw [List.forall_mem_cons] at other
    rw [List.foldl_cons, ih other.2, List.getElem?_modify_ne _ _ other.1]

/-- Of changes at distinct places, the one at an entry's place changes it. -/
theorem foldl_modify_of_mem {js : List Nat} (distinct : (js.map place).Nodup) {j : Nat} (mem : j ∈ js) (xs : List α) :
    (js.foldl (fun acc j => acc.modify (place j) (change j)) xs)[place j]? = xs[place j]?.map (change j) := by
  induction js generalizing xs with
  | nil => cases mem
  | cons a js ih =>
    rw [List.map_cons, List.nodup_cons] at distinct
    obtain ⟨fresh, distinct⟩ := distinct
    have later : ∀ b ∈ js, place b ≠ place a := fun b hb e => fresh (e ▸ List.mem_map_of_mem hb)
    rw [List.foldl_cons]
    rcases List.mem_cons.mp mem with rfl | mem
    · rw [foldl_modify_of_ne later, List.getElem?_modify_eq]
      rfl
    · rw [ih distinct mem, List.getElem?_modify_ne _ _ (later j mem).symm]

end

section
variable {lSym : Nat}

theorem binOf_lt (pos : 0 < lSym) (c : Int) : binOf lSym c < lSym := by
  have := Int.emod_nonneg (c + lSym) (by omega : (lSym : Int) ≠ 0)
  have := Int.emod_lt_of_pos (c + lSym) (by omega : (0 : Int) < lSym)
  unfold binOf
  omega

/-- Carriers less than a symbol apart lie in different bins. -/
theorem binOf_inj (pos : 0 < lSym) {a b : Int} (near : |a - b| < lSym) (h : binOf lSym a = binOf lSym b) : a = b := by
  have nonneg (c : Int) : 0 ≤ (c + lSym) % (lSym : Int) := Int.emod_nonneg _ (by omega)
  have same : (a + lSym) % (lSym : Int) = (b + lSym) % (lSym : Int) := by
    rw [← Int.toNat_of_nonneg (nonneg a), ← Int.toNat_of_nonneg (nonneg b)]
    exact congrArg Nat.cast h
  have multiple : (lSym : Int) ∣ a - b := by
    simpa using Int.dvd_of_emod_eq_zero (Int.emod_eq_emod_iff_emod_sub_eq_zero.mp same)
  have := Int.eq_zero_of_abs_lt_dvd multiple near
  omega

variable {fdom : List Cplx} (wide : 256 ≤ lSym)
include wide

/-- Outside the window of 255 carriers the mask leaves the spectrum. -/
theorem maskSpectrum_below_window :
    (maskSpectrum lSym fdom).getD (binOf lSym (-128)) Cplx.zero = fdom.getD (binOf lSym (-128)) Cplx.zero := by
  have other : ∀ j ∈ List.range 255, binOf lSym (-127 + (j : Int)) ≠ binOf lSym (-128) := by
    intro j hj same
    have hj := List.mem_range.mp hj
    have := binOf_inj (by omega) (abs_lt.mpr ⟨by omega, by omega⟩) same
    omega
  rw [maskSpectrum, List.getD_eq_getElem?_getD, foldl_modify_of_ne other, List.getD_eq_getElem?_getD]

/-- In the window each carrier gets the sign of its mask bit. -/
theorem maskSpectrum_in_window (full : fdom.length = lSym) {j : Nat} (hj : j < 255) :
    (maskSpectrum lSym fdom).getD (binOf lSym (-127 + (j : Int))) Cplx.zero =
      signed (mlsMask.getD j false) (fdom.getD (binOf lSym (-127 + (j : Int))) Cplx.zero) := by
  have distinct : ((List.range 255).map fun (j : Nat) => binOf lSym (-127 + (j : Int))).Nodup := by
    refine List.Nodup.map_on (fun a ha b hb same => ?_) List.nodup_range
    have ha := List.mem_range.mp ha
    have hb := List.mem_range.mp hb
    have := binOf_inj (by omega) (abs_lt.mpr ⟨by omega, by omega⟩) same
    omega
  have held : binOf lSym (-127 + (j : Int)) < fdom.length := full ▸ binOf_lt (by omega) _
  rw [maskSpectrum, List.getD_eq_getElem?_getD, foldl_modify_of_mem distinct (List.mem_range.mpr hj),
    List.getElem?_eq_getElem held, List.getD_eq_getElem _ _ held]
  rfl

/-- The carrier one lower than window carrier j: masked too, but for the first (rule R185). -/
theorem maskSpectrum_one_lower (full : fdom.length = lSym) {j : Nat} (hj : j < 255) :
    (maskSpectrum lSym fdom).getD (binOf lSym (-128 + (j : Int))) Cplx.zero =
      if j = 0 then fdom.getD (binOf lSym (-128)) Cplx.zero
      else signed (mlsMask.getD (j - 1) false) (fdom.getD (binOf lSym (-127 + ((j - 1 : Nat) : Int))) Cplx.zero) := by
  cases j with
  | zero => exact maskSpectrum_below_window wide
  | succ j =>
    have lower : (-128 + ((j + 1 : Nat) : Int)) = -127 + (j : Int) := by omega
    rw [lower, maskSpectrum_in_window wide full (by omega)]
    rfl

/-- The 255 soft bits of a spectrum: masked carriers, each against the masked carrier one lower (rules R184 to R187). -/
theorem preambleSoft_masked (num : Numerics) (full : fdom.length = lSym) :
    preambleSoft (metadataRatios num lSym (maskSpectrum lSym fdom)) = (List.range 255).map fun (j : Nat) =>
      (demodOrErase num (signed (mlsMask.getD j false) (fdom.getD (binOf lSym (-127 + (j : Int))) Cplx.zero))
        (if j = 0 then fdom.getD (binOf lSym (-128)) Cplx.zero
        else signed (mlsMask.getD (j - 1) false)
          (fdom.getD (binOf lSym (-127 + ((j - 1 : Nat) : Int))) Cplx.zero))).re := by
  rw [preambleSoft, metadataRatios, List.map_map]
  refine List.map_congr_left fun j hj => ?_
  have hj := List.mem_range.mp hj
  rw [Function.comp_apply, maskSpectrum_in_window wide full hj, maskSpectrum_one_lower wide full hj]

end

theorem lSym_ge (r : Rate) : 256 ≤ Rate.lSym r := by cases r <;> decide

/-! ### The burst machine (rules R371 to R377) -/

section
variable {f : Functions} {p : Params} {d : Dec}

theorem machineStep_of_no_detection (outside : d.fsm ≠ .synced) (quiet : d.detPending = false) :
    d.machineStep f p = .ok { dec := d, status := .okay, points := none } := by
  unfold Dec.machineStep
  rw [quiet]
  cases state : d.fsm with
  | synced => exact absurd state outside
  | idle | done => rfl

theorem machineStep_of_detection (outside : d.fsm ≠ .synced) (pending : d.detPending = true) :
    d.machineStep f p = d.detection f p d.fsm := by
  unfold Dec.machineStep
  rw [pending]
  cases state : d.fsm with
  | synced => exact absurd state outside
  | idle | done => rfl

/-- A detection whose metadata symbol is held is settled by the preamble decoder. -/
theorem detection_of_samples {tdom : List Cplx} (held : d.metadataSamples f = some tdom) (rejected : Fsm) :
    d.detection f p rejected =
      .ok ((d.consumeDetection f tdom).settle (preambleResult f p (Rate.lSym d.rate) tdom) (transform f.num tdom)
        rejected) := by
  rw [Dec.detection, held]

/-- Under `RESYNC = ignore` a turn in a burst drops a detection and takes one data symbol (rule R377). -/
theorem machineStep_of_burst (burst : d.fsm = .synced) (ignore : p.resync = .ignore) :
    d.machineStep f p = Dec.dataSymbol f p { d with detPending := false } := by
  unfold Dec.machineStep
  cases pending : d.detPending with
  | true => simp only [burst, ignore]
  | false =>
    have dropped : ({ d with detPending := false } : Dec) = d := by rw [← pending]
    rw [dropped, burst]

/-- A detection outside a burst ends in the status of its preamble, and starts a burst where that is accepted (rules
R372, R373, R376). -/
theorem detection_turn {tdom : List Cplx} (outside : d.fsm ≠ .synced) (pending : d.detPending = true)
    (held : d.metadataSamples f = some tdom) :
    ∃ turn, d.machineStep f p = .ok turn ∧ turn.dec.detPending = false ∧
      match preambleResult f p (Rate.lSym d.rate) tdom with
      | .okay _ _ => turn.status = .sync ∧ turn.dec.fsm = .synced
      | .nope _ _ => turn.status = .nope ∧ turn.dec.fsm = d.fsm
      | .fail => turn.status = .fail ∧ turn.dec.fsm = d.fsm := by
  refine ⟨_, (machineStep_of_detection outside pending).trans (detection_of_samples held _), ?_⟩
  cases preambleResult f p (Rate.lSym d.rate) tdom with
  | okay | nope | fail => exact ⟨rfl, rfl, rfl⟩

/-- A turn in a burst demodulates one symbol, and ends the burst with the last one (rules R374, R375). -/
theorem burst_turn {xs : List Cplx} (burst : d.fsm = .synced) (ignore : p.resync = .ignore)
    (held : d.window d.dataBase = some xs) :
    ∃ turn, d.machineStep f p = .ok turn ∧ turn.dec.detPending = false ∧
      turn.dec.symbolNumber = d.symbolNumber + 1 ∧
      if d.symbolNumber + 1 < d.mode.symbolCount then
        turn.status = .okay ∧ turn.dec.fsm = .synced ∧ turn.dec.payloadReady = d.payloadReady
      else turn.status = .done ∧ turn.dec.fsm = .done ∧ turn.dec.payloadReady = true := by
  have kept : Dec.window { d with detPending := false } d.dataBase = some xs :=
    (window_congr (d := { d with detPending := false }) (e := d) rfl rfl rfl _).trans held
  obtain ⟨turn, symbol⟩ := dataSymbol_ok (f := f) (p := p) (d := { d with detPending := false })
    (Option.isSome_of_eq_some kept)
  refine ⟨turn, (machineStep_of_burst burst ignore).trans symbol, ?_⟩
  obtain ⟨ys, -, -, ⟨more, unit, status⟩ | ⟨last, unit, status⟩⟩ := dataSymbol_cases symbol
  · rw [unit, status, if_pos more]
    exact ⟨rfl, rfl, rfl, burst, rfl⟩
  · rw [unit, status, if_neg (Nat.not_lt.mpr last)]
    exact ⟨rfl, rfl, rfl, rfl, rfl⟩

end

/-- Settles O45: the table and the mask's start by evaluation, its recurrence from the register's, the soft bits from the
masked spectrum, and each row of the burst machine from the turn it takes. -/
theorem burstMachineFollowsItsTable : Obligations.BurstMachineFollowsItsTable := by
  refine ⟨⟨rfl, fun m => modeTable_eq_none⟩,
    ⟨mlsFrom_length .., by decide, fun k hk => mlsFrom_mask_recurrence (by decide) (by omega)⟩,
    fun f p d x held => ?_, fun f p d ignore => ⟨machineStep_of_no_detection, fun tdom => detection_turn,
      fun xs burst => burst_turn burst ignore⟩⟩
  intro tdom carrier masked below
  constructor
  · rw [metadataSamples_of_window (readRing_of_ringAt held), derotate_map_range]
    rfl
  · exact congrArg (fun soft => classify p (f.osd (bchMatrix p) soft))
      (preambleSoft_masked (lSym_ge d.rate) f.num (by simp [tdom]))

end Sys2Proof.Machine
end

section
/-! SUPPORT. The symbol demodulator (43_symbol_demodulator.md): sorting, the median and the line of Theil and Sen (rule
R228), the compensated carriers (rules R221 to R229) and the place of the soft bits (rule R237). -/

namespace Sys2Proof.Machine

/-! ### One data symbol -/

section
variable (f : Functions) (p : Params) (d : Dec) (xs : List Cplx)

theorem demodulate_prev : (d.demodulate f p xs).prev =
    carrierValues (Rate.lSym d.rate) d.mode (transform f.num (derotate f.num d.cfoBurst xs)) := rfl

theorem demodulate_consPts : (d.demodulate f p xs).consPts =
    equalize f p d.mode (d.demodulate f p xs).prev d.prev := rfl

@[simp] theorem demodulate_consPts_length : (d.demodulate f p xs).consPts.length = d.mode.carrierCount :=
  equalize_length ..

theorem demodulate_code : (d.demodulate f p xs).code =
    splice d.code (d.mode.modBits * d.symbolNumber * d.mode.carrierCount)
      (softBits f p d.mode (d.demodulate f p xs).consPts) := rfl

end

/-! ### Sorting -/

section
variable {α : Type} {before : α → α → Bool}

theorem insertBy_perm (x : α) (ys : List α) : (insertBy before x ys).Perm (x :: ys) := by
  induction ys with
  | nil => exact .refl _
  | cons y ys ih =>
    rw [insertBy]
    split
    · exact .refl _
    · exact (ih.cons y).trans (.swap x y ys)

theorem sortBy_perm (xs : List α) : (sortBy before xs).Perm xs := by
  suffices inserted : ∀ sorted,
      (xs.foldl (fun sorted x => insertBy before x sorted) sorted).Perm (sorted ++ xs) from inserted []
  induction xs with
  | nil => exact fun sorted => .of_eq (List.append_nil sorted).symm
  | cons x xs ih =>
    exact fun sorted => (ih _).trans (((insertBy_perm x sorted).append_right xs).trans List.perm_middle.symm)

variable (irrefl : ∀ a, before a a = false)
  (trans : ∀ {a b c}, before a b = true → before b c = true → before a c = true)
include irrefl trans

/-- Inserting keeps the list free of an element that goes before an earlier one. -/
theorem insertBy_sorted (x : α) {ys : List α} (sorted : ys.Pairwise fun a b => before b a = false) :
    (insertBy before x ys).Pairwise fun a b => before b a = false := by
  induction ys with
  | nil => exact List.pairwise_singleton _ _
  | cons y ys ih =>
    have ⟨head, tail⟩ := List.pairwise_cons.mp sorted
    rw [insertBy]
    split
    next first =>
      have later (z : α) (notBefore : before z y = false) : before z x = false :=
        Bool.eq_false_of_not_eq_true fun h => by simp [trans h first] at notBefore
      refine List.pairwise_cons.mpr ⟨fun z hz => ?_, sorted⟩
      rcases List.mem_cons.mp hz with rfl | hz
      · exact later z (irrefl z)
      · exact later z (head z hz)
    next notFirst =>
      refine List.pairwise_cons.mpr ⟨fun z hz => ?_, ih tail⟩
      rcases List.mem_cons.mp ((insertBy_perm x ys).mem_iff.mp hz) with rfl | hz
      · exact Bool.eq_false_of_not_eq_true notFirst
      · exact head z hz

theorem sortBy_sorted (xs : List α) : (sortBy before xs).Pairwise fun a b => before b a = false :=
  List.foldlRecOn (motive := fun sorted : List α => sorted.Pairwise fun a b => before b a = false) xs _
    List.Pairwise.nil fun _ sorted x _ => insertBy_sorted irrefl trans x sorted

end

/-! ### The median (rule R228) -/

theorem F32.lt_iff {a b : F32} :
    F32.lt a b = true ↔ F32.isNaN a = false ∧ F32.isNaN b = false ∧ F32.key a < F32.key b := by
  simp [F32.lt, and_assoc]

theorem F32.lt_irrefl (a : F32) : F32.lt a a = false := by simp [F32.lt]

theorem F32.lt_trans {a b c : F32} (ab : F32.lt a b = true) (bc : F32.lt b c = true) : F32.lt a c = true := by
  obtain ⟨na, -, hab⟩ := F32.lt_iff.mp ab
  obtain ⟨-, nc, hbc⟩ := F32.lt_iff.mp bc
  exact F32.lt_iff.mpr ⟨na, nc, hab.trans hbc⟩

/-- Among numbers, what does not go before is at least as large. -/
theorem F32.le_of_lt_eq_false {a b : F32} (na : F32.isNaN a = false) (nb : F32.isNaN b = false)
    (h : F32.lt b a = false) : F32.le a b = true := by
  simpa [F32.lt, F32.le, na, nb] using h

section
variable {ys : List F32} {r : Nat} (sorted : ys.Pairwise fun a b => F32.lt b a = false) (hr : r < ys.length)
include sorted

/-- In increasing order at most r elements are smaller than the one of rank r. -/
theorem sorted_smaller_le_rank : (ys.filter fun x => F32.lt x ys[r]).length ≤ r := by
  have above : (ys.drop r).filter (fun x => F32.lt x ys[r]) = [] := by
    rw [List.filter_eq_nil_iff, List.drop_eq_getElem_cons hr, List.forall_mem_cons]
    rw [List.pairwise_iff_getElem] at sorted
    refine ⟨by simp [F32.lt_irrefl], fun x hx => ?_⟩
    obtain ⟨j, hj, rfl⟩ := List.mem_iff_getElem.mp hx
    simp [sorted r (r + 1 + j) hr (by simp at hj; omega) (by omega)]
  calc (ys.filter fun x => F32.lt x ys[r]).length
      = ((ys.take r ++ ys.drop r).filter fun x => F32.lt x ys[r]).length := by rw [List.take_append_drop]
    _ = ((ys.take r).filter fun x => F32.lt x ys[r]).length := by rw [List.filter_append, above, List.append_nil]
    _ ≤ (ys.take r).length := List.length_filter_le ..
    _ ≤ r := List.length_take_le ..

/-- In increasing order the first r + 1 elements are at most the one of rank r. -/
theorem rank_lt_sorted_atMost (numbers : ∀ x ∈ ys, F32.isNaN x = false) :
    r < (ys.filter fun x => F32.le x ys[r]).length := by
  have below : ∀ x ∈ ys.take (r + 1), F32.le x ys[r] = true := by
    intro x hx
    refine F32.le_of_lt_eq_false (numbers x (List.mem_of_mem_take hx)) (numbers _ (List.getElem_mem hr)) ?_
    obtain ⟨j, hj, rfl⟩ := List.mem_take_iff_getElem.mp hx
    rcases Nat.lt_or_eq_of_le (show j ≤ r by omega) with hj | rfl
    · exact List.pairwise_iff_getElem.mp sorted j r _ hr hj
    · exact F32.lt_irrefl _
  calc r < (ys.take (r + 1)).length := by rw [List.length_take]; omega
    _ = ((ys.take (r + 1)).filter fun x => F32.le x ys[r]).length := by rw [List.filter_eq_self.mpr below]
    _ ≤ (ys.filter fun x => F32.le x ys[r]).length := ((List.take_sublist ..).filter _).length_le

end

theorem median_rank {xs : List F32} (nonempty : xs ≠ []) (numbers : ∀ x ∈ xs, F32.isNaN x = false) :
    median xs ∈ xs ∧ (xs.filter fun x => F32.lt x (median xs)).length ≤ xs.length / 2 ∧
      xs.length / 2 < (xs.filter fun x => F32.le x (median xs)).length := by
  have perm : (sortBy F32.lt xs).Perm xs := sortBy_perm xs
  have sorted := sortBy_sorted F32.lt_irrefl F32.lt_trans xs
  have middle : xs.length / 2 < (sortBy F32.lt xs).length := by
    have := List.length_pos_of_ne_nil nonempty
    rw [perm.length_eq]
    omega
  rw [median, List.getD_eq_getElem _ _ middle, ← (perm.filter _).length_eq,
    ← (perm.filter fun x => F32.le x _).length_eq]
  exact ⟨perm.mem_iff.mp (List.getElem_mem middle), sorted_smaller_le_rank sorted middle,
    rank_lt_sorted_atMost sorted middle fun x hx => numbers x (perm.mem_iff.mp hx)⟩

/-! ### The line of Theil and Sen (rule R228) -/

/-- A list is its entries in order. -/
theorem map_getD_range {α β : Type} (g : α → β) (xs : List α) (a : α) :
    ((List.range xs.length).map fun j => g (xs.getD j a)) = xs.map g :=
  List.ext_getElem (by simp) fun j _ hj => by simp [(List.length_map g ▸ hj : j < xs.length)]

/-- The pairs `a < b` of a list's places: those of the first place, then those of the rest. -/
theorem pairSlopes_eq_flatMap (num : Numerics) (q : Int × F32) (pts : List (Int × F32)) :
    pairSlopes num pts = (List.range pts.length).flatMap fun a =>
      ((List.range pts.length).filter fun b => decide (a < b)).map fun b =>
        slopeOf num (pts.getD a q) (pts.getD b q) := by
  induction pts with
  | nil => rfl
  | cons pt rest ih =>
    have first : (List.range rest.length).map (fun b => slopeOf num pt (rest.getD b q)) = rest.map (slopeOf num pt) :=
      map_getD_range (slopeOf num pt) rest q
    rw [pairSlopes, ih, ← first]
    simp [List.range_succ_eq_map, List.flatMap_map, List.filter_map, Function.comp_def]

theorem theilSen_of_two_le (num : Numerics) {pts : List (Int × F32)} (two : 2 ≤ pts.length) :
    theilSen num pts = (median (pairSlopes num pts),
      median (pts.map fun q => F32.sub num q.2 (F32.mul num (median (pairSlopes num pts)) (F32.ofInt num q.1)))) := by
  match pts, two with
  | _ :: _ :: _, _ => rfl

/-! ### The compensated carriers (rules R221 to R229) -/

section
variable (f : Functions) (p : Params) (m : ModeRegs)

theorem demapCarriers_carrierValues (num : Numerics) (lSym : Nat) (spectrum prev : List Cplx) :
    demapCarriers num m (carrierValues lSym m spectrum) prev = (List.range m.carrierCount).map fun (k : Nat) =>
      demodOrErase num (spectrum.getD (binOf lSym (m.carrierOffset + (k : Int))) Cplx.zero)
        (prev.getD k Cplx.zero) := by
  refine List.map_congr_left fun k hk => ?_
  have hk := List.mem_range.mp hk
  simp [carrierValues, hk]

theorem slopePoints_map_range (cons : Nat → Cplx) (n : Nat) :
    slopePoints f p m ((List.range n).map cons) =
      ((List.range n).filter fun k => !Cplx.isZero (cons k)).map fun (k : Nat) =>
        (m.carrierOffset + (k : Int), f.num.arg (Cplx.mul f.num (cons k) (Cplx.conj (idealPoint f p m (cons k))))) := by
  have placed : ((List.range n).map cons).zipIdx = (List.range n).map fun k => (cons k, k) :=
    List.ext_getElem (by simp) (by simp)
  rw [slopePoints, placed, List.filter_map, List.map_map]
  rfl

theorem compensate_map_range (num : Numerics) (line : F32 × F32) (cons : Nat → Cplx) (n : Nat) :
    compensate num m line ((List.range n).map cons) = (List.range n).map fun (k : Nat) =>
      if Cplx.isZero (cons k) then cons k
      else Cplx.mul num (cons k) (rotor num (lineAt num line (m.carrierOffset + (k : Int)))) :=
  List.ext_getElem (by simp [compensate]) (by simp [compensate])

end

/-- Settles O39: the median by its rank in the sorted list, the line's slopes by induction on the points, the carriers
by following one place through each step; the precision as it is defined. -/
theorem medianHasTheMiddleRank : Obligations.MedianHasTheMiddleRank := by
  refine ⟨fun xs => median_rank, fun num => ⟨rfl, fun q => rfl, fun pts two => ?_⟩, fun f p m cons => rfl,
    fun f p d xs => ?_⟩
  · intro x y slope
    have slopes : slope = median (pairSlopes num pts) := congrArg median (pairSlopes_eq_flatMap num (0, 0) pts).symm
    rw [theilSen_of_two_le num two, ← slopes, ← map_getD_range _ pts (0, 0)]
  · intro ideal carriers index tdom cons line
    have demapped : demapCarriers f.num d.mode (d.demodulate f p xs).prev d.prev = carriers.map cons :=
      demapCarriers_carrierValues ..
    rw [demodulate_consPts, equalize, demapped, slopePoints_map_range, compensate_map_range]
    rfl

/-! ### The place of the soft bits (rule R237) -/

section
variable {α β : Type}

/-- In a list of blocks of one width w, entry b of block k stands at place `w·k + b`. -/
theorem flatMap_range_getElem? {w b : Nat} (hb : b < w) (g : α → Nat → β) (xs : List α) (k : Nat) :
    (xs.flatMap fun x => (List.range w).map (g x))[w * k + b]? = xs[k]?.map fun x => g x b := by
  induction xs generalizing k with
  | nil => rfl
  | cons x xs ih =>
    rw [List.flatMap_cons]
    cases k with
    | zero => rw [List.getElem?_append_left (by simpa using hb)]; simp [hb]
    | succ k =>
      have width : ((List.range w).map (g x)).length = w := by simp
      rw [List.getElem?_append_right (by rw [width, Nat.mul_succ]; omega), width, Nat.mul_succ,
        show w * k + w + b - w = w * k + b by omega, ih]
      rfl

variable {xs ys : List α} {off i : Nat}

/-- Entry i of what is spliced in stands i places after its start. -/
theorem splice_getElem?_inside (fits : off + ys.length ≤ xs.length) (hi : i < ys.length) :
    (splice xs off ys)[off + i]? = ys[i]? := by
  rw [List.getElem?_eq_getElem (by simp; omega), splice_getElem (by omega), if_pos (by omega),
    Nat.add_sub_cancel_left, List.getD_eq_getElem _ _ hi, List.getElem?_eq_getElem hi]

theorem splice_getElem?_outside (h : i < off ∨ off + ys.length ≤ i) : (splice xs off ys)[i]? = xs[i]? := by
  by_cases hi : i < xs.length
  · rw [List.getElem?_eq_getElem (by simpa using hi), splice_getElem hi, if_neg (by omega),
      List.getElem?_eq_getElem hi]
  · rw [List.getElem?_eq_none (by simpa using hi), List.getElem?_eq_none (by omega)]

end

/-- Soft bit b of carrier k stands at place `mod_bits·k + b` of the symbol's (rule R237). -/
theorem softBits_getElem? (f : Functions) (p : Params) (m : ModeRegs) {cons : List Cplx} {k b : Nat}
    (hk : k < cons.length) (hb : b < m.modBits) :
    (softBits f p m cons)[m.modBits * k + b]? = some (toSoft f.num p.soft
      (F32.mul f.num (precision f p m cons) (f.pskSoft m.modBits (cons.getD k Cplx.zero) b))) := by
  rw [softBits, flatMap_range_getElem? hb, List.getElem?_eq_getElem hk, List.getD_eq_getElem _ _ hk]
  rfl

/-- The products of a row of the mode table: the symbols of a burst fill the code vector's first `cons_bits` (rules R40,
R237). -/
theorem isRow_consBits {m : ModeRegs} (row : m.IsRow) :
    m.modBits * m.symbolCount * m.carrierCount = m.consBits ∧ m.consBits ≤ codeLen := by
  obtain ⟨mode, row⟩ := row
  obtain ⟨product, -, -, -, -, fits, -⟩ := modeRow_facts row
  exact ⟨by rw [← product]; ring, fits⟩

/-- The entries of symbol i end where those of symbol i + 1 start. -/
theorem symbolEnd_eq (m : ModeRegs) (i : Nat) :
    m.modBits * i * m.carrierCount + m.modBits * m.carrierCount = m.modBits * (i + 1) * m.carrierCount := by ring

/-- The soft bits of a symbol of the burst lie within the code vector. -/
theorem symbolEnd_le_codeLen {m : ModeRegs} (row : m.IsRow) {i : Nat} (hi : i < m.symbolCount) :
    m.modBits * (i + 1) * m.carrierCount ≤ codeLen := by
  obtain ⟨product, fits⟩ := isRow_consBits row
  calc m.modBits * (i + 1) * m.carrierCount ≤ m.modBits * m.symbolCount * m.carrierCount := by gcongr; exact hi
    _ ≤ codeLen := product ▸ fits

/-- Settles O47: the symbol's soft bits are spliced into the code vector at its place, which a row of the mode table
keeps within the vector. -/
theorem softBitsFillTheCodeVector : Obligations.SoftBitsFillTheCodeVector := by
  intro f p d xs row full inBurst
  have bits : (softBits f p d.mode (d.demodulate f p xs).consPts).length = d.mode.modBits * d.mode.carrierCount := by
    rw [softBits_length, demodulate_consPts_length]
  refine ⟨rfl, fun k hk => ?_, demodulate_consPts_length .., fun k hk b hb => ?_, fun n outside => ?_,
    (isRow_consBits row).1⟩
  · rw [demodulate_prev, carrierValues, List.getElem?_map, List.getElem?_range hk]
    rfl
  · have place : d.mode.modBits * k + b < d.mode.modBits * d.mode.carrierCount :=
      calc d.mode.modBits * k + b < d.mode.modBits * (k + 1) := Nat.add_lt_add_left hb _
        _ ≤ d.mode.modBits * d.mode.carrierCount := Nat.mul_le_mul_left _ hk
    rw [demodulate_code, Nat.add_assoc, splice_getElem?_inside ?_ (bits ▸ place),
      softBits_getElem? f p d.mode (by simpa using hk) hb]
    rw [bits, symbolEnd_eq, full]
    exact symbolEnd_le_codeLen row inBurst
  · rw [demodulate_code, splice_getElem?_outside]
    rwa [bits, symbolEnd_eq]

end Sys2Proof.Machine
end

section
/-! SUPPORT. What a FETCH that answers success delivers (rules R276 to R284). -/

namespace Sys2Proof.Machine

/-! ### The selected lane (rules R276, R277) -/

/-- The lanes are tried in an order of the variant, each once. -/
theorem laneOrder_perm (kind : SoftKind) (lanes : List Lane) : (laneOrder kind lanes).Perm lanes := by
  cases kind with
  | float => exact sortBy_perm lanes
  | int8 => exact .refl lanes

/-- The selected lane is one of the lanes, and it passes. -/
theorem selectLane_mem_passes {p : Params} {lanes : List Lane} {lane : Lane} (selected : selectLane p lanes = some lane) :
    lane ∈ lanes ∧ lanePasses p lane = true :=
  ⟨(laneOrder_perm p.soft lanes).mem_iff.mp (List.mem_of_find?_eq_some selected), List.find?_some selected⟩

/-- Every lane's message has one bit per zero flag of the table. -/
theorem lanesOf_message_length {f : Functions} {frozen : List Bool} {mesg : Nat} {code : List SoftBit} {lane : Lane}
    (table : frozenOk frozen mesg = true) (isLane : lane ∈ lanesOf f frozen mesg code) :
    lane.message.length = mesg := by
  obtain ⟨l, -, rfl⟩ := List.mem_map.mp isLane
  exact (laneOf_lengths f code l table).2

/-- An answer with `OK` set comes from a selected lane: the failure answer is 0. -/
theorem fetchNext_selected_of_ok {f : Functions} {s : State} (ok : (fetchNext f s).dec.rsp.getLsbD 0 = true) :
    ∃ lane, selectLane s.params (lanesOf f (Params.frozen s.params s.dec.mode.frozenSel) s.dec.mode.mesgBits
      (s.dec.lengthened f s.params)) = some lane := by
  refine Option.ne_none_iff_exists'.mp fun unselected => ?_
  rw [fetchNext_rsp_of_no_lane f unselected] at ok
  cases ok

/-! ### The payload bits (rules R281, R282) -/

theorem testBit_foldr_bits : ∀ (bits : List Bool) (i : Nat),
    (bits.foldr (fun (b : Bool) n => 2 * n + b.toNat) 0).testBit i = bits.getD i false
  | [], i => Nat.zero_testBit i
  | b :: bits, 0 => by rw [List.foldr_cons, ← Nat.bit_val, Nat.testBit_bit_zero]; rfl
  | b :: bits, i + 1 => by
    rw [List.foldr_cons, ← Nat.bit_val, Nat.testBit_bit_succ, testBit_foldr_bits bits i]
    rfl

/-- Bit i of a byte is bit i of the message bits it is made of. -/
theorem byteOf_getLsbD (bits : List Bool) {i : Nat} (hi : i < 8) : (byteOf bits).getLsbD i = bits.getD i false := by
  rw [byteOf, BitVec.getLsbD_ofNat, testBit_foldr_bits, decide_eq_true hi, Bool.true_and]

/-- Byte t is made of the eight bits from place `8·t` on. -/
theorem packBytes_getElem? : ∀ (n : Nat) (bits : List Bool) {t : Nat}, t < n →
    (packBytes n bits)[t]? = some (byteOf ((bits.drop (8 * t)).take 8))
  | _ + 1, _, 0, _ => rfl
  | n + 1, bits, t + 1, ht => by
    rw [packBytes, List.getElem?_cons_succ, packBytes_getElem? n _ (Nat.lt_of_succ_lt_succ ht), List.drop_drop,
      Nat.mul_succ, Nat.add_comm]

/-- Payload byte t: the message's byte, exclusive-or the scrambler's. -/
theorem payloadBytes_getElem? (p : Params) (msg : List Bool) {t : Nat} (ht : t < payloadLen) :
    (payloadBytes p msg)[t]? = some (byteOf ((msg.drop (8 * t)).take 8) ^^^ (scrambleStream p).getD t 0) := by
  have stream : t < (scrambleStream p).length := by rwa [scrambleStream, scrambleFrom_length]
  rw [payloadBytes, List.getElem?_zipWith, packBytes_getElem? _ _ ht, List.getElem?_eq_getElem stream,
    List.getD_eq_getElem _ _ stream]

/-- Payload bit k is bit `k mod 8` of byte `k / 8`: message bit k exclusive-or the scrambler's bit. -/
theorem payloadBytes_getLsbD (p : Params) (msg : List Bool) {k : Nat} (hk : k < dataBits) :
    ((payloadBytes p msg).getD (k / 8) 0).getLsbD (k % 8) =
      (msg.getD k false != ((scrambleStream p).getD (k / 8) 0).getLsbD (k % 8)) := by
  have inByte : k % 8 < 8 := Nat.mod_lt _ (by decide)
  have inPayload : k / 8 < payloadLen := Nat.div_lt_of_lt_mul hk
  have messageBit : ((msg.drop (8 * (k / 8))).take 8).getD (k % 8) false = msg.getD k false := by
    rw [List.getD_eq_getElem?_getD, List.getElem?_take_of_lt inByte, List.getElem?_drop, Nat.div_add_mod,
      List.getD_eq_getElem?_getD]
  rw [List.getD_eq_getElem?_getD, payloadBytes_getElem? p msg inPayload, Option.getD_some, BitVec.getLsbD_xor,
    byteOf_getLsbD _ inByte, messageBit]

/-- A canonical PAYLOAD of its length reads back the payload of the selected lane. -/
theorem payload_read_of_written {b : Buffer 8} {p : Params} {msg : List Bool} (len : b.len = payloadLen)
    (wf : b.wf = true) {t : Nat} (ht : t < payloadLen) :
    (b.writeFrom 0 (payloadBytes p msg)).read t = (payloadBytes p msg).getD t 0 := by
  have inside : t < (payloadBytes p msg).length := by rwa [payloadBytes_length]
  rw [buffer_read_write_zero wf (Nat.le_of_eq ((payloadBytes_length p msg).trans len.symm)) inside,
    List.getD_eq_getElem _ _ inside]

/-- Settles O22: `OK` is set only where a lane was selected, a selected lane passes the CRC-32, and PAYLOAD reads back
its descrambled bits. -/
theorem successfulFetchHasZeroCrc : Obligations.SuccessfulFetchHasZeroCrc := by
  refine ⟨fun s t created next => ?_, fun f s table _ len wf ok => ?_⟩
  · obtain ⟨-, -, -, left⟩ := execFetch_next created next
    exact left
  obtain ⟨lane, selected⟩ := fetchNext_selected_of_ok ok
  obtain ⟨isLane, passes⟩ := selectLane_mem_passes selected
  refine ⟨lane, isLane, selected, lanesOf_message_length table isLane, of_decide_eq_true passes, fun k hk => ?_⟩
  rw [(fetchNext_of_lane f selected).2, payload_read_of_written len wf (Nat.div_lt_of_lt_mul hk),
    payloadBytes_getLsbD s.params lane.message hk]

end Sys2Proof.Machine
end

section
/-! SUPPORT. CHUNK and RECOVER on a CREATED unit: what they answer, and the slots they leave (45_erasure_crs.md). -/

namespace Sys2Proof.Machine

/-! ### CHUNK (rules R305, R306) -/

section
variable {s : State} {idx : BitVec 4}

theorem execChunk_of_short (ident : BitVec 16) (created : s.ers.alive = .created) (slot : idx.toNat < 12)
    (short : s.bufs.chunkin.len < s.params.chunkHdr + chunkLen) :
    execChunk idx ident s = .refused (.bufferTooShort (.byte .chunkin)) := by
  rw [execChunk_of_slot ident created slot, if_pos short]

/-- The state after a CHUNK that stored. -/
def chunkNext (s : State) (idx : Nat) (ident : BitVec 16) (slot : idx < 12) : State :=
  { s with ers := { s.ers with slots := s.ers.slots.set idx (chunkSlot s ident) slot, rsp := 1 } }

theorem execChunk_of_long (ident : BitVec 16) (created : s.ers.alive = .created) (slot : idx.toNat < 12)
    (long : s.params.chunkHdr + chunkLen ≤ s.bufs.chunkin.len) :
    execChunk idx ident s = .next (chunkNext s idx.toNat ident slot) := by
  rw [execChunk_of_slot ident created slot, if_neg (by omega)]
  rfl

theorem chunkNext_slot_same (s : State) {idx : Nat} (ident : BitVec 16) (slot : idx < 12) :
    (chunkNext s idx ident slot).ers.slot idx = chunkSlot s ident :=
  (slot_set s.ers slot (chunkSlot s ident) 1 idx).trans (if_pos rfl)

theorem chunkNext_slot_other (s : State) {idx : Nat} (ident : BitVec 16) (slot : idx < 12) {k : Nat} (other : k ≠ idx) :
    (chunkNext s idx ident slot).ers.slot k = s.ers.slot k :=
  (slot_set s.ers slot (chunkSlot s ident) 1 k).trans (if_neg other)

theorem chunkSlot_read (s : State) (ident : BitVec 16) {b : Nat} (hb : b < 5376) :
    Cells.read (chunkSlot s ident).data b = s.bufs.chunkin.read (s.params.chunkHdr + b) :=
  cells_read_slice hb

end

/-- Settles O55: by the slot number and the length of CHUNKIN; the written slot is a copy of a range of CHUNKIN. -/
theorem chunkStoresOnePayload : Obligations.ChunkStoresOnePayload := by
  intro s idx ident created
  refine ⟨rfl, execChunk_of_no_slot ident created, execChunk_of_short ident created, fun slot long => ?_⟩
  refine ⟨chunkNext s idx.toNat ident slot, execChunk_of_long ident created slot long, rfl, ?_⟩
  rw [chunkNext_slot_same]
  exact ⟨rfl, rfl, fun b hb => chunkSlot_read s ident hb, fun k other => chunkNext_slot_other s ident slot other⟩

/-! ### RECOVER (rules R310, R313, R318) -/

section
variable {s t : State} {count : BitVec 4} {total : BitVec 20}

theorem countLegal_of_range (low : 1 ≤ count.toNat) (high : count.toNat ≤ 12) : countLegal count = true := by
  simp [countLegal, low, high]

/-- RECOVER's preconditions. -/
theorem recoverRefusal_eq_none_iff {total count : Nat} : recoverRefusal s total count = none ↔
    gfIrreducible s.params.gfPoly = true ∧ (columnPoints s.params count).Nodup ∧
      (∀ k < count, (s.ers.slot k).valid = true) ∧ (s.ers.idents count).Nodup ∧
      (∀ x ∈ s.ers.idents count, x ∉ columnPoints s.params count) ∧ total ≤ 5376 * count ∧
      total ≤ s.bufs.out.len := by
  simp [recoverRefusal, ite_eq_iff]

/-- A legal RECOVER on a CREATED unit is refused or completes, as its preconditions say. -/
theorem execRecover_next_iff (created : s.ers.alive = .created) (legal : countLegal count = true) :
    execRecover count total s = .next t ↔
      recoverRefusal s total.toNat count.toNat = none ∧ t = recoverNext s total.toNat count.toNat := by
  cases refusal : recoverRefusal s total.toNat count.toNat with
  | none => simp [execRecover_next created legal refusal, eq_comm]
  | some r => simp [execRecover_refused created legal refusal]

/-- RECOVER clears `valid` and keeps the rest of every slot. -/
theorem recoverNext_slot (s : State) (total count k : Nat) :
    (recoverNext s total count).ers.slot k = { s.ers.slot k with valid := false } := by
  unfold Ers.slot
  simp only [recoverNext, Vector.toList_map, List.getD_eq_getElem?_getD, List.getElem?_map]
  cases s.ers.slots.toList[k]? <;> rfl

end

/-- Settles O60: a completed RECOVER leaves no valid slot, and a RECOVER needs slot 0 valid. -/
theorem secondRecoverIsRefused : Obligations.SecondRecoverIsRefused := by
  intro s t count count' total total' created low high next low' high'
  obtain ⟨-, rfl⟩ := (execRecover_next_iff created (countLegal_of_range low high)).mp next
  have cleared (k : Nat) : ((recoverNext s total.toNat count.toNat).ers.slot k).valid = false := by
    rw [recoverNext_slot]
  refine ⟨fun k _ => cleared k, ?_⟩
  cases refusal : recoverRefusal (recoverNext s total.toNat count.toNat) total'.toNat count'.toNat with
  | some r => exact ⟨r, execRecover_refused created (countLegal_of_range low' high') refusal⟩
  | none =>
    obtain ⟨-, -, valid, -⟩ := recoverRefusal_eq_none_iff.mp refusal
    cases (cleared 0).symm.trans (valid 0 low')

end Sys2Proof.Machine
end

section
/-! SUPPORT. The field GF(2^16) of rules R301 to R303: a number is the polynomial over GF(2) of its bits, and where
`gfIrreducible` holds, the polynomials modulo that of `GF_POLY` are a field of 2^16 elements that `gfMul` and `gfInv`
compute in. -/

namespace Sys2Proof.Machine

open Polynomial

/-! ### A number as a polynomial over GF(2) (rule R301) -/

/-- The polynomial whose coefficient of `X^i` is bit i of n. -/
noncomputable def bitPoly (n : Nat) : (ZMod 2)[X] := ∑ i ∈ n.bitIndices.toFinset, X ^ i

theorem coeff_bitPoly (n i : Nat) : (bitPoly n).coeff i = if n.testBit i then 1 else 0 := by
  simp [bitPoly, coeff_X_pow]

@[simp] theorem bitPoly_zero : bitPoly 0 = 0 := by simp [bitPoly]

@[simp] theorem bitPoly_one : bitPoly 1 = 1 := by simp [bitPoly]

theorem bitPoly_xor (a b : Nat) : bitPoly (a ^^^ b) = bitPoly a + bitPoly b := by
  ext i
  simp only [coeff_add, coeff_bitPoly, Nat.testBit_xor]
  cases a.testBit i <;> cases b.testBit i <;> decide

theorem bitPoly_shiftLeft (a n : Nat) : bitPoly (a <<< n) = bitPoly a * X ^ n := by
  ext i
  rw [coeff_mul_X_pow', coeff_bitPoly, coeff_bitPoly, Nat.testBit_shiftLeft]
  by_cases h : n ≤ i <;> simp [h]

theorem bitPoly_surjective : Function.Surjective bitPoly := by
  intro q
  induction q using Polynomial.induction_on' with
  | add p q hp hq =>
    obtain ⟨a, rfl⟩ := hp
    obtain ⟨b, rfl⟩ := hq
    exact ⟨a ^^^ b, bitPoly_xor a b⟩
  | monomial n c =>
    obtain rfl | rfl : c = 0 ∨ c = 1 := by revert c; decide
    · exact ⟨0, by simp⟩
    · exact ⟨1 <<< n, by rw [bitPoly_shiftLeft, bitPoly_one, one_mul, X_pow_eq_monomial]⟩

theorem coeff_bitPoly_log2 {n : Nat} (h : n ≠ 0) : (bitPoly n).coeff n.log2 = 1 := by
  rw [coeff_bitPoly, Nat.testBit_log2 h, if_pos rfl]

theorem bitPoly_ne_zero {n : Nat} (h : n ≠ 0) : bitPoly n ≠ 0 := fun zero => by
  simpa [zero] using coeff_bitPoly_log2 h

theorem natDegree_bitPoly (n : Nat) : (bitPoly n).natDegree = n.log2 := by
  obtain rfl | h := eq_or_ne n 0
  · simp
  refine natDegree_eq_of_le_of_coeff_ne_zero (natDegree_le_iff_coeff_eq_zero.mpr fun i above => ?_)
    (by rw [coeff_bitPoly_log2 h]; exact one_ne_zero)
  rw [coeff_bitPoly, Nat.testBit_lt_two_pow ((Nat.log2_lt h).mp above)]
  rfl

theorem bitPoly_monic {n : Nat} (h : n ≠ 0) : (bitPoly n).Monic :=
  monic_of_natDegree_le_of_coeff_eq_one _ (natDegree_bitPoly n).le (coeff_bitPoly_log2 h)

/-! ### Residues modulo a polynomial -/

/-- The polynomial of n modulo that of q. -/
noncomputable def residue (q n : Nat) : AdjoinRoot (bitPoly q) := AdjoinRoot.mk (bitPoly q) (bitPoly n)

section
variable (q : Nat)

@[simp] theorem residue_zero : residue q 0 = 0 := by simp [residue]

@[simp] theorem residue_one : residue q 1 = 1 := by simp [residue]

theorem residue_xor (a b : Nat) : residue q (a ^^^ b) = residue q a + residue q b := by
  rw [residue, bitPoly_xor, map_add, residue, residue]

theorem residue_shiftLeft (a n : Nat) : residue q (a <<< n) = residue q a * AdjoinRoot.root (bitPoly q) ^ n := by
  rw [residue, bitPoly_shiftLeft, map_mul, map_pow, AdjoinRoot.mk_X, residue]

/-- The bits above the lowest, and the lowest. -/
theorem shiftLeft_shiftRight_xor_lowest (b : Nat) : (b >>> 1) <<< 1 ^^^ (if b.testBit 0 then 1 else 0) = b := by
  refine Nat.eq_of_testBit_eq fun i => ?_
  rw [Nat.testBit_xor, Nat.testBit_shiftLeft, Nat.testBit_shiftRight, apply_ite (Nat.testBit · i)]
  cases i with
  | zero => simp
  | succ i => simp [Nat.add_comm 1, Nat.testBit_succ]

theorem residue_eq_shiftRight_add_lowest (b : Nat) : residue q b =
    residue q (b >>> 1) * AdjoinRoot.root (bitPoly q) + residue q (if b.testBit 0 then 1 else 0) := by
  rw [← pow_one (AdjoinRoot.root _), ← residue_shiftLeft, ← residue_xor, shiftLeft_shiftRight_xor_lowest]

@[simp] theorem residue_self : residue q q = 0 := AdjoinRoot.mk_self

theorem residue_eq_zero_iff {n : Nat} : residue q n = 0 ↔ bitPoly q ∣ bitPoly n := AdjoinRoot.mk_eq_zero

/-- Below the degree of q a residue is zero for the number zero only. -/
theorem eq_zero_of_residue_eq_zero {q n : Nat} (low : n < 2 ^ q.log2) (h : residue q n = 0) : n = 0 := by
  by_contra nonzero
  refine bitPoly_ne_zero nonzero (eq_zero_of_dvd_of_natDegree_lt ((residue_eq_zero_iff q).mp h) ?_)
  rwa [natDegree_bitPoly, natDegree_bitPoly, Nat.log2_lt nonzero]

end

/-- One step of a division: bit n of r is cancelled with a multiple m of the divisor. -/
def cancelBit (n r m : Nat) : Nat := if r.testBit n then r ^^^ m else r

theorem testBit_cancelBit (n r m i : Nat) :
    (cancelBit n r m).testBit i = (r.testBit i ^^ (r.testBit n && m.testBit i)) := by
  unfold cancelBit
  cases r.testBit n <;> simp

theorem cancelBit_lt {n r m : Nat} (hr : r < 2 ^ (n + 1)) (nonzero : m ≠ 0) (top : m.log2 = n) :
    cancelBit n r m < 2 ^ n := by
  refine Nat.lt_pow_two_of_testBit _ fun i hi => ?_
  rw [testBit_cancelBit]
  obtain rfl | above := hi.eq_or_lt
  · rw [← top, Nat.testBit_log2 nonzero, Bool.and_true, Bool.xor_self]
  · have outside : ∀ x < 2 ^ (n + 1), x.testBit i = false := fun x hx =>
      Nat.testBit_lt_two_pow (hx.trans_le (Nat.pow_le_pow_right (by decide) above))
    rw [outside r hr, outside m ((Nat.log2_lt nonzero).mp (by omega)), Bool.and_false, Bool.xor_false]

theorem residue_cancelBit {q m : Nat} (multiple : residue q m = 0) (n r : Nat) :
    residue q (cancelBit n r m) = residue q r := by
  unfold cancelBit
  split
  · rw [residue_xor, multiple, add_zero]
  · rfl

/-! ### Division and irreducibility (rule R302) -/

theorem log2_shiftLeft {q : Nat} (nonzero : q ≠ 0) (n : Nat) : (q <<< n).log2 = q.log2 + n := by
  rw [← natDegree_bitPoly, bitPoly_shiftLeft, natDegree_mul_X_pow _ (bitPoly_ne_zero nonzero), natDegree_bitPoly]

theorem polyRem_succ (q d n r : Nat) :
    polyRem q d (n + 1) r = polyRem q d n (cancelBit (d + n) r (q <<< n)) := rfl

theorem polyRem_lt {q : Nat} (nonzero : q ≠ 0) : ∀ {n r : Nat}, r < 2 ^ (q.log2 + n) →
    polyRem q q.log2 n r < 2 ^ q.log2
  | 0, _, hr => hr
  | n + 1, r, hr => by
    rw [polyRem_succ]
    exact polyRem_lt nonzero (cancelBit_lt hr (by simpa using nonzero) (log2_shiftLeft nonzero n))

theorem residue_polyRem (q d : Nat) : ∀ n r : Nat, residue q (polyRem q d n r) = residue q r
  | 0, _ => rfl
  | n + 1, r => by
    rw [polyRem_succ, residue_polyRem q d n, residue_cancelBit]
    rw [residue_shiftLeft, residue_self, zero_mul]

theorem polyRem_eq_zero_of_dvd {q r n : Nat} (nonzero : q ≠ 0) (hr : r < 2 ^ (q.log2 + n))
    (dvd : bitPoly q ∣ bitPoly r) : polyRem q q.log2 n r = 0 :=
  eq_zero_of_residue_eq_zero (polyRem_lt nonzero hr)
    ((residue_polyRem q q.log2 n r).trans ((residue_eq_zero_iff q).mpr dvd))

theorem ne_zero_of_log2 {p : Nat} (deg : p.log2 = 16) : p ≠ 0 := by
  rintro rfl
  simp at deg

theorem log2_of_gfIrreducible {p : Nat} (irr : gfIrreducible p = true) : p.log2 = 16 := by
  simp only [gfIrreducible, Bool.and_eq_true, decide_eq_true_eq] at irr
  obtain ⟨⟨low, high⟩, -⟩ := irr
  exact (Nat.log2_eq_iff (by omega)).mpr ⟨low, high⟩

/-- What the trial division finds: no number of degree 1 to 8 divides. -/
theorem polyRem_ne_zero_of_gfIrreducible {p k : Nat} (irr : gfIrreducible p = true) (low : 2 ≤ k) (high : k < 512) :
    polyRem k k.log2 (17 - k.log2) p ≠ 0 := by
  simp only [gfIrreducible, Bool.and_eq_true, List.all_eq_true, decide_eq_true_eq, List.mem_range] at irr
  obtain ⟨-, trial⟩ := irr
  have := trial (k - 2) (by omega)
  rwa [Nat.sub_add_cancel low] at this

/-- Trial division decides irreducibility: a proper factor can be taken of degree at most 8. -/
theorem irreducible_of_gfIrreducible {p : Nat} (irr : gfIrreducible p = true) : Irreducible (bitPoly p) := by
  have deg := log2_of_gfIrreducible irr
  have nonzero := ne_zero_of_log2 deg
  have nonconstant : bitPoly p ≠ 1 := fun one => by
    have := natDegree_bitPoly p
    rw [one, natDegree_one] at this
    omega
  rw [(bitPoly_monic nonzero).irreducible_iff_lt_natDegree_lt nonconstant]
  intro q _ range dvd
  obtain ⟨k, rfl⟩ := bitPoly_surjective q
  rw [natDegree_bitPoly, natDegree_bitPoly, deg, Finset.mem_Ioc] at range
  obtain ⟨pos, half⟩ := range
  have hk : k ≠ 0 := by rintro rfl; simp at pos
  have two : 2 ≤ k := (Nat.le_log2 hk).mp pos
  refine polyRem_ne_zero_of_gfIrreducible irr two ((Nat.log2_lt hk).mp (Nat.lt_succ_of_le half))
    (polyRem_eq_zero_of_dvd hk ?_ dvd)
  rw [Nat.add_sub_cancel' (by omega)]
  exact (Nat.log2_lt nonzero).mp (by omega)

/-! ### Multiplication (rule R302) -/

section
variable {poly : Nat}

/-- A number times `x`, modulo `GF_POLY`. -/
def timesX (poly a : Nat) : Nat := cancelBit 16 (a <<< 1) poly

theorem timesX_eq (poly a : Nat) :
    (if (a <<< 1) &&& 0x10000 ≠ 0 then (a <<< 1) ^^^ poly else a <<< 1) = timesX poly a := by
  rw [timesX, cancelBit, show 0x10000 = 2 ^ 16 from rfl, Nat.and_two_pow]
  cases (a <<< 1).testBit 16 <;> rfl

theorem gfMulLoop_succ (poly fuel a b r : Nat) : gfMulLoop poly (fuel + 1) a b r =
    if b = 0 then r else gfMulLoop poly fuel (timesX poly a) (b >>> 1) (if b.testBit 0 then r ^^^ a else r) := by
  rw [← timesX_eq]
  rfl

theorem residue_timesX (poly a : Nat) :
    residue poly (timesX poly a) = residue poly a * AdjoinRoot.root (bitPoly poly) := by
  rw [timesX, residue_cancelBit (residue_self poly), residue_shiftLeft, pow_one]

theorem residue_gfMulLoop (poly : Nat) : ∀ {fuel b : Nat} (a r : Nat), b < 2 ^ fuel →
    residue poly (gfMulLoop poly fuel a b r) = residue poly r + residue poly a * residue poly b
  | 0, b, a, r, hb => by
    obtain rfl : b = 0 := by omega
    rw [residue_zero, mul_zero, add_zero]
    rfl
  | fuel + 1, b, a, r, hb => by
    rw [gfMulLoop_succ]
    split
    next zero => rw [zero, residue_zero, mul_zero, add_zero]
    next =>
      rw [residue_gfMulLoop poly _ _ (by rw [Nat.shiftRight_one]; omega), residue_timesX,
        residue_eq_shiftRight_add_lowest poly b]
      split
      · rw [residue_xor, residue_one]; ring
      · rw [residue_zero]; ring

theorem gfMulLoop_lt (deg : poly.log2 = 16) : ∀ (fuel b : Nat) {a r : Nat}, a < 2 ^ 16 → r < 2 ^ 16 →
    gfMulLoop poly fuel a b r < 2 ^ 16
  | 0, _, _, _, _, hr => hr
  | fuel + 1, b, a, r, ha, hr => by
    have nonzero := ne_zero_of_log2 deg
    rw [gfMulLoop_succ]
    split
    · exact hr
    · refine gfMulLoop_lt deg fuel _ (cancelBit_lt (by rw [Nat.shiftLeft_eq]; omega) nonzero deg) ?_
      split
      · exact Nat.xor_lt_two_pow hr ha
      · exact hr

/-! ### The field (rules R301 to R303) -/

/-- The element of the field that a u16 stands for. -/
noncomputable def gfVal (poly : Nat) (a : Half) : AdjoinRoot (bitPoly poly) := residue poly a.toNat

@[simp] theorem gfVal_zero : gfVal poly 0 = 0 := residue_zero poly

@[simp] theorem gfVal_one : gfVal poly 1 = 1 := residue_one poly

@[simp] theorem gfVal_xor (a b : Half) : gfVal poly (a ^^^ b) = gfVal poly a + gfVal poly b := by
  rw [gfVal, BitVec.toNat_xor, residue_xor, gfVal, gfVal]

theorem gfVal_add_self (a : Half) : gfVal poly a + gfVal poly a = 0 := by
  rw [← gfVal_xor, BitVec.xor_self]
  exact gfVal_zero

theorem gfVal_foldl_xor (xs : List Half) (a : Half) :
    gfVal poly (xs.foldl (· ^^^ ·) a) = gfVal poly a + (xs.map (gfVal poly)).sum := by
  induction xs generalizing a with
  | nil => simp
  | cons x xs ih => rw [List.foldl_cons, ih, gfVal_xor, List.map_cons, List.sum_cons, add_assoc]

section
variable (deg : poly.log2 = 16)
include deg

theorem gfVal_eq_zero_iff {a : Half} : gfVal poly a = 0 ↔ a = 0 := by
  refine ⟨fun h => ?_, fun h => by rw [h]; exact gfVal_zero⟩
  exact BitVec.eq_of_toNat_eq (eq_zero_of_residue_eq_zero (by rw [deg]; exact a.isLt) h)

theorem gfVal_injective : Function.Injective (gfVal poly) := by
  intro a b h
  refine BitVec.xor_eq_zero_iff.mp ((gfVal_eq_zero_iff deg).mp ?_)
  rw [gfVal_xor, h, gfVal_add_self]

theorem gfVal_gfMul (a b : Half) : gfVal poly (gfMul poly a b) = gfVal poly a * gfVal poly b := by
  rw [gfVal, gfMul, BitVec.toNat_ofNat, Nat.mod_eq_of_lt (gfMulLoop_lt deg 16 _ a.isLt (by decide)),
    residue_gfMulLoop poly _ _ b.isLt, residue_zero, zero_add, gfVal, gfVal]

theorem gfVal_foldl_gfMul (xs : List Half) (a : Half) :
    gfVal poly (xs.foldl (gfMul poly) a) = gfVal poly a * (xs.map (gfVal poly)).prod := by
  induction xs generalizing a with
  | nil => simp
  | cons x xs ih => rw [List.foldl_cons, ih, gfVal_gfMul deg, List.map_cons, List.prod_cons, mul_assoc]

theorem gfVal_gfProd (xs : List Half) : gfVal poly (gfProd poly xs) = (xs.map (gfVal poly)).prod := by
  rw [gfProd, gfVal_foldl_gfMul deg, gfVal_one, one_mul]

theorem gfVal_gfPowLoop (n : Nat) (x r : Half) :
    gfVal poly (gfPowLoop poly n x r) = gfVal poly r * gfVal poly x ^ (2 ^ (n + 1) - 2) := by
  induction n generalizing x r with
  | zero => simp [gfPowLoop]
  | succ n ih =>
    have exponent : 2 ^ (n + 1 + 1) - 2 = 2 + 2 * (2 ^ (n + 1) - 2) := by
      have := Nat.one_lt_two_pow (n := n + 1) (by omega)
      omega
    rw [gfPowLoop, ih, gfVal_gfMul deg, gfVal_gfMul deg, exponent]
    ring

theorem card_field : Nat.card (AdjoinRoot (bitPoly poly)) = 2 ^ 16 := by
  have nonzero := ne_zero_of_log2 deg
  have := (bitPoly_monic nonzero).finite_adjoinRoot
  rw [Module.natCard_eq_pow_finrank (K := ZMod 2), Nat.card_zmod,
    (AdjoinRoot.powerBasis (bitPoly_ne_zero nonzero)).finrank, AdjoinRoot.powerBasis_dim, natDegree_bitPoly, deg]

variable [Fact (Irreducible (bitPoly poly))]

theorem gfVal_gfInv (a : Half) : gfVal poly (gfInv poly a) = (gfVal poly a)⁻¹ := by
  rw [gfInv, gfVal_gfPowLoop deg, gfVal_one, one_mul]
  obtain zero | nonzero := eq_or_ne (gfVal poly a) 0
  · simp [zero]
  have order : Nat.card (AdjoinRoot (bitPoly poly))ˣ = 65535 := by
    rw [Nat.card_units, card_field deg]
    rfl
  have fermat : gfVal poly a ^ 65535 = 1 := by
    have := congrArg Units.val (pow_card_eq_one' (x := Units.mk0 _ nonzero))
    rwa [order] at this
  exact eq_inv_of_mul_eq_one_left ((pow_succ _ _).symm.trans fermat)

theorem gfVal_gfDiv (a b : Half) : gfVal poly (gfDiv poly a b) = gfVal poly a / gfVal poly b := by
  rw [gfDiv, gfVal_gfMul deg, gfVal_gfInv deg, div_eq_mul_inv]

end

end

end Sys2Proof.Machine
end

section
/-! SUPPORT. The closed form of rule R309 inverts the Cauchy matrix of rule R307, by Lagrange interpolation. -/

namespace Sys2Proof.Machine

open Polynomial Lagrange

/-! ### The inverse of a Cauchy matrix over any field -/

section
variable {K : Type} [Field K] (s : Finset Nat) (x y : Nat → K) (i r : Nat)

/-- Entry (i, r) of the closed form: rows at the points x, columns at the points y. -/
noncomputable def cauchyInverseEntry : K :=
  (nodal s x).eval (y i) / (nodal (s.erase i) y).eval (y i) *
    (nodalWeight s x r * (nodal (s.erase i) y).eval (x r))

variable {s x y}

/-- Interpolation at the points x of a product over the points y, read at a point y. -/
theorem sum_nodalWeight_mul_eval_nodal_erase (distinct : Set.InjOn x s) (apart : ∀ r ∈ s, ∀ k ∈ s, y k ≠ x r)
    {i j : Nat} (hi : i ∈ s) (hj : j ∈ s) :
    (nodal s x).eval (y j) *
        ∑ r ∈ s, nodalWeight s x r * (y j - x r)⁻¹ * (nodal (s.erase i) y).eval (x r) =
      (nodal (s.erase i) y).eval (y j) := by
  rw [← eval_interpolate_not_at_node _ fun r hr => apart r hr j hj]
  rw [← eq_interpolate distinct]
  rw [degree_nodal]
  exact_mod_cast Finset.card_erase_lt_of_mem hi

/-- The closed form inverts the Cauchy matrix. -/
theorem sum_cauchyInverseEntry_mul (distinctX : Set.InjOn x s) (distinctY : Set.InjOn y s)
    (apart : ∀ r ∈ s, ∀ k ∈ s, y k ≠ x r) {i j : Nat} (hi : i ∈ s) (hj : j ∈ s) :
    ∑ r ∈ s, cauchyInverseEntry s x y i r * (y j - x r)⁻¹ = if j = i then 1 else 0 := by
  have interpolated := sum_nodalWeight_mul_eval_nodal_erase distinctX apart hi hj
  have nonzero : (nodal s x).eval (y j) ≠ 0 := eval_nodal_not_at_node fun r hr => apart r hr j hj
  calc ∑ r ∈ s, cauchyInverseEntry s x y i r * (y j - x r)⁻¹
      = (nodal s x).eval (y i) / (nodal (s.erase i) y).eval (y i) *
          ∑ r ∈ s, nodalWeight s x r * (y j - x r)⁻¹ * (nodal (s.erase i) y).eval (x r) := by
        rw [Finset.mul_sum]
        exact Finset.sum_congr rfl fun r _ => by rw [cauchyInverseEntry]; ring
    _ = (nodal s x).eval (y i) / (nodal (s.erase i) y).eval (y i) *
          ((nodal (s.erase i) y).eval (y j) / (nodal s x).eval (y j)) := by
        rw [← interpolated, mul_div_cancel_left₀ _ nonzero]
    _ = if j = i then 1 else 0 := by
        split
        next same =>
          have own : (nodal (s.erase i) y).eval (y i) ≠ 0 := eval_nodal_not_at_node fun k hk =>
            fun equal => (Finset.mem_erase.mp hk).1 (distinctY (Finset.mem_of_mem_erase hk) hi equal.symm)
          subst same
          field_simp
        next other => rw [eval_nodal_at_node (Finset.mem_erase.mpr ⟨other, hj⟩), zero_div, mul_zero]

end

/-! ### The model's closed form (rule R309) -/

section
variable {poly : Nat}

theorem gfVal_xor_eq_sub (a b : Half) : gfVal poly (a ^^^ b) = gfVal poly a - gfVal poly b := by
  rw [gfVal_xor, ← sub_neg_eq_add, neg_eq_of_add_eq_zero_left (gfVal_add_self b)]

/-- The xor of a family of field elements is their sum. -/
theorem gfVal_foldl_xor_range (f : Nat → Half) (n : Nat) :
    gfVal poly (((List.range n).map f).foldl (· ^^^ ·) 0) = ∑ r ∈ Finset.range n, gfVal poly (f r) := by
  rw [gfVal_foldl_xor, gfVal_zero, zero_add, List.map_map]
  exact (List.sum_toFinset _ List.nodup_range).symm.trans (by rw [List.toFinset_range]; rfl)

section
variable (deg : poly.log2 = 16)
include deg

theorem gfVal_gfProd_range (f : Nat → Half) (n : Nat) :
    gfVal poly (gfProd poly ((List.range n).map f)) = ∏ k ∈ Finset.range n, gfVal poly (f k) := by
  rw [gfVal_gfProd deg, List.map_map]
  exact (List.prod_toFinset _ List.nodup_range).symm.trans (by rw [List.toFinset_range]; rfl)

theorem gfVal_gfProd_range_ne (f : Nat → Half) (n i : Nat) :
    gfVal poly (gfProd poly (((List.range n).filter (· ≠ i)).map f)) =
      ∏ k ∈ (Finset.range n).erase i, gfVal poly (f k) := by
  rw [gfVal_gfProd deg, List.map_map]
  refine (List.prod_toFinset _ (List.nodup_range.filter _)).symm.trans ?_
  rw [List.toFinset_filter, List.toFinset_range]
  simp [Finset.filter_ne']

/-- The field elements of a list, by index. -/
noncomputable def gfPoint (poly : Nat) (xs : List Half) (k : Nat) : AdjoinRoot (bitPoly poly) :=
  gfVal poly (xs.getD k 0)

theorem gfPoint_injOn {xs : List Half} (nodup : xs.Nodup) :
    Set.InjOn (gfPoint poly xs) (Finset.range xs.length) := by
  intro a ha b hb equal
  rw [Finset.coe_range, Set.mem_Iio] at ha hb
  have same := gfVal_injective deg equal
  rwa [List.getD_eq_getElem _ _ ha, List.getD_eq_getElem _ _ hb, nodup.getElem_inj_iff] at same

theorem gfPoint_ne {xs ys : List Half} (apart : ∀ x ∈ xs, x ∉ ys) {r k : Nat} (hr : r < xs.length)
    (hk : k < ys.length) : gfPoint poly ys k ≠ gfPoint poly xs r := by
  intro equal
  have same := gfVal_injective deg equal
  rw [List.getD_eq_getElem _ _ hr, List.getD_eq_getElem _ _ hk] at same
  exact apart _ (List.getElem_mem hr) (same ▸ List.getElem_mem hk)

variable [Fact (Irreducible (bitPoly poly))]

theorem gfVal_cauchyInverse {xs ys : List Half} {i r : Nat} (hi : i < xs.length)
    (apart : gfPoint poly ys i ≠ gfPoint poly xs r) :
    gfVal poly (cauchyInverse poly xs ys i r) =
      cauchyInverseEntry (Finset.range xs.length) (gfPoint poly xs) (gfPoint poly ys) i r := by
  have own := sub_ne_zero.mpr apart
  unfold gfPoint at own ⊢
  simp only [cauchyInverse, gfVal_gfDiv deg, gfVal_gfMul deg, gfVal_gfProd_range deg, gfVal_gfProd_range_ne deg,
    Finset.prod_mul_distrib, cauchyInverseEntry, nodalWeight, eval_nodal, Finset.prod_inv_distrib]
  rw [← Finset.mul_prod_erase _ _ (Finset.mem_range.mpr hi)]
  simp only [BitVec.xor_comm _ (ys.getD i 0), gfVal_xor_eq_sub]
  field_simp

/-- The element of a chunk is a row of the Cauchy matrix times the blocks (rule R308). -/
theorem gfVal_chunkElement (ys : List Half) (x : Half) (d : Nat → Half) :
    gfVal poly (chunkElement poly ys x d) =
      ∑ j ∈ Finset.range ys.length, (gfPoint poly ys j - gfVal poly x)⁻¹ * gfVal poly (d j) := by
  rw [chunkElement, gfVal_foldl_xor_range]
  refine Finset.sum_congr rfl fun j _ => ?_
  rw [gfVal_gfMul deg, cauchyEntry, gfVal_gfInv deg, BitVec.xor_comm, gfVal_xor_eq_sub, gfPoint]

end

/-- Decoding chunks gives the blocks they were made of (rules R308, R309). -/
theorem decoded_chunkElements (irr : gfIrreducible poly = true) {xs ys : List Half} {n : Nat} (rows : xs.length = n)
    (columns : ys.length = n) (distinctX : xs.Nodup) (distinctY : ys.Nodup) (apart : ∀ x ∈ xs, x ∉ ys)
    (d : Nat → Half) {i : Nat} (hi : i < n) :
    ((List.range n).map fun r =>
      gfMul poly (cauchyInverse poly xs ys i r) (chunkElement poly ys (xs.getD r 0) d)).foldl (· ^^^ ·) 0 = d i := by
  have deg := log2_of_gfIrreducible irr
  have : Fact (Irreducible (bitPoly poly)) := ⟨irreducible_of_gfIrreducible irr⟩
  have pointsApart : ∀ r ∈ Finset.range n, ∀ k ∈ Finset.range n, gfPoint poly ys k ≠ gfPoint poly xs r :=
    fun r hr k hk => gfPoint_ne deg apart (rows ▸ Finset.mem_range.mp hr) (columns ▸ Finset.mem_range.mp hk)
  have inverse {j : Nat} (hj : j ∈ Finset.range n) := sum_cauchyInverseEntry_mul (rows ▸ gfPoint_injOn deg distinctX)
    (columns ▸ gfPoint_injOn deg distinctY) pointsApart (Finset.mem_range.mpr hi) hj
  refine gfVal_injective deg ?_
  rw [gfVal_foldl_xor_range]
  calc ∑ r ∈ Finset.range n, gfVal poly
        (gfMul poly (cauchyInverse poly xs ys i r) (chunkElement poly ys (xs.getD r 0) d))
      = ∑ r ∈ Finset.range n, ∑ j ∈ Finset.range n,
          cauchyInverseEntry (Finset.range n) (gfPoint poly xs) (gfPoint poly ys) i r *
            (gfPoint poly ys j - gfPoint poly xs r)⁻¹ * gfVal poly (d j) := by
        refine Finset.sum_congr rfl fun r hr => ?_
        rw [gfVal_gfMul deg, gfVal_chunkElement deg, columns, Finset.mul_sum,
          gfVal_cauchyInverse deg (rows.symm ▸ hi) (pointsApart r hr i (Finset.mem_range.mpr hi)), rows]
        exact Finset.sum_congr rfl fun j _ => (mul_assoc _ _ _).symm
    _ = ∑ j ∈ Finset.range n, (if j = i then 1 else 0) * gfVal poly (d j) := by
        rw [Finset.sum_comm]
        refine Finset.sum_congr rfl fun j hj => ?_
        rw [← Finset.sum_mul, inverse hj]
    _ = gfVal poly (d i) := by simp [hi]

end

end Sys2Proof.Machine
end

section
/-! SUPPORT. RECOVER after CHUNKs gives the bytes of the blocks the chunks were made of (rules R304, R310, R314). -/

namespace Sys2Proof.Machine

/-! ### The decoded blocks (rule R309) -/

@[simp] theorem idents_length (e : Ers) (count : Nat) : (e.idents count).length = count := by simp [Ers.idents]

theorem idents_getD (e : Ers) {count r : Nat} (hr : r < count) : (e.idents count).getD r 0 = (e.slot r).ident := by
  simp [Ers.idents, hr]

theorem columnPoints_length (p : Params) {count : Nat} (high : count ≤ 12) : (columnPoints p count).length = count := by
  simp [columnPoints, high]

/-- Slots that hold the chunks of d decode to d (rules R308, R309, R314). -/
theorem blockElement_of_chunks {p : Params} {e : Ers} {count elem : Nat} {d : Nat → Half}
    (irr : gfIrreducible p.gfPoly = true) (high : count ≤ 12) (columns : (columnPoints p count).Nodup)
    (rows : (e.idents count).Nodup) (apart : ∀ x ∈ e.idents count, x ∉ columnPoints p count)
    (chunks : ∀ r < count, e.symbol r elem = chunkElement p.gfPoly (columnPoints p count) (e.slot r).ident d)
    {i : Nat} (hi : i < count) : e.blockElement p count i elem = d i := by
  rw [← decoded_chunkElements irr (idents_length e count) (columnPoints_length p high) rows columns apart d hi,
    Ers.blockElement]
  congr 1
  refine List.map_congr_left fun r hr => ?_
  rw [chunks r (List.mem_range.mp hr), idents_getD e (List.mem_range.mp hr)]

/-! ### The bytes of OUT (rules R310, R311) -/

theorem slices_length (g : Nat → Nat → Byte) (total count n : Nat) :
    ((List.range n).flatMap fun i => (List.range (sliceOf total count i)).map (g i)).length =
      min (n * sliceLen total count) total := by
  simp only [← slices_sum total count n, List.length_flatMap, List.length_map, List.length_range]

/-- Byte b of slice i is byte b of block i. -/
theorem recovered_getElem? (p : Params) (e : Ers) {total count i b : Nat} (hi : i < count)
    (hb : b < sliceOf total count i) :
    (e.recovered p total count)[i * sliceLen total count + b]? = some (e.blockByte p count i b) := by
  have full : min (i * sliceLen total count) total = i * sliceLen total count := by
    unfold sliceOf at hb
    omega
  have before := (slices_length (e.blockByte p count) total count i).trans full
  obtain ⟨m, rfl⟩ : ∃ m, count = i + (m + 1) := ⟨count - i - 1, by omega⟩
  rw [Ers.recovered, List.range_add, List.flatMap_append, ← before, List.getElem?_append_right (by omega),
    Nat.add_sub_cancel_left, List.range_succ_eq_map, List.map_cons, List.flatMap_cons,
    List.getElem?_append_left (by simpa using hb)]
  simp [hb]

theorem recoverNext_read {s : State} {total count i b : Nat} (wf : s.bufs.out.wf = true) (hi : i < count)
    (fits : total ≤ s.bufs.out.len) (hb : b < sliceOf total count i) :
    (recoverNext s total count).bufs.out.read (i * sliceLen total count + b) = s.ers.blockByte s.params count i b := by
  have written := recovered_getElem? s.params s.ers hi hb
  obtain ⟨inside, element⟩ := List.getElem?_eq_some_iff.mp written
  rw [recoverNext_out, buffer_read_write_zero wf ?_ inside, element]
  rwa [recovered_length s.params s.ers (by omega)]

theorem sliceLen_le {total count : Nat} (low : 0 < count) (h : total ≤ 5376 * count) : sliceLen total count ≤ 5376 := by
  refine Nat.lt_succ_iff.mp (Nat.div_lt_of_lt_mul ?_)
  rw [Nat.mul_comm]
  omega

/-! ### A chain of CHUNKs -/

/-- What a CHUNK that completed with a slot number did. -/
theorem execChunk_next_of_slot {s t : State} {idx : BitVec 4} {ident : BitVec 16} (created : s.ers.alive = .created)
    (slot : idx.toNat < 12) (next : execChunk idx ident s = .next t) : t = chunkNext s idx.toNat ident slot := by
  obtain short | long := Nat.lt_or_ge s.bufs.chunkin.len (s.params.chunkHdr + chunkLen)
  · cases (execChunk_of_short ident created slot short).symm.trans next
  · cases (execChunk_of_long ident created slot long).symm.trans next
    rfl

/-- A state with CHUNKIN bound to a buffer. -/
def withChunkin (s : State) (b : Buffer 8) : State := { s with bufs := { s.bufs with chunkin := b } }

/-- A created unit holds the chunks of the first n inputs; parameters and OUT are those of an earlier state. -/
structure HoldsChunks (start : State) (input : Nat → Buffer 8) (ids : Nat → Half) (n : Nat) (s : State) : Prop where
  created : s.ers.alive = .created
  params : s.params = start.params
  out : s.bufs.out = start.bufs.out
  slots : ∀ k < n, s.ers.slot k = chunkSlot (withChunkin start (input k)) (ids k)

section
variable {start s t : State} {input : Nat → Buffer 8} {ids : Nat → Half} {n : Nat}

theorem holdsChunks_succ (h : HoldsChunks start input ids n s) (slot : n < 12)
    (next : execChunk (BitVec.ofNat 4 n) (ids n) (withChunkin s (input n)) = .next t) :
    HoldsChunks start input ids (n + 1) t := by
  have index : (BitVec.ofNat 4 n).toNat = n := Nat.mod_eq_of_lt (by omega)
  obtain rfl := execChunk_next_of_slot (s := withChunkin s (input n)) h.created (index.trans_lt slot) next
  refine ⟨h.created, h.params, h.out, fun k hk => ?_⟩
  obtain below | rfl := Nat.lt_succ_iff_lt_or_eq.mp hk
  · rw [chunkNext_slot_other _ _ _ (by omega)]
    exact h.slots k below
  · simp only [index, chunkNext_slot_same]
    simp only [chunkSlot, withChunkin, h.params]

theorem holdsChunks_of_chain {st : Nat → State} {count : Nat} (created : (st 0).ers.alive = .created)
    (high : count ≤ 12)
    (chain : ∀ r < count, execChunk (BitVec.ofNat 4 r) (ids r) (withChunkin (st r) (input r)) = .next (st (r + 1))) :
    ∀ n ≤ count, HoldsChunks (st 0) input ids n (st n)
  | 0, _ => ⟨created, rfl, rfl, fun _ hk => absurd hk (Nat.not_lt_zero _)⟩
  | n + 1, hn => holdsChunks_succ (holdsChunks_of_chain created high chain n (by omega)) (by omega) (chain n hn)

theorem HoldsChunks.idents (h : HoldsChunks start input ids n s) : s.ers.idents n = (List.range n).map ids :=
  List.map_congr_left fun k hk => by rw [h.slots k (List.mem_range.mp hk)]; rfl

theorem HoldsChunks.symbol (h : HoldsChunks start input ids n s) {k elem : Nat} (hk : k < n) (he : elem < 2688) :
    s.ers.symbol k elem = ((input k).read (start.params.chunkHdr + (2 * elem + 1)) ++
      (input k).read (start.params.chunkHdr + 2 * elem) : Half) := by
  rw [Ers.symbol, h.slots k hk, chunkSlot_read _ _ (by omega), chunkSlot_read _ _ (by omega)]
  rfl

end

/-- Settles O58: the closed form inverts the Cauchy matrix in the field of an irreducible polynomial, the slots hold the
chunks after the chain, and RECOVER's preconditions hold. -/
theorem chunkThenRecoverReconstructs : Obligations.ChunkThenRecoverReconstructs := by
  refine ⟨fun p e count elem d irr high columns rows apart chunks i hi =>
    blockElement_of_chunks irr high columns rows apart chunks hi, ?_⟩
  intro st input ids count total d p cols size low high sizeOk irr columns distinct apart created outLen outWf chain
    chunks
  have held := holdsChunks_of_chain created high chain count.toNat le_rfl
  have idents := held.idents
  have identsApart : ∀ x ∈ (st count.toNat).ers.idents count.toNat, x ∉ columnPoints p count.toNat := by
    rw [idents]
    exact List.forall_mem_map.mpr fun r hr => apart r (List.mem_range.mp hr)
  have ready : recoverRefusal (st count.toNat) total.toNat count.toNat = none := by
    rw [recoverRefusal_eq_none_iff, held.params, held.out]
    exact ⟨irr, columns, fun k hk => by rw [held.slots k hk]; rfl, idents ▸ distinct, identsApart, sizeOk, outLen⟩
  refine ⟨_, execRecover_next held.created (countLegal_of_range low high) ready, rfl, fun i hi b hb => ?_⟩
  have elem : b / 2 < 2688 := by
    have := sliceLen_le low sizeOk
    have : b < sliceLen total.toNat count.toNat := hb.trans_le (min_le_left _ _)
    omega
  have decoded : (st count.toNat).ers.blockElement p count.toNat i (b / 2) = d i (b / 2) := by
    refine blockElement_of_chunks (d := (d · (b / 2))) irr high columns (idents ▸ distinct) identsApart
      (fun r hr => ?_) hi
    rw [held.symbol hr elem, held.slots r hr]
    exact chunks r hr _ elem
  rw [← decoded, show p = (st count.toNat).params from held.params.symm]
  exact recoverNext_read (held.out ▸ outWf) hi (held.out ▸ outLen) hb

end Sys2Proof.Machine
end

section
/-! SUPPORT. The peak meter (rule R346): the level of a block, the lit cells, PEAK after a PROCESS. -/

namespace Sys2Proof.Machine

/-! ### The level -/

theorem peakOf_append_singleton (frames : List Frame) (fr : Frame) :
    peakOf (frames ++ [fr]) = max (peakOf frames) (max fr.left.toInt.natAbs fr.right.toInt.natAbs) := by
  simp [peakOf]

theorem natAbs_le_peakOf {frames : List Frame} {fr : Frame} (mem : fr ∈ frames) :
    fr.left.toInt.natAbs ≤ peakOf frames ∧ fr.right.toInt.natAbs ≤ peakOf frames := by
  induction frames using List.reverseRecOn with
  | nil => cases mem
  | append_singleton frames last ih =>
    rw [peakOf_append_singleton]
    rcases List.mem_append.mp mem with earlier | same
    · obtain ⟨left, right⟩ := ih earlier
      exact ⟨le_max_of_le_left left, le_max_of_le_left right⟩
    · rw [List.mem_singleton.mp same]
      omega

/-- The level is 0 or the magnitude of some sample. -/
theorem peakOf_attained (frames : List Frame) : peakOf frames = 0 ∨
    ∃ fr ∈ frames, fr.left.toInt.natAbs = peakOf frames ∨ fr.right.toInt.natAbs = peakOf frames := by
  induction frames using List.reverseRecOn with
  | nil => exact .inl rfl
  | append_singleton frames last ih =>
    rw [peakOf_append_singleton]
    rcases le_total (max last.left.toInt.natAbs last.right.toInt.natAbs) (peakOf frames) with earlier | loudest
    · rw [max_eq_left earlier]
      exact ih.imp_right fun ⟨fr, mem, sample⟩ => ⟨fr, List.mem_append_left _ mem, sample⟩
    · rw [max_eq_right loudest]
      exact .inr ⟨last, by simp, by omega⟩

/-! ### The lit cells -/

theorem peakCells_zero (st : PeakStyle) : peakCells st 0 = 0 := by
  rw [peakCells, List.filter_eq_nil_iff.mpr fun t _ => by simp, List.length_nil]

theorem peakCells_full (st : PeakStyle) : peakCells st 32768 = 16 := by
  rw [peakCells, List.filter_eq_self.mpr fun t _ => by simp, Vector.length_toList]

theorem peakCells_mono (st : PeakStyle) {a b : Nat} (h : a ≤ b) : peakCells st a ≤ peakCells st b :=
  (List.monotone_filter_right _ fun t lit => by
    simp only [decide_eq_true_eq] at lit ⊢
    exact lit.trans h).length_le

/-! ### PEAK after a PROCESS -/

section
variable {f : Functions} {ch : Channel} {s t : State} {turn : Turn}

/-- The turn of the burst machine leaves the earlier level for the meter. -/
theorem processTurn_peakPrev (machine : processTurn f ch s = .ok turn) : turn.dec.peakPrev = s.dec.peakPrev :=
  (machineStep_sameStream machine).peakPrev.trans
    (sampleLoop_spec f s.params ch (processFrames ch s) s.dec).1.peakPrev

theorem peakImage_getElem? (st : PeakStyle) (shown : Nat) {i : Nat} (h : i < 16) :
    (peakImage st shown)[i]? = some (if i < peakCells st shown then peakColour st i else pixelOff) := by
  rw [peakImage, List.getElem?_map, List.getElem?_range h, Option.map_some]

/-- A cell of PEAK after PROCESS (rule R346). -/
theorem processNext_peak_read (hw : s.bufs.peak.wf = true)
    (hl : ∀ need ∈ processLengths s.dec.rate ch, s.bufs.lenOf need.1 = need.2) {i : Nat} (hi : i < 16) :
    (processNext f ch s turn).bufs.peak.read i =
      if i < peakCells s.params.peak (max (peakOf (processFrames ch s)) turn.dec.peakPrev) then
        peakColour s.params.peak i
      else pixelOff :=
  buffer_read_written hw ((peakImage_length ..).trans (processLengths_pixels hl).2.2.2.symm) (peakImage_getElem? _ _ hi)

end

/-- Settles O53: the level is a running maximum, the lit cells are the thresholds reached, and PROCESS draws them for
the larger of the level and the one it finds in `peak_prev`. -/
theorem peakMeterShowsTheLargestSample : Obligations.PeakMeterShowsTheLargestSample := by
  refine ⟨fun frames => ⟨peakOf_le frames, fun _ => natAbs_le_peakOf, peakOf_attained frames⟩,
    fun st => ⟨peakCells_zero st, peakCells_full st, fun _ _ => peakCells_mono st⟩, fun f ch s t wf hx => ?_⟩
  obtain ⟨-, fits, turn, machine, rfl⟩ := processWith_next_iff.mp hx
  refine ⟨rfl, fun i hi => ?_⟩
  rw [processNext_peak_read wf fits hi, processTurn_peakPrev machine]
  rfl

end Sys2Proof.Machine
end

section
/-! SUPPORT. The constellation (rule R345): the pixel a carrier lights, CONS after a data symbol. -/

namespace Sys2Proof.Machine

/-! ### The pixel of a carrier -/

theorem consCoord_lt {v : F32} {k : Nat} (h : consCoord v = some k) : k < 64 := by
  unfold consCoord at h
  split at h
  · cases h
  · simp only [Option.ite_none_right_eq_some, Option.some.injEq] at h
    omega

/-- A finite coordinate q has the place `(q + 2)·16` taken down, where that is on the picture. -/
theorem consCoord_eq_some_iff {v : F32} {q : Rat} (value : F32.toRat? v = some q) {k : Nat} (hk : k < 64) :
    consCoord v = some k ↔ (k : Rat) ≤ (q + 2) * 16 ∧ (q + 2) * 16 < k + 1 := by
  have floor : ((q + 2) * 16).floor = k ↔ (k : Rat) ≤ (q + 2) * 16 ∧ (q + 2) * 16 < k + 1 :=
    Int.floor_eq_iff (a := (q + 2) * 16) (z := k)
  rw [← floor]
  unfold consCoord
  rw [value]
  simp only [Option.ite_none_right_eq_some, Option.some.injEq]
  omega

/-- A carrier that is not erased lights the pixel of its two coordinates. -/
theorem consIndex_eq_some_iff {z : Cplx} (kept : Cplx.isZero z = false) {x y : Nat} (hx : x < 64) :
    consIndex z = some (y * 64 + x) ↔ consCoord z.re = some x ∧ consCoord z.im = some y := by
  rw [consIndex, kept, if_neg Bool.false_ne_true]
  cases column : consCoord z.re with
  | none => simp
  | some x' =>
    cases row : consCoord z.im with
    | none => simp
    | some y' =>
      have := consCoord_lt column
      simp only [Option.some.injEq]
      omega

/-! ### CONS after a data symbol -/

/-- In a burst, under `RESYNC = ignore` or without a detection, PROCESS leaves the points of the data symbol it
demodulated, and the pictures are drawn of them (rules R374, R377). -/
theorem processTurn_points {f : Functions} {ch : Channel} {s : State} {turn : Turn} (live : s.dec.Live)
    (burst : s.dec.fsm = .synced)
    (undisturbed : s.params.resync = .ignore ∨
      (s.dec.sampleLoop f s.params ch (processFrames ch s)).detPending = false)
    (machine : processTurn f ch s = .ok turn) :
    turn.points = some turn.dec.consPts ∧ turn.dec.consPts.length = s.dec.mode.carrierCount := by
  obtain ⟨turn', machine', symbol⟩ := processTurn_in_burst f ch live burst undisturbed
  cases machine.symm.trans machine'
  have loop := (sampleLoop_spec f s.params ch (processFrames ch s) s.dec).1
  obtain ⟨xs, -, points, ⟨-, unit, -⟩ | ⟨-, unit, -⟩⟩ := dataSymbol_cases symbol <;>
    exact ⟨unit ▸ points, unit ▸ (demodulate_consPts_length ..).trans (congrArg _ loop.mode)⟩

/-- Settles O54: the pixel of a carrier is that of its two coordinates, and a PROCESS that demodulates a data symbol
lights the pixels of its points and no others. -/
theorem carrierLightsItsConstellationPixel : Obligations.CarrierLightsItsConstellationPixel := by
  refine ⟨fun z erased => if_pos erased, fun z re im kept hre him x y hx hy => ?_,
    fun f ch s t live burst undisturbed wf hx => ?_⟩
  · rw [consIndex_eq_some_iff kept hx, consCoord_eq_some_iff hre hx, consCoord_eq_some_iff him hy, and_assoc]
  · obtain ⟨-, fits, turn, machine, rfl⟩ := processWith_next_iff.mp hx
    obtain ⟨points, length⟩ := processTurn_points live burst undisturbed machine
    refine ⟨length, fun i hi => ?_⟩
    have lit_iff : (turn.dec.consPts.filterMap consIndex).contains i = true ↔
        ∃ z ∈ turn.dec.consPts, consIndex z = some i := List.contains_iff_mem.trans List.mem_filterMap
    rw [processNext_cons_read wf fits points hi]
    refine ⟨fun lit => if_pos (lit_iff.mpr lit), fun dark => if_neg fun on => ?_⟩
    obtain ⟨z, mem, here⟩ := lit_iff.mp on
    exact dark z mem here

end Sys2Proof.Machine
end

section
/-! SUPPORT. The spectrum pictures (rules R342 to R344): the roundings of the palette and of the rows, the polyline,
SPEC and SGRAM after a PROCESS. -/

namespace Sys2Proof.Machine

/-! ### The palette (rule R344) -/

/-- The largest byte whose square is at most m is the integer square root of m, where that is a byte. -/
theorem sqrtByte_eq_sqrt {m : Nat} (h : Nat.sqrt m < 256) : sqrtByte m = Nat.sqrt m := by
  have below : ∀ b : Nat, decide (b * b ≤ m) = decide (b < Nat.sqrt m + 1) := fun b => by
    rw [decide_eq_decide, ← Nat.le_sqrt, Nat.lt_succ_iff]
  rw [sqrtByte, List.filter_congr fun b _ => below b, ← List.Ico.zero_bot, List.Ico.filter_lt, List.Ico.length]
  omega

/-- The integer square root of a value taken down is its square root taken down. -/
theorem sqrt_floor_near {q : Rat} (nonneg : 0 ≤ q) :
    ((Nat.sqrt ⌊q⌋₊ * Nat.sqrt ⌊q⌋₊ : Nat) : Rat) ≤ q ∧ q < (Nat.sqrt ⌊q⌋₊ + 1 : Nat) ^ 2 := by
  constructor
  · exact (Nat.le_floor_iff nonneg).mp (Nat.sqrt_le _)
  · rw [← Nat.cast_pow]
    exact (Nat.floor_lt nonneg).mp (Nat.sqrt_lt'.mp (Nat.lt_succ_self _))

theorem clamp01_range (c : Rat) : 0 ≤ clamp01 c ∧ clamp01 c ≤ 1 :=
  ⟨le_max_left _ _, max_le zero_le_one (min_le_left _ _)⟩

/-- The byte of `q(c^0.5)` is the root taken down or, where the root is no whole number, perhaps the next. -/
theorem gammaByte_cases (up : Bool) {c : Rat} (nonneg : 0 ≤ c) (atMost : c ≤ 1) :
    ∃ b : Nat, ((b * b : Nat) : Rat) ≤ 65025 * c ∧ 65025 * c < (b + 1 : Nat) ^ 2 ∧
      ((gammaByte up c).toNat = b ∨ (gammaByte up c).toNat = b + 1 ∧ ((b * b : Nat) : Rat) ≠ 65025 * c) := by
  have nonneg' : 0 ≤ 65025 * c := by linarith
  obtain ⟨low, high⟩ := sqrt_floor_near nonneg'
  have square : Nat.sqrt ⌊65025 * c⌋₊ * Nat.sqrt ⌊65025 * c⌋₊ ≤ 255 * 255 := by
    exact_mod_cast low.trans (show 65025 * c ≤ 255 * 255 by linarith)
  have byte : Nat.sqrt ⌊65025 * c⌋₊ ≤ 255 := Nat.mul_self_le_mul_self_iff.mp square
  refine ⟨_, low, high, ?_⟩
  have floor : (65025 * c).floor.toNat = ⌊65025 * c⌋₊ := Int.floor_toNat (65025 * c)
  rw [gammaByte, floor, sqrtByte_eq_sqrt (by omega)]
  generalize Nat.sqrt ⌊65025 * c⌋₊ = b at low byte
  have toNat_byte (k : Nat) (h : k < 256) : (BitVec.ofNat 8 k).toNat = k :=
    (BitVec.toNat_ofNat k 8).trans (Nat.mod_eq_of_lt h)
  split
  next whole => exact .inl (toNat_byte b (by omega))
  next inexact =>
    have notLast : b ≠ 255 := by
      rintro rfl
      exact inexact (le_antisymm low (by push_cast; linarith))
    cases up with
    | false => exact .inl (toNat_byte b (by omega))
    | true => exact .inr ⟨toNat_byte (b + 1) (by omega), inexact⟩

/-- The byte of `q(c^0.5)` is next to `255·√c`, whatever the rounding. -/
theorem byteNearRoot_gammaByte (up : Bool) (c : Rat) : byteNearRoot (gammaByte up (clamp01 c)).toNat c := by
  obtain ⟨nonneg, atMost⟩ := clamp01_range c
  obtain ⟨b, low, high, byte⟩ := gammaByte_cases up nonneg atMost
  show _ - 1 < 255 * √(clamp01 c : ℝ) ∧ 255 * √(clamp01 c : ℝ) < _ + 1
  have root : (255 * √(clamp01 c : ℝ)) ^ 2 = ((65025 * clamp01 c : Rat) : ℝ) := by
    rw [mul_pow, Real.sq_sqrt (by exact_mod_cast nonneg)]
    push_cast
    norm_num
  have root_nonneg : 0 ≤ 255 * √(clamp01 c : ℝ) := by positivity
  generalize 255 * √(clamp01 c : ℝ) = r at root root_nonneg
  have below : (b : ℝ) ≤ r := by
    rw [← sq_le_sq₀ (by positivity) root_nonneg, root, sq]
    exact_mod_cast low
  have above : r < b + 1 := by
    rw [← sq_lt_sq₀ root_nonneg (by positivity), root]
    exact_mod_cast high
  rcases byte with e | ⟨e, inexact⟩ <;> rw [e]
  · constructor <;> linarith
  · have strict : (b : ℝ) < r := below.lt_of_ne fun same => inexact <| by
      rw [← same, sq] at root
      exact_mod_cast root
    push_cast
    constructor <;> linarith

/-- The four bytes of a pixel, alpha the highest. -/
theorem pixel_bytes (a r g b : Byte) :
    ((a ++ r : BitVec 16) ++ (g ++ b : BitVec 16) : BitVec 32).extractLsb' 24 8 = a ∧
      ((a ++ r : BitVec 16) ++ (g ++ b : BitVec 16) : BitVec 32).extractLsb' 16 8 = r ∧
      ((a ++ r : BitVec 16) ++ (g ++ b : BitVec 16) : BitVec 32).extractLsb' 8 8 = g ∧
      ((a ++ r : BitVec 16) ++ (g ++ b : BitVec 16) : BitVec 32).extractLsb' 0 8 = b := by
  refine ⟨?_, ?_, ?_, ?_⟩
  · exact (BitVec.extractLsb'_append_eq_of_le (by decide)).trans BitVec.extractLsb'_append_eq_left
  · exact (BitVec.extractLsb'_append_eq_of_le (by decide)).trans BitVec.extractLsb'_append_eq_right
  · rw [BitVec.extractLsb'_append_eq_of_add_le (by decide), BitVec.extractLsb'_append_eq_left]
  · rw [BitVec.extractLsb'_append_eq_of_add_le (by decide), BitVec.extractLsb'_append_eq_right]

/-- Each byte of a palette pixel is next to its root (rule R344). -/
theorem paletteNear_palette (up : Nat → Bool) (v : Rat) : paletteNear (palette up v) v := by
  obtain ⟨alpha, red, green, blue⟩ := pixel_bytes (gammaByte (up 0) (clamp01 (4 * v)))
    (gammaByte (up 1) (clamp01 (4 * v - 2))) (gammaByte (up 2) (clamp01 (1 - |4 * v - 2|)))
    (gammaByte (up 3) (clamp01 (2 - 4 * v)))
  rw [paletteNear, palette, ← abs_eq_max_neg, neg_sub, alpha, red, green, blue]
  exact ⟨byteNearRoot_gammaByte .., byteNearRoot_gammaByte .., byteNearRoot_gammaByte .., byteNearRoot_gammaByte ..⟩

/-! ### The rows of the polyline (rule R342) -/

/-- A level of 0 to -96 dB has a row of the picture, next to `63·(-level/96)`. -/
theorem specRow_near (f : Functions) (n : Nat) {level : Nat → Rat} {x : Nat} (low : -96 ≤ level x)
    (high : level x ≤ 0) :
    specRow f n level x < 64 ∧ (specRow f n level x : Rat) - 1 < 63 * (-(level x)) / 96 ∧
      63 * (-(level x)) / 96 < (specRow f n level x : Rat) + 1 := by
  obtain ⟨above, below⟩ := roundOpen_near (f.drawBit n (8 * x)) (q := 63 * (-(level x)) / 96) (by linarith)
  refine ⟨?_, above, below⟩
  have : (specRow f n level x : Rat) < 64 := by
    unfold specRow
    linarith
  exact_mod_cast this

theorem onPolyline_iff (row split : Nat → Nat) (x y : Nat) : onPolyline row split x y = true ↔
    y = row x ∨
      (x + 1 < 640 ∧ rowBetween y (row x) (row (x + 1)) = true ∧ rowDistance y (row x) ≤ split x) ∨
      (0 < x ∧ rowBetween y (row (x - 1)) (row x) = true ∧ split (x - 1) < rowDistance y (row (x - 1))) := by
  simp only [onPolyline, onLeftPart, onRightPart, Bool.or_eq_true, Bool.and_eq_true, decide_eq_true_eq, or_assoc]

/-! ### SPEC and SGRAM after a PROCESS -/

/-- With a data symbol the pictures show its spectrum (rules R342, R374). -/
theorem shownSpectrum_of_points (f : Functions) (d : Dec) {points : Option (List Cplx)} (h : points.isSome = true) :
    d.shownSpectrum f points = d.fdom := by
  obtain ⟨pts, rfl⟩ := Option.isSome_iff_exists.mp h
  rfl

/-- Settles O52: the old rows of SGRAM move down by one, and its row 0 and SPEC are drawn of the same levels. -/
theorem spectrogramScrollsOneRow : Obligations.SpectrogramScrollsOneRow := by
  intro f ch s t specWf sgramWf hx
  obtain ⟨-, fits, turn, machine, rfl⟩ := processWith_next_iff.mp hx
  have spec (k : Nat) := processNext_spec_read (f := f) (turn := turn) specWf fits (k := k)
  have sgram (k : Nat) := processNext_sgram_read (f := f) (turn := turn) sgramWf fits (k := k)
  have range := columnLevel_range f s.draws (turn.dec.shownSpectrum f turn.points)
  refine ⟨fun y x low high column => ?_, turn, turn.dec.shownSpectrum f turn.points,
    zeroDb f s.draws (turn.dec.shownSpectrum f turn.points),
    columnLevel f s.draws (turn.dec.shownSpectrum f turn.points), _, _, machine, fun symbol => ?_, fun noSymbol => ?_,
    by exact_mod_cast zeroDb_pos .., fun x _ => ⟨(range x).1, (range x).2, fun re im => columnLevel_finite⟩,
    fun x column => ?_, fun x _ => specRow_near f s.draws (range x).1 (range x).2, segmentSplit_lt f s.draws _,
    fun x y column inside => ?_⟩
  · rw [sgram _ (by omega), if_neg (by omega), show y * 640 + x - 640 = (y - 1) * 640 + x by omega]
  · exact shownSpectrum_of_points f turn.dec symbol
  · rw [noSymbol]
    rfl
  · rw [sgram x (by omega), if_pos column]
    exact paletteNear_palette ..
  · rw [spec _ (by omega), show (y * 640 + x) % 640 = x by omega, show (y * 640 + x) / 640 = y by omega]
    exact ⟨fun lit => if_pos ((onPolyline_iff ..).mpr lit), fun dark => if_neg (dark ∘ (onPolyline_iff ..).mp)⟩

end Sys2Proof.Machine
end

section
/-! SUPPORT. A detection the burst machine acts on (47_control_ops.md section 3): the turn each result of the preamble
decoder leads to outside a burst (rules R200 to R202, R373, R376), and a detection in a burst (rule R377). -/

namespace Sys2Proof.Machine

section
variable {f : Functions} {p : Params} {d : Dec} {tdom : List Cplx} {mode : BitVec 8} {call : BitVec 47}

/-! ### The result of the preamble decoder -/

/-- A preamble is accepted only in a mode of the mode table (rules R40, R197). -/
theorem modeTable_of_okay {lSym : Nat} (okay : preambleResult f p lSym tdom = .okay mode call) :
    ∃ row, modeTable mode.toNat = some row :=
  modeTable_of_valid (classify_okay okay).1

/-- The turn of an accepted preamble loads the row of its mode (rules R200, R373). -/
theorem settle_okay {row : ModeRegs} (inTable : modeTable mode.toNat = some row) (spectrum : List Cplx)
    (rejected : Fsm) : d.settle (.okay mode call) spectrum rejected =
      { dec := (d.cachePreamble (.okay mode call)).sync row spectrum, status := .sync, points := none } := by
  rw [Dec.settle, inTable, Option.getD_some]

/-- The latched reference is the spectrum at the carriers of the mode (rules R223, R224). -/
theorem carrierValues_getElem? (lSym : Nat) {row : ModeRegs} (spectrum : List Cplx) {k : Nat}
    (hk : k < row.carrierCount) : (carrierValues lSym row spectrum)[k]? =
      some (spectrum.getD (binOf lSym (row.carrierOffset + (k : Int))) Cplx.zero) := by
  rw [carrierValues, List.getElem?_map, List.getElem?_range hk, Option.map_some]

/-! ### A detection outside a burst (rules R372, R373, R376) -/

/-- With the metadata symbol held the preamble decoder settles the unit, its scratch arrays written and the detection
consumed (rules R26, R35). -/
theorem machineStep_of_held_detection (outside : d.fsm ≠ .synced) (pending : d.detPending = true)
    (held : d.metadataSamples f = some tdom) :
    ∃ fdom, d.machineStep f p =
      .ok (Dec.settle { d with tdom := tdom, fdom := fdom, detPending := false }
        (preambleResult f p (Rate.lSym d.rate) tdom) (transform f.num tdom) d.fsm) :=
  ⟨_, (machineStep_of_detection outside pending).trans (detection_of_samples held d.fsm)⟩

/-- Settles O43: the turn is the SYNC transition into the row of the accepted mode, which exists. -/
theorem syncLoadsTheBurstRegisters : Obligations.SyncLoadsTheBurstRegisters := by
  intro f p d tdom mode call outside pending held okay
  obtain ⟨row, inTable⟩ := modeTable_of_okay okay
  obtain ⟨fdom, turn⟩ := machineStep_of_held_detection (p := p) outside pending held
  rw [okay, settle_okay inTable] at turn
  exact ⟨row, _, inTable, turn, rfl, rfl, carrierValues_length .., fun k => carrierValues_getElem? _ _, rfl⟩

/-- Settles O44: a rejected preamble sets FSM to the value it had; of its registers NOPE caches the mode and a call in
range. -/
theorem rejectedPreamblesKeepTheBurstState : Obligations.RejectedPreamblesKeepTheBurstState := by
  intro f p d tdom outside pending held
  obtain ⟨fdom, turn⟩ := machineStep_of_held_detection (p := p) outside pending held
  refine ⟨fdom, fun fail => ?_, fun mode call nope => ?_⟩
  · rw [turn, fail]
    rfl
  · have range : (if callValid call then call else 0) =
        if 1 ≤ call.toNat ∧ call.toNat < 129961739795077 then call else 0 := if_congr callValid_iff rfl rfl
    rw [turn, nope, ← range]
    rfl

/-! ### A detection in a burst (rule R377) -/

/-- What a detection leads to does not depend on the state of FSM it comes in. -/
theorem detection_of_fsm (state rejected : Fsm) :
    Dec.detection f p { d with fsm := state } rejected = d.detection f p rejected := by
  have samples : Dec.metadataSamples f { d with fsm := state } = d.metadataSamples f := by
    rw [Dec.metadataSamples, Dec.metadataSamples,
      window_congr (d := { d with fsm := state }) (e := d) rfl rfl rfl]
  rw [Dec.detection, samples, Dec.detection]
  cases d.metadataSamples f with
  | none => rfl
  | some tdom =>
    dsimp only
    cases preambleResult f p (Rate.lSym d.rate) tdom with
    | okay | nope | fail => rfl

/-- Under `RESYNC = restart` a detection in a burst is acted on, and FSM is IDLE where its preamble is rejected. -/
theorem machineStep_of_restart (burst : d.fsm = .synced) (pending : d.detPending = true)
    (restart : p.resync = .restart) : d.machineStep f p = d.detection f p .idle := by
  simp only [Dec.machineStep, burst, pending, restart]

/-- Settles O46: under `ignore` both turns are one data symbol, under `restart` both are one detection, and its
turn follows the result of the preamble decoder. -/
theorem detectionInABurstFollowsResync : Obligations.DetectionInABurstFollowsResync := by
  intro f p d burst pending
  refine ⟨fun ignore => ?_, fun restart => ?_, fun tdom restart held => ?_⟩
  · exact (machineStep_of_burst burst ignore).trans
      (machineStep_of_burst (d := { d with detPending := false }) burst ignore).symm
  · calc d.machineStep f p
      _ = d.detection f p .idle := machineStep_of_restart burst pending restart
      _ = Dec.detection f p { d with fsm := .idle } .idle := (detection_of_fsm .idle .idle).symm
      _ = Dec.machineStep f p { d with fsm := .idle } :=
        (machineStep_of_detection (d := { d with fsm := .idle }) nofun pending).symm
  · have turn := detection_of_samples (p := p) held .idle
    obtain ⟨-, code, -, points, consumed⟩ := detection_sameStream turn
    refine ⟨_, (machineStep_of_restart burst pending restart).trans turn, consumed, points, code, ?_⟩
    cases preambleResult f p (Rate.lSym d.rate) tdom with
    | okay | nope | fail => exact ⟨rfl, rfl, rfl⟩

end

end Sys2Proof.Machine
end

section
/-! SUPPORT. Construction and destruction of the two units and RATE (47_control_ops.md sections 1 and 2). -/

namespace Sys2Proof.Machine

/-! ### The decoder unit (rules R360 to R362) -/

section
variable {s : State} {sel : BitVec 3} {r : Rate}

/-- The selectors below 5 select the five rates in order (rules R6, R103). -/
theorem exists_rate_of_sel (legal : sel.toNat < 5) :
    ∃ r, Rate.ofSel sel = some r ∧ [8000, 16000, 32000, 44100, 48000][sel.toNat]? = some (Rate.hz r) := by
  have rate := (ofSel_eq_getElem? sel).trans (List.getElem?_eq_getElem legal)
  refine ⟨_, rate, ?_⟩
  rw [← Option.map_some, ← rate, ofSel_eq_getElem?, ← List.getElem?_map]
  rfl

theorem execCreate_of_no_alloc (sel : BitVec 3) (refused : s.allocOk = false) :
    execCreate sel s = .next (s.decRespond (rspBool false)) := by
  unfold execCreate
  rw [refused]
  cases s.dec.alive <;> cases Rate.ofSel sel <;> rfl

theorem execCreate_of_rate (absent : s.dec.alive = .absent) (rate : Rate.ofSel sel = some r)
    (alloc : s.allocOk = true) :
    execCreate sel s = .next { s with dec := Dec.created Config.functions s.params r } := by
  unfold execCreate
  rw [absent, rate, alloc]

theorem created_hasCreateValues (f : Functions) (p : Params) (r : Rate) :
    (Dec.created f p r).HasCreateValues f r := by
  constructor <;> rfl

/-- A CREATE that meets none of the three failures constructs the unit at the rate selected (rules R47, R360). -/
theorem execCreate_constructs (absent : s.dec.alive = .absent) (legal : sel.toNat < 5) (alloc : s.allocOk = true) :
    ∃ t r, execCreate sel s = .next t ∧ t = { s with dec := t.dec } ∧
      [8000, 16000, 32000, 44100, 48000][sel.toNat]? = some (Rate.hz r) ∧
      t.dec.HasCreateValues Config.functions r := by
  obtain ⟨r, rate, hz⟩ := exists_rate_of_sel legal
  exact ⟨_, r, execCreate_of_rate absent rate alloc, rfl, hz, created_hasCreateValues ..⟩

/-- DESTROY leaves the ABSENT unit (rule R361). -/
theorem execDestroy_created (created : s.dec.alive = .created) :
    execDestroy s = .next { s with dec := Dec.absent 0 } := whenDecCreated_created created _

end

/-- Settles O12: one lemma for each of the three failures, and the construction. -/
theorem createConstructsOrFails : Obligations.CreateConstructsOrFails := by
  refine ⟨rfl, fun sel s fails => ?_, fun sel s => execCreate_constructs⟩
  rcases fails with created | noRate | refused
  · exact execCreate_created sel created
  · exact execCreate_of_no_rate noRate s
  · exact execCreate_of_no_alloc sel refused

/-- Settles O13: the unit DESTROY leaves is `Dec.absent 0`, on which CREATE constructs. -/
theorem destroyLeavesNothing : Obligations.DestroyLeavesNothing := by
  refine ⟨rfl, Dec.absent 0, rfl, rfl, fun s created => ⟨execDestroy_created created, fun sel legal alloc => ?_⟩⟩
  obtain ⟨t, r, next, -, hz, values⟩ :=
    execCreate_constructs (s := { s with dec := Dec.absent 0 }) (sel := sel) rfl legal alloc
  exact ⟨t, r, next, hz, values⟩

/-- Settles O15: on a CREATED unit RATE answers the rate register. -/
theorem rateAnswersTheRateUsed : Obligations.RateAnswersTheRateUsed :=
  ⟨rfl, rfl, fun _ => execRate_created⟩

/-! ### The erasure unit (rules R367, R368) -/

section
variable {s : State}

/-- ECREATE fails on a CREATED unit (rule R367). -/
theorem execEcreate_created (created : s.ers.alive = .created) :
    execEcreate s = .next (s.ersRespond (rspBool false)) := by
  unfold execEcreate
  rw [created]

theorem execEcreate_absent (absent : s.ers.alive = .absent) : execEcreate s = .next { s with ers := Ers.created } := by
  unfold execEcreate
  rw [absent]

/-- No slot of a new chunk store has been written (rules R42, R43). -/
theorem created_slot {k : Nat} (hk : k < 12) : Ers.created.slot k = Slot.blank :=
  List.getD_replicate Slot.blank hk

/-- EDESTROY leaves the ABSENT unit (rule R368). -/
theorem execEdestroy_created (created : s.ers.alive = .created) :
    execEdestroy s = .next { s with ers := Ers.absent 0 } := whenErsCreated_created created _

end

/-- Settles O17: the failure, and the construction with a blank chunk store. -/
theorem ecreateConstructsOrFails : Obligations.EcreateConstructsOrFails :=
  ⟨rfl, fun _ => execEcreate_created, fun _ absent =>
    ⟨_, execEcreate_absent absent, rfl, rfl, rfl, fun _ hk => congrArg Slot.valid (created_slot hk)⟩⟩

/-- Settles O18: the unit EDESTROY leaves is `Ers.absent 0`. -/
theorem edestroyLeavesNothing : Obligations.EdestroyLeavesNothing :=
  ⟨rfl, Ers.absent 0, rfl, rfl, fun _ => execEdestroy_created⟩

end Sys2Proof.Machine
end

section
/-! SUPPORT. Operations on an ABSENT unit (60_exceptions.md, rule R406). -/

namespace Sys2Proof.Machine

section
variable {s : State}

/-- PROCESS with a legal channel on an ABSENT unit answers HEAP. -/
theorem execProcess_absent {sel : BitVec 3} (legal : sel.toNat ≤ 4) (absent : s.dec.alive = .absent) :
    execProcess sel s = .next (s.decRespond (rspStatus .heap)) := by
  obtain ⟨ch, channel⟩ := Option.isSome_iff_exists.mp ((channelOfSel_isSome_iff sel).mpr legal)
  rw [execProcess, channel, absent]

/-- The four other operations of the decoder unit that answer `ERR` are guarded by `whenDecCreated`. -/
theorem exec_guarded_absent (absent : s.dec.alive = .absent) {i : Instr}
    (guarded : i ∈ [Instr.destroy, .rate, .cached, .fetch]) : exec i s = .next (s.decRespond rspErr) := by
  simp only [List.mem_cons, List.not_mem_nil, or_false] at guarded
  rcases guarded with rfl | rfl | rfl | rfl <;> exact whenDecCreated_absent absent _

/-- RECOVER with a legal count on an ABSENT unit answers `ERR`. -/
theorem execRecover_absent {count : BitVec 4} (total : BitVec 20) (legal : countLegal count = true)
    (absent : s.ers.alive = .absent) : execRecover count total s = .next (s.ersRespond rspErr) := by
  rw [execRecover, if_pos legal, whenErsCreated_absent absent]

end

/-- Settles O16: PROCESS has its own answer on an ABSENT unit; every other operation here is guarded by
`whenDecCreated` or `whenErsCreated`, RECOVER once its count is legal. -/
theorem absentUnitsAnswerHeapOrErr : Obligations.AbsentUnitsAnswerHeapOrErr := by
  refine ⟨fun s absent => ⟨fun ch legal => ?process, fun i guarded => ?guarded⟩,
    fun s absent => ⟨?edestroy, fun idx ident => ?chunk, fun count total low high => ?recover⟩⟩
  case process => exact execProcess_absent legal absent
  case guarded => exact exec_guarded_absent absent guarded
  case edestroy => exact whenErsCreated_absent absent _
  case chunk => exact whenErsCreated_absent absent _
  case recover => exact execRecover_absent total (countLegal_of_range low high) absent

end Sys2Proof.Machine
end

section
/-! SUPPORT. Command words, and HOST's moves one at a time (rules R70, R80, R440). -/

namespace Sys2Proof.Machine

/-- Settles O1: `decode` undoes `encode` in each of the four formats. -/
theorem decodeOfEncodeIsTheOperation : Obligations.DecodeOfEncodeIsTheOperation := decode_encode

/-- Settles O2: the fields and `zero` bits of a format make up the whole word; the places of the fields are those
`encode` is written with. -/
theorem encodeOfDecodeIsTheWord : Obligations.EncodeOfDecodeIsTheWord :=
  ⟨fun _ _ => encode_decode, fun _ => ⟨rfl, rfl⟩, fun _ _ => rfl, fun _ _ => rfl⟩

/-- Settles O4: each word is the word of its operation. -/
theorem writtenOutWordsDecode : Obligations.WrittenOutWordsDecode := by
  simp only [Obligations.WrittenOutWordsDecode, decode_eq_ok_iff]
  decide

/-! ### One move of HOST (rules R70, R80) -/

section
variable {s : State} {rest : List HostMove}

theorem step_of_no_move (idle : s.host = []) : step s = .next s := by rw [step, idle]

theorem step_command {u : UnitId} {w : Word} (next : s.host = .command u w :: rest) :
    step s = runCommand u w { s with host := rest } := by rw [step, next]

/-- A move that is no command sets what it names. -/
theorem step_hostSets {m : HostMove} (next : s.host = m :: rest) (noCommand : ∀ u w, m ≠ .command u w) :
    step s = .next (State.hostSets { s with host := rest } m) := by
  unfold step
  rw [next]
  cases m with
  | command u w => exact absurd rfl (noCommand u w)
  | bindAudio | bindPixels | bindBytes | bindOverlaps | setAllocOk | powerOn => rfl

theorem runCommand_of_not_accepted {u : UnitId} {w : Word} (other : ∀ i, decode w = .ok i → i.unit ≠ u) (s : State) :
    runCommand u w s = .next (s.err u) := by
  have refused : acceptedBy u w = none := by
    refine Option.eq_none_iff_forall_ne_some.mpr fun i accepted => ?_
    obtain ⟨word, unit⟩ := acceptedBy_eq_some_iff.mp accepted
    exact other i word unit
  rw [runCommand, refused]

/-- A bound space holds the list it is bound to (rule R70). -/
theorem buffer_ofList_holds {w : Nat} (vs : List (BitVec w)) : (Buffer.ofList vs).Holds vs :=
  ⟨rfl, fun _ hk => (buffer_ofList_read hk).trans (List.getD_eq_getElem vs 0 hk).symm⟩

theorem step_powerOn (next : s.host = .powerOn :: rest) :
    step s = .next { s with host := rest, dec := State.reset.dec, ers := State.reset.ers } :=
  step_hostSets next nofun

end

/-- Settles O6: by HOST's next move; a bound buffer is `Buffer.ofList` of its content. -/
theorem stepRunsTheDecodedOperation : Obligations.StepRunsTheDecodedOperation := by
  refine ⟨fun s u w i rest next word unit => ?_, fun s u w rest next other => ?_,
    fun s vs rest next => ?_, fun s vs rest next => ?_, fun s vs rest next => ?_, fun s vs rest next => ?_,
    fun s vs rest next => ?_, fun s vs rest next => ?_, fun s vs rest next => ?_, fun s vs rest next => ?_,
    fun s vs rest next => ?_, fun s pairs rest next => step_hostSets next nofun,
    fun s ok rest next => step_hostSets next nofun, fun s rest => step_powerOn, fun s => step_of_no_move⟩
  · rw [step_command next, runCommand_eq_exec word unit]
  · rw [step_command next, runCommand_of_not_accepted other]
  all_goals exact ⟨_, buffer_ofList_holds vs, step_hostSets next nofun⟩

/-- Settles O7: both are the ABSENT units with `RSP = 0`. -/
theorem powerOnLeavesBothUnitsAbsent : Obligations.PowerOnLeavesBothUnitsAbsent :=
  ⟨rfl, rfl, rfl, rfl, fun _ _ => step_powerOn⟩

end Sys2Proof.Machine
end

section
/-! SUPPORT. Everything an operation can do where it completes: one case for each answer the rules of
47_control_ops.md, 45_erasure_crs.md and 60_exceptions.md give it. -/

namespace Sys2Proof.Machine

/-- The operation completes in state s and leaves the given state. -/
inductive Completes (s : State) : Instr → State → Prop
  /-- an illegal selector (rule R120) -/
  | illegal {i : Instr} (illformed : i.wf = false) : Completes s i (s.err i.unit)
  /-- an operation that cannot act on an ABSENT decoder unit (rule R406) -/
  | decAbsent {i : Instr} (absent : s.dec.alive = .absent) (guarded : i ∈ [Instr.destroy, .rate, .cached, .fetch]) :
    Completes s i (s.decRespond rspErr)
  /-- an operation that cannot act on an ABSENT erasure unit (rule R406) -/
  | ersAbsent {i : Instr} (absent : s.ers.alive = .absent) (unit : i.unit = .ers) (guarded : i ≠ .ecreate) :
    Completes s i (s.ersRespond rspErr)
  /-- CREATE in one of its three failures (rule R360) -/
  | createFails {sel : BitVec 3} (fails : s.dec.alive = .created ∨ 5 ≤ sel.toNat ∨ s.allocOk = false) :
    Completes s (.create sel) (s.decRespond 0)
  /-- CREATE (rule R360) -/
  | creates {sel : BitVec 3} {r : Rate} (absent : s.dec.alive = .absent) (rate : Rate.ofSel sel = some r)
    (alloc : s.allocOk = true) :
    Completes s (.create sel) { s with dec := Dec.created Config.functions s.params r }
  /-- DESTROY (rule R361) -/
  | destroys (created : s.dec.alive = .created) : Completes s .destroy { s with dec := Dec.absent 0 }
  /-- RATE (rule R362) -/
  | rates (created : s.dec.alive = .created) : Completes s .rate (s.decRespond (rspRate s.dec.rate))
  /-- PROCESS on an ABSENT unit (rule R406) -/
  | heap {sel : BitVec 3} (absent : s.dec.alive = .absent) (legal : sel.toNat ≤ 4) :
    Completes s (.process sel) (s.decRespond (rspStatus .heap))
  /-- PROCESS (rule R363) -/
  | processes {sel : BitVec 3} {ch : Channel} {t : State} (created : s.dec.alive = .created)
    (legal : Channel.ofSel sel = some ch) (work : processWith Config.functions ch s = .next t) :
    Completes s (.process sel) t
  /-- CACHED (rule R365) -/
  | reportsCached (created : s.dec.alive = .created) (any : s.dec.cachedAny = true) (len : s.bufs.call9.len = 9) :
    Completes s .cached (cachedNext Config.functions s)
  /-- FETCH (rule R366) -/
  | fetches (created : s.dec.alive = .created) (ready : s.dec.payloadReady = true)
    (table : frozenOk (Params.frozen s.params s.dec.mode.frozenSel) s.dec.mode.mesgBits = true)
    (len : s.bufs.payload.len = payloadLen) : Completes s .fetch (fetchNext Config.functions s)
  /-- ECREATE on a CREATED unit (rule R367) -/
  | ecreateFails (created : s.ers.alive = .created) : Completes s .ecreate (s.ersRespond 0)
  /-- ECREATE (rule R367) -/
  | ecreates (absent : s.ers.alive = .absent) : Completes s .ecreate { s with ers := Ers.created }
  /-- EDESTROY (rule R368) -/
  | edestroys (created : s.ers.alive = .created) : Completes s .edestroy { s with ers := Ers.absent 0 }
  /-- CHUNK with a slot number above 11 (rule R305) -/
  | chunkFails {idx : BitVec 4} {ident : BitVec 16} (created : s.ers.alive = .created) (noSlot : 12 ≤ idx.toNat) :
    Completes s (.chunk idx ident) (s.ersRespond 0)
  /-- CHUNK (rule R305) -/
  | chunks {idx : BitVec 4} {ident : BitVec 16} (created : s.ers.alive = .created) (slot : idx.toNat < 12)
    (long : s.params.chunkHdr + chunkLen ≤ s.bufs.chunkin.len) :
    Completes s (.chunk idx ident) (chunkNext s idx.toNat ident slot)
  /-- RECOVER (rule R310) -/
  | recovers {count : BitVec 4} {total : BitVec 20} (created : s.ers.alive = .created)
    (legal : countLegal count = true) (ready : recoverRefusal s total.toNat count.toNat = none) :
    Completes s (.recover count total) (recoverNext s total.toNat count.toNat)

section
variable {s t : State}

theorem execCached_completes (created : s.dec.alive = .created) (any : s.dec.cachedAny = true)
    (len : s.bufs.call9.len = 9) : execCached s = .next (cachedNext Config.functions s) := by
  rw [execCached, whenDecCreated_created created, if_pos any]
  exact whenLengthsFit_of_fits (List.forall_mem_singleton.mpr len)

theorem exec_ers_absent {i : Instr} (absent : s.ers.alive = .absent) (unit : i.unit = .ers) (guarded : i ≠ .ecreate) :
    exec i s = .next (s.ersRespond rspErr) := by
  cases i with
  | ecreate => exact absurd rfl guarded
  | edestroy | chunk => exact whenErsCreated_absent absent _
  | recover count total =>
    cases legal : countLegal count with
    | true => exact execRecover_absent total legal absent
    | false => exact exec_of_illformed (i := .recover count total) legal s
  | create | destroy | rate | process | cached | fetch => cases unit

theorem exec_of_completes {i : Instr} (h : Completes s i t) : exec i s = .next t := by
  cases h with
  | illegal illformed => exact exec_of_illformed illformed s
  | decAbsent absent guarded => exact exec_guarded_absent absent guarded
  | ersAbsent absent unit guarded => exact exec_ers_absent absent unit guarded
  | createFails fails =>
    rcases fails with created | noRate | refused
    · exact execCreate_created _ created
    · exact execCreate_of_no_rate noRate s
    · exact execCreate_of_no_alloc _ refused
  | creates absent rate alloc => exact execCreate_of_rate absent rate alloc
  | destroys created => exact execDestroy_created created
  | rates created => exact execRate_created created
  | heap absent legal => exact execProcess_absent legal absent
  | processes created legal work => exact (execProcess_created legal created).trans work
  | reportsCached created any len => exact execCached_completes created any len
  | fetches created ready table len => exact execFetch_completes created ready table len
  | ecreateFails created => exact execEcreate_created created
  | ecreates absent => exact execEcreate_absent absent
  | edestroys created => exact execEdestroy_created created
  | chunkFails created noSlot => exact execChunk_of_no_slot _ created noSlot
  | chunks created slot long => exact execChunk_of_long _ created slot long
  | recovers created legal ready => exact execRecover_next created legal ready

/-- Two results of one operation in one state are one. -/
theorem Completes.of_exec {i : Instr} {u : State} (h : Completes s i u) (hx : exec i s = .next t) :
    Completes s i t := by
  cases (exec_of_completes h).symm.trans hx
  exact h

theorem completes_create {sel : BitVec 3} : ∃ u, Completes s (.create sel) u := by
  by_cases fails : s.dec.alive = .created ∨ 5 ≤ sel.toNat ∨ s.allocOk = false
  · exact ⟨_, .createFails fails⟩
  · simp only [not_or, not_le, Bool.not_eq_false] at fails
    obtain ⟨alive, legal, alloc⟩ := fails
    obtain ⟨r, rate, -⟩ := exists_rate_of_sel legal
    cases absent : s.dec.alive with
    | absent => exact ⟨_, .creates absent rate alloc⟩
    | created => exact absurd absent alive

theorem completes_process {sel : BitVec 3} (hx : execProcess sel s = .next t) : Completes s (.process sel) t := by
  cases legal : Channel.ofSel sel with
  | none =>
    have illformed : (Instr.process sel).wf = false :=
      decide_eq_false (mt (channelOfSel_isSome_iff sel).mpr (by simp [legal]))
    exact (Completes.illegal illformed).of_exec hx
  | some ch =>
    cases alive : s.dec.alive with
    | absent => exact (Completes.heap alive ((channelOfSel_isSome_iff sel).mp (by simp [legal]))).of_exec hx
    | created => exact .processes alive legal ((execProcess_created legal alive).symm.trans hx)

theorem completes_chunk {idx : BitVec 4} {ident : BitVec 16} (created : s.ers.alive = .created)
    (hx : execChunk idx ident s = .next t) : Completes s (.chunk idx ident) t := by
  obtain slot | noSlot := Nat.lt_or_ge idx.toNat 12
  · obtain short | long := Nat.lt_or_ge s.bufs.chunkin.len (s.params.chunkHdr + chunkLen)
    · cases (execChunk_of_short ident created slot short).symm.trans hx
    · exact (Completes.chunks created slot long).of_exec hx
  · exact (Completes.chunkFails created noSlot).of_exec hx

theorem completes_recover {count : BitVec 4} {total : BitVec 20} (created : s.ers.alive = .created)
    (hx : execRecover count total s = .next t) : Completes s (.recover count total) t := by
  cases legal : countLegal count with
  | false => exact (Completes.illegal (i := .recover count total) legal).of_exec hx
  | true =>
    obtain ⟨ready, rfl⟩ := (execRecover_next_iff created legal).mp hx
    exact .recovers created legal ready

/-- The operations of a CREATED decoder unit that are guarded. -/
theorem completes_guarded {i : Instr} (created : s.dec.alive = .created)
    (guarded : i ∈ [Instr.destroy, .rate, .cached, .fetch]) (hx : exec i s = .next t) : Completes s i t := by
  simp only [List.mem_cons, List.not_mem_nil, or_false] at guarded
  rcases guarded with rfl | rfl | rfl | rfl
  · exact (Completes.destroys created).of_exec hx
  · exact (Completes.rates created).of_exec hx
  · obtain ⟨any, len, rfl⟩ := execCached_next created hx
    exact .reportsCached created any len
  · obtain ⟨ready, table, len, rfl⟩ := execFetch_next created hx
    exact .fetches created ready table len

/-- What an operation can do is exactly what `Completes` lists. -/
theorem exec_next_iff {i : Instr} : exec i s = .next t ↔ Completes s i t := by
  refine ⟨fun hx => ?_, exec_of_completes⟩
  cases i with
  | create =>
    obtain ⟨u, h⟩ := completes_create
    exact h.of_exec hx
  | process => exact completes_process hx
  | destroy | rate | cached | fetch =>
    cases alive : s.dec.alive with
    | absent => exact (Completes.decAbsent alive (by simp)).of_exec hx
    | created => exact completes_guarded alive (by simp) hx
  | ecreate =>
    cases alive : s.ers.alive with
    | absent => exact (Completes.ecreates alive).of_exec hx
    | created => exact (Completes.ecreateFails alive).of_exec hx
  | edestroy =>
    cases alive : s.ers.alive with
    | absent => exact Completes.of_exec (.ersAbsent alive rfl nofun) hx
    | created => exact (Completes.edestroys alive).of_exec hx
  | chunk =>
    cases alive : s.ers.alive with
    | absent => exact Completes.of_exec (.ersAbsent alive rfl nofun) hx
    | created => exact completes_chunk alive hx
  | recover =>
    cases alive : s.ers.alive with
    | absent => exact Completes.of_exec (.ersAbsent alive rfl nofun) hx
    | created => exact completes_recover alive hx

end

end Sys2Proof.Machine
end

section
/-! SUPPORT. What every step keeps: the parameters (log entry 4), and the invariant of the block (10_state.md,
41_burst_correlator.md section 3, 47_control_ops.md section 3). -/

namespace Sys2Proof.Machine

/-! ### Parameters and moves (log entries 1 and 4) -/

section
variable {s t : State}

@[simp] theorem err_params (s : State) (u : UnitId) : (s.err u).params = s.params := by cases u <;> rfl
@[simp] theorem err_host (s : State) (u : UnitId) : (s.err u).host = s.host := by cases u <;> rfl
@[simp] theorem err_bufs (s : State) (u : UnitId) : (s.err u).bufs = s.bufs := by cases u <;> rfl

theorem completes_params_host {i : Instr} (h : Completes s i t) : t.params = s.params ∧ t.host = s.host := by
  cases h with
  | processes _ _ work =>
    have around := processWith_sameAround work
    exact ⟨around.params, around.host⟩
  | fetches =>
    obtain ⟨params, host, -⟩ := fetchNext_rest Config.functions s
    exact ⟨params, host⟩
  | illegal => exact ⟨err_params .., err_host ..⟩
  | _ => exact ⟨rfl, rfl⟩

/-- What a command does: the operation it is accepted as, or the answer `ERR`. -/
theorem runCommand_next {u : UnitId} {w : Word} (hx : runCommand u w s = .next t) :
    (∃ i, Completes s i t) ∨ t = s.err u := by
  unfold runCommand at hx
  split at hx
  · exact .inl ⟨_, exec_next_iff.mp hx⟩
  · cases hx
    exact .inr rfl

/-- Everything a step can do: nothing, an operation, the answer `ERR`, or a move that is no command. -/
theorem step_next (hx : step s = .next t) : (s.host = [] ∧ t = s) ∨ ∃ m rest, s.host = m :: rest ∧
    ((∃ i, Completes { s with host := rest } i t) ∨ (∃ u, t = State.err { s with host := rest } u) ∨
      t = State.hostSets { s with host := rest } m) := by
  cases moves : s.host with
  | nil =>
    cases (step_of_no_move moves).symm.trans hx
    exact .inl ⟨rfl, rfl⟩
  | cons m rest =>
    refine .inr ⟨m, rest, rfl, ?_⟩
    by_cases command : ∃ u w, m = .command u w
    · obtain ⟨u, w, rfl⟩ := command
      obtain operation | err := runCommand_next ((step_command moves).symm.trans hx)
      · exact .inl operation
      · exact .inr (.inl ⟨u, err⟩)
    · have set := step_hostSets moves fun u w h => command ⟨u, w, h⟩
      cases set.symm.trans hx
      exact .inr (.inr rfl)

theorem hostSets_params_host (s : State) (m : HostMove) :
    (s.hostSets m).params = s.params ∧ (s.hostSets m).host = s.host := by
  cases m <;> exact ⟨rfl, rfl⟩

end

/-- Settles O11: no operation and no other move of HOST writes the parameters or the list of moves. -/
theorem stepTakesOneMoveAndKeepsParameters : Obligations.StepTakesOneMoveAndKeepsParameters := by
  intro s t hx
  obtain ⟨moves, rfl⟩ | ⟨m, rest, moves, ⟨i, h⟩ | ⟨u, rfl⟩ | rfl⟩ := step_next hx
  · rw [moves]
    exact ⟨rfl, rfl⟩
  · rw [moves]
    exact completes_params_host h
  · rw [moves]
    exact ⟨err_params .., err_host ..⟩
  · rw [moves]
    exact hostSets_params_host _ m

/-! ### A live unit in PROCESS -/

/-- What holds of a live unit between the sample loop and the turn of the burst machine: all but that no detection is
pending and that the ring of a burst holds the last symbol read. -/
structure Dec.Ready (d : Dec) : Prop where
  ring : d.ring.length = Rate.ringCap d.rate
  blocks : ∃ k, d.nW = Rate.ringCap d.rate + k * Rate.lExt d.rate
  hilbert : d.hilbert.length = Rate.hilbertLen d.rate
  code : d.code.length = codeLen
  call : d.cachedCall.toNat < callBound
  peak : d.peakPrev ≤ 32768
  ready : d.payloadReady = true → d.fsm = .done
  locked : d.fsm ≠ .idle → d.mode.IsRow ∧ d.cachedAny = true ∧ d.prev.length = d.mode.carrierCount
  counting : d.fsm = .synced → d.symbolNumber < d.mode.symbolCount
  complete : d.fsm = .done → d.symbolNumber = d.mode.symbolCount

section
variable {f : Functions} {p : Params} {d : Dec} {turn : Turn}

/-- A block of frames goes to the ring, and the burst's registers stay (rules R136, R363). -/
theorem sampleLoop_ready {ch : Channel} {frames : List Frame} (live : d.Live)
    (block : frames.length = Rate.lExt d.rate) : (d.sampleLoop f p ch frames).Ready := by
  obtain ⟨kept, count, ring, delay⟩ := sampleLoop_spec f p ch frames d
  obtain ⟨k, blocks⟩ := live.blocks
  refine ⟨?_, ⟨k + 1, ?_⟩, ?_, ?_, ?_, ?_, ?_, ?_, ?_, ?_⟩
  · rw [kept.rate, ring live.ring]
  · rw [count, kept.rate, block, blocks, Nat.succ_mul, Nat.add_assoc]
  · rw [kept.rate, delay live.hilbert]
  · rw [kept.code, live.code]
  · rw [kept.cachedCall]
    exact live.call
  · rw [kept.peakPrev]
    exact live.peak
  · rw [kept.payloadReady, kept.fsm]
    exact live.ready
  · rw [kept.fsm, kept.mode, kept.cachedAny, kept.prev]
    exact live.locked
  · rw [kept.fsm, kept.symbolNumber, kept.mode]
    exact fun burst => (live.running burst).1
  · rw [kept.fsm, kept.symbolNumber, kept.mode]
    exact live.complete

/-- Outside a burst a ready unit with no detection pending is live. -/
theorem Dec.Ready.live (h : d.Ready) (outside : d.fsm ≠ .synced) (quiet : d.detPending = false) : d.Live :=
  ⟨h.ring, h.blocks, h.hilbert, h.code, quiet, h.call, h.peak, h.ready, h.locked, fun burst => absurd burst outside,
    h.complete⟩

theorem Dec.Ready.consumed (h : d.Ready) : Dec.Ready { d with detPending := false } :=
  ⟨h.ring, h.blocks, h.hilbert, h.code, h.call, h.peak, h.ready, h.locked, h.counting, h.complete⟩

/-- A data symbol of a burst (rules R374, R375). -/
theorem dataSymbol_live (h : d.Ready) (burst : d.fsm = .synced) (quiet : d.detPending = false)
    (symbol : d.dataSymbol f p = .ok turn) : turn.dec.Live := by
  obtain ⟨xs, held, -, next⟩ := dataSymbol_cases symbol
  have window := (window_isSome_iff h.ring).mp (Option.isSome_of_eq_some held)
  obtain ⟨row, any, -⟩ := h.locked (by simp [burst])
  have code := (demodulate_code_length f p d xs).trans h.code
  have prev := demodulate_prev_length f p d xs
  obtain ⟨more, unit, -⟩ | ⟨last, unit, -⟩ := next <;> rw [unit]
  · refine ⟨h.ring, h.blocks, h.hilbert, code, quiet, h.call, h.peak, h.ready, fun _ => ⟨row, any, prev⟩,
      fun _ => ⟨more, ?_⟩, fun done => by cases burst.symm.trans done⟩
    exact_mod_cast window
  · exact ⟨h.ring, h.blocks, h.hilbert, code, quiet, h.call, h.peak, fun _ => rfl, fun _ => ⟨row, any, prev⟩, nofun,
      fun _ => Nat.le_antisymm (h.counting burst) last⟩

/-- What the cached registers become: a call that is valid or cleared, and `cached_any` is not cleared (rules R41,
R200 to R202). -/
theorem cachePreamble_dec {res : PreambleResult} (low : d.cachedCall.toNat < callBound)
    (accepted : ∀ mode call, res = .okay mode call → callValid call = true) :
    ∃ mode call any, d.cachePreamble res = { d with cachedMode := mode, cachedCall := call, cachedAny := any } ∧
      call.toNat < callBound ∧ (d.cachedAny = true → any = true) := by
  cases res with
  | okay mode call => exact ⟨mode, call, true, rfl, (callValid_iff.mp (accepted mode call rfl)).2, fun _ => rfl⟩
  | nope mode call =>
    refine ⟨mode, _, true, rfl, ?_, fun _ => rfl⟩
    split
    next valid => exact (callValid_iff.mp valid).2
    next => decide
  | fail => exact ⟨d.cachedMode, d.cachedCall, d.cachedAny, rfl, low, id⟩

/-- A rejected preamble leaves a live unit in the state FSM takes, which is DONE where it was DONE and else IDLE (rules
R376, R377). -/
theorem rejected_live (h : d.Ready) (quiet : d.detPending = false) {rejected : Fsm} (outside : rejected ≠ .synced)
    (done : rejected = .done ↔ d.fsm = .done) {res : PreambleResult}
    (notOkay : ∀ mode call, res ≠ .okay mode call) : Dec.Live { d.cachePreamble res with fsm := rejected } := by
  obtain ⟨mode, call, any, cached, valid, known⟩ := cachePreamble_dec h.call fun mode call okay =>
    absurd okay (notOkay mode call)
  have locked (busy : rejected ≠ .idle) : d.fsm ≠ .idle := by
    cases rejected with
    | idle => exact absurd rfl busy
    | synced => exact absurd rfl outside
    | done =>
      rw [done.mp rfl]
      exact nofun
  rw [cached]
  refine ⟨h.ring, h.blocks, h.hilbert, h.code, quiet, valid, h.peak, fun ready => done.mpr (h.ready ready),
    fun busy => ?_, fun burst => absurd burst outside, fun ended => h.complete (done.mp ended)⟩
  obtain ⟨row, any, prev⟩ := h.locked (locked busy)
  exact ⟨row, known any, prev⟩

/-- An accepted preamble whose metadata symbol the ring holds starts a burst (rule R373). -/
theorem sync_live (h : d.Ready) (quiet : d.detPending = false)
    (held : d.HoldsSymbol (d.symbolPosAbs + Rate.lExt d.rate)) {mode : BitVec 8} {call : BitVec 47} {row : ModeRegs}
    (inTable : modeTable mode.toNat = some row) (valid : callValid call = true) (spectrum : List Cplx) :
    Dec.Live ((d.cachePreamble (.okay mode call)).sync row spectrum) := by
  have symbols : 0 < row.symbolCount := Nat.lt_of_lt_of_le (by decide) (modeRow_facts inTable).2.1
  refine ⟨h.ring, h.blocks, h.hilbert, h.code, quiet, (callValid_iff.mp valid).2, h.peak, nofun,
    fun _ => ⟨⟨_, inTable⟩, rfl, carrierValues_length ..⟩, fun _ => ⟨symbols, ?_⟩, nofun⟩
  simpa [Dec.HoldsSymbol, Dec.cachePreamble] using held

/-- A detection of a ready unit (rules R372 to R376). -/
theorem detection_live (h : d.Ready) {rejected : Fsm} (outside : rejected ≠ .synced)
    (done : rejected = .done ↔ d.fsm = .done) (detection : d.detection f p rejected = .ok turn) :
    turn.dec.Live := by
  obtain ⟨xs, held, rfl⟩ := detection_cases detection
  have window := (window_isSome_iff h.ring).mp (Option.isSome_of_eq_some held)
  generalize derotate f.num d.cfoRad xs = tdom
  have consumed : (d.consumeDetection f tdom).Ready :=
    ⟨h.ring, h.blocks, h.hilbert, h.code, h.call, h.peak, h.ready, h.locked, h.counting, h.complete⟩
  cases result : preambleResult f p (Rate.lSym d.rate) tdom with
  | fail => exact rejected_live (res := .fail) consumed rfl outside done nofun
  | nope mode call => exact rejected_live (res := .nope mode call) consumed rfl outside done nofun
  | okay mode call =>
    obtain ⟨row, inTable⟩ := modeTable_of_okay result
    rw [settle_okay inTable]
    exact sync_live consumed rfl window inTable (classify_okay result).2 _

/-- The turn of the burst machine makes a unit live again (rules R371, R377). -/
theorem machineStep_live (h : d.Ready) (machine : d.machineStep f p = .ok turn) : turn.dec.Live := by
  rcases machineStep_cases machine with ⟨outside, quiet, rfl⟩ | ⟨outside, -, detection⟩ | ⟨burst, -, symbol⟩ |
    ⟨burst, -, -, detection⟩
  · exact h.live outside quiet
  · exact detection_live h outside Iff.rfl detection
  · exact dataSymbol_live h.consumed burst rfl symbol
  · exact detection_live h (by decide) (by simp [burst]) detection

/-- The answer in RSP and a new peak level keep a unit live. -/
theorem Dec.Live.answered (h : d.Live) {peak : Nat} (low : peak ≤ 32768) (rsp : Word) :
    Dec.Live { d with peakPrev := peak, rsp := rsp } :=
  ⟨h.ring, h.blocks, h.hilbert, h.code, h.pending, h.call, low, h.ready, h.locked, h.running, h.complete⟩

end

/-- A PROCESS that completes leaves a live unit live. -/
theorem processWith_live {f : Functions} {ch : Channel} {s t : State} (live : s.dec.Live)
    (work : processWith f ch s = .next t) : t.dec.Live := by
  obtain ⟨-, -, turn, machine, rfl⟩ := processWith_next_iff.mp work
  exact (machineStep_live (sampleLoop_ready live (framesOf_length ..)) machine).answered (peakOf_le _) _

/-! ### The other operations -/

section
variable {s t : State}

/-- A new unit is live (rules R47, R360). -/
theorem created_live (f : Functions) (p : Params) (r : Rate) : (Dec.created f p r).Live :=
  ⟨List.length_replicate, ⟨0, by rw [Nat.zero_mul]; rfl⟩, List.length_replicate, List.length_replicate, rfl,
    (by decide : (0 : Nat) < callBound), Nat.zero_le _, nofun, fun busy => absurd rfl busy, nofun, nofun⟩

/-- A decoder unit's invariant, by its lifecycle. -/
theorem decInv_iff {d : Dec} : d.Inv ↔ d = Dec.absent d.rsp ∨ d.alive = .created ∧ d.Live := by
  cases alive : d.alive with
  | absent => simp [Dec.Inv, alive]
  | created =>
    have notAbsent : d ≠ Dec.absent d.rsp := fun h => by cases alive.symm.trans (congrArg Dec.alive h)
    simp [Dec.Inv, alive, notAbsent]

theorem decInv_of_created {d : Dec} (created : d.alive = .created) : d.Inv ↔ d.Live := by
  rw [Dec.Inv, created]

/-- The answer in RSP is no part of a decoder unit's invariant. -/
theorem decInv_respond {d : Dec} (h : d.Inv) (rsp : Word) : Dec.Inv { d with rsp := rsp } := by
  obtain absent | ⟨created, live⟩ := decInv_iff.mp h
  · rw [absent]
    rfl
  · exact decInv_iff.mpr (.inr ⟨created, live.answered live.peak rsp⟩)

theorem cachedNext_live {f : Functions} (live : s.dec.Live) : (cachedNext f s).dec.Live :=
  ⟨live.ring, live.blocks, live.hilbert, live.code, live.pending, live.call, live.peak, live.ready, live.locked,
    live.running, live.complete⟩

/-- FETCH leaves a code vector as long as the frozen table (rule R366). -/
theorem fetchNext_live {f : Functions} (live : s.dec.Live)
    (table : frozenOk (Params.frozen s.params s.dec.mode.frozenSel) s.dec.mode.mesgBits = true) :
    (fetchNext f s).dec.Live := by
  obtain ⟨rsp, unit⟩ := fetchNext_dec f s
  have code : (s.dec.lengthened f s.params).length = codeLen := by
    rw [Dec.lengthened, lengthen_length, (frozenOk_iff.mp table).1]
  rw [unit]
  exact ⟨live.ring, live.blocks, live.hilbert, code, live.pending, live.call, live.peak, nofun, live.locked,
    live.running, live.complete⟩

/-- An erasure unit's invariant, by its lifecycle. -/
theorem ersInv_iff {e : Ers} : e.Inv ↔
    e = Ers.absent e.rsp ∨ e.alive = .created ∧ ∀ s ∈ e.slots.toList, Cells.wfIn 0 chunkLen s.data = true := by
  cases alive : e.alive with
  | absent => simp [Ers.Inv, alive]
  | created =>
    have notAbsent : e ≠ Ers.absent e.rsp := fun h => by cases alive.symm.trans (congrArg Ers.alive h)
    simp [Ers.Inv, alive, notAbsent]

theorem ersInv_of_created {e : Ers} (created : e.alive = .created) :
    e.Inv ↔ ∀ s ∈ e.slots.toList, Cells.wfIn 0 chunkLen s.data = true := by
  rw [Ers.Inv, created]

/-- The answer in RSP is no part of an erasure unit's invariant. -/
theorem ersInv_respond {e : Ers} (h : e.Inv) (rsp : Word) : Ers.Inv { e with rsp := rsp } := by
  obtain absent | stored := ersInv_iff.mp h
  · rw [absent]
    rfl
  · exact ersInv_iff.mpr (.inr stored)

theorem created_ersInv : Ers.created.Inv := by
  rw [ersInv_of_created rfl]
  intro slot mem
  rw [List.eq_of_mem_replicate mem]
  rfl

/-- CHUNK stores a canonical copy of 5376 bytes (rules R42, R305). -/
theorem chunkNext_ersInv {idx : Nat} {ident : BitVec 16} (slot : idx < 12) (created : s.ers.alive = .created)
    (bufs : s.bufs.wf = true) (h : s.ers.Inv) : (chunkNext s idx ident slot).ers.Inv := by
  have copy : Cells.wfIn 0 chunkLen (chunkSlot s ident).data = true := by
    obtain ⟨-, -, -, -, -, -, -, chunkin, -⟩ := buffers_wf_iff.mp bufs
    have copied := cells_slice_wf (start := s.params.chunkHdr) (n := chunkLen) chunkin
    rwa [Nat.zero_sub] at copied
  refine (ersInv_of_created (e := (chunkNext s idx ident slot).ers) created).mpr fun sl mem => ?_
  have slots : (chunkNext s idx ident slot).ers.slots.toList = s.ers.slots.toList.set idx (chunkSlot s ident) :=
    Vector.toList_set slot
  obtain old | rfl := List.mem_or_eq_of_mem_set (slots ▸ mem)
  · exact (ersInv_of_created created).mp h sl old
  · exact copy

/-- RECOVER keeps the data of every slot (rule R318). -/
theorem recoverNext_ersInv {total count : Nat} (created : s.ers.alive = .created) (h : s.ers.Inv) :
    (recoverNext s total count).ers.Inv := by
  refine (ersInv_of_created (e := (recoverNext s total count).ers) created).mpr fun sl mem => ?_
  obtain ⟨old, isOld, rfl⟩ := List.mem_map.mp (Vector.toList_map .. ▸ mem)
  exact (ersInv_of_created created).mp h old isOld

/-! ### Every operation (10_state.md) -/

/-- What an operation leaves of the decoder unit. -/
theorem completes_decInv {i : Instr} (dec : s.dec.Inv) (h : Completes s i t) : t.dec.Inv := by
  cases h with
  | illegal =>
    cases i.unit with
    | dec => exact decInv_respond dec _
    | ers => exact dec
  | decAbsent | createFails | rates | heap => exact decInv_respond dec _
  | creates => exact decInv_iff.mpr (.inr ⟨rfl, created_live ..⟩)
  | destroys => exact decInv_iff.mpr (.inl rfl)
  | processes created _ work =>
    exact decInv_iff.mpr (.inr ⟨(processWith_sameAround work).alive.trans created,
      processWith_live ((decInv_of_created created).mp dec) work⟩)
  | reportsCached created =>
    exact decInv_iff.mpr (.inr ⟨created, cachedNext_live ((decInv_of_created created).mp dec)⟩)
  | fetches created _ table =>
    have alive : (fetchNext Config.functions s).dec.alive = .created := by
      obtain ⟨rsp, unit⟩ := fetchNext_dec Config.functions s
      rw [unit]
      exact created
    exact decInv_iff.mpr (.inr ⟨alive, fetchNext_live ((decInv_of_created created).mp dec) table⟩)
  | ersAbsent | ecreateFails | ecreates | edestroys | chunkFails | chunks | recovers => exact dec

/-- What an operation leaves of the erasure unit. -/
theorem completes_ersInv {i : Instr} (bufs : s.bufs.wf = true) (ers : s.ers.Inv) (h : Completes s i t) :
    t.ers.Inv := by
  cases h with
  | illegal =>
    cases i.unit with
    | dec => exact ers
    | ers => exact ersInv_respond ers _
  | ersAbsent | ecreateFails | chunkFails => exact ersInv_respond ers _
  | ecreates => exact created_ersInv
  | edestroys => exact ersInv_iff.mpr (.inl rfl)
  | chunks created slot => exact chunkNext_ersInv slot created bufs ers
  | recovers created => exact recoverNext_ersInv created ers
  | processes _ _ work =>
    rw [(processWith_sameAround work).ers]
    exact ers
  | fetches =>
    obtain ⟨-, -, -, -, same, -⟩ := fetchNext_rest Config.functions s
    rw [same]
    exact ers
  | decAbsent | createFails | creates | destroys | rates | heap | reportsCached => exact ers

/-- Every operation writes canonical elements, and only to buffers long enough. -/
theorem completes_bufs_wf {i : Instr} (bufs : s.bufs.wf = true) (h : Completes s i t) : t.bufs.wf = true := by
  have wf := buffers_wf_iff.mp bufs
  obtain ⟨audio, spec, sgram, cons, peak, call9, payload, chunkin, out⟩ := wf
  cases h with
  | illegal =>
    rw [err_bufs]
    exact bufs
  | processes _ _ work =>
    obtain ⟨-, fits, turn, -, rfl⟩ := processWith_next_iff.mp work
    exact drawBuffers_wf bufs fits
  | reportsCached _ _ len =>
    have text : (base37Text s.dec.cachedCall.toNat).length = 9 := length_base37Digits _ 9
    exact buffers_wf_iff.mpr ⟨audio, spec, sgram, cons, peak, buffer_writeFrom_wf call9 (by omega), payload, chunkin,
      out⟩
  | fetches _ _ _ len =>
    obtain ⟨bytes, length, written⟩ := fetchNext_payload Config.functions s
    rw [written]
    exact buffers_wf_iff.mpr ⟨audio, spec, sgram, cons, peak, call9, buffer_writeFrom_wf payload (by omega), chunkin,
      out⟩
  | @recovers count total _ legal ready =>
    obtain ⟨-, -, -, -, -, -, fits⟩ := recoverRefusal_eq_none_iff.mp ready
    have pos : 0 < count.toNat := by
      rw [countLegal, Bool.and_eq_true, decide_eq_true_eq] at legal
      exact legal.1
    have bytes := recovered_length s.params s.ers (total := total.toNat) pos
    exact buffers_wf_iff.mpr ⟨audio, spec, sgram, cons, peak, call9, payload, chunkin,
      buffer_writeFrom_wf out (by omega)⟩
  | decAbsent | ersAbsent | createFails | creates | destroys | rates | heap | ecreateFails | ecreates | edestroys
  | chunkFails | chunks => exact bufs

theorem err_inv (inv : s.Inv) (u : UnitId) : (s.err u).Inv := by
  cases u with
  | dec => exact ⟨inv.bufs, decInv_respond inv.dec _, inv.ers⟩
  | ers => exact ⟨inv.bufs, inv.dec, ersInv_respond inv.ers _⟩

theorem hostSets_inv (inv : s.Inv) (m : HostMove) : (s.hostSets m).Inv := by
  refine ⟨hostSets_wf inv.bufs m, ?_, ?_⟩
  · cases m with
    | powerOn => rfl
    | command | bindAudio | bindPixels | bindBytes | bindOverlaps | setAllocOk => exact inv.dec
  · cases m with
    | powerOn => rfl
    | command | bindAudio | bindPixels | bindBytes | bindOverlaps | setAllocOk => exact inv.ers

end

/-- Settles O8: no buffer is bound, and both units are ABSENT. -/
theorem resetMeetsTheInvariant : Obligations.ResetMeetsTheInvariant := ⟨rfl, rfl, rfl⟩

/-- Settles O9: by the move the step takes; an operation keeps the part of the invariant on the buffers and that on each
unit, a live unit through PROCESS by the sample loop and the turn of the burst machine. -/
theorem everyStepKeepsTheInvariant : Obligations.EveryStepKeepsTheInvariant := by
  intro s t inv hx
  obtain ⟨-, rfl⟩ | ⟨m, rest, -, next⟩ := step_next hx
  · exact inv
  have taken : State.Inv { s with host := rest } := ⟨inv.bufs, inv.dec, inv.ers⟩
  obtain ⟨i, h⟩ | ⟨u, rfl⟩ | rfl := next
  · exact ⟨completes_bufs_wf taken.bufs h, completes_decInv taken.dec h, completes_ersInv taken.bufs taken.ers h⟩
  · exact err_inv taken u
  · exact hostSets_inv taken m

end Sys2Proof.Machine
end

section
/-! SUPPORT. Statements about every operation: the answer's bit 31 (rules R110, R410), `payload_ready` (rule R36), what an
operation writes and reads (rules R83, R85), and operations done twice (rules R78, R443). -/

namespace Sys2Proof.Machine

/-! ### DESTROY, then CREATE (rule R443) -/

/-- What CREATE leaves of an ABSENT unit depends on the parameters and `alloc_ok` only. -/
theorem execCreate_absent_dec (sel : BitVec 3) (p : Params) (alloc : Bool) :
    ∃ d, ∀ s : State, s.dec = Dec.absent 0 → s.params = p → s.allocOk = alloc →
      ∃ u, execCreate sel s = .next u ∧ u.dec = d := by
  obtain noRate | legal := Nat.lt_or_ge 4 sel.toNat
  · refine ⟨Dec.absent 0, fun s unit _ _ => ⟨_, execCreate_of_no_rate noRate s, ?_⟩⟩
    rw [decRespond_dec, unit]
    rfl
  obtain ⟨r, rate, -⟩ := exists_rate_of_sel (Nat.lt_succ_of_le legal)
  cases alloc with
  | false =>
    refine ⟨Dec.absent 0, fun s unit _ refused => ⟨_, execCreate_of_no_alloc sel refused, ?_⟩⟩
    rw [decRespond_dec, unit]
    rfl
  | true =>
    refine ⟨Dec.created Config.functions p r, fun s unit same granted => ⟨_, execCreate_of_rate ?_ rate granted, ?_⟩⟩
    · rw [unit]
      rfl
    · rw [same]

/-- Settles O14: DESTROY and EDESTROY leave the units as they are after power-on. -/
theorem destroyThenCreateIsAFirstCreate : Obligations.DestroyThenCreateIsAFirstCreate := by
  refine ⟨fun s s0 sel created first params alloc => ?_, fun s s0 created first => ?_⟩
  · obtain ⟨d, create⟩ := execCreate_absent_dec sel s.params s.allocOk
    obtain ⟨u, next, unit⟩ := create { s with dec := Dec.absent 0 } rfl rfl rfl
    obtain ⟨u0, next0, unit0⟩ := create s0 first params alloc
    exact ⟨_, u, u0, execDestroy_created created, next, next0, unit.trans unit0.symm⟩
  · have absent : s0.ers.alive = .absent := congrArg Ers.alive first
    exact ⟨_, _, _, execEdestroy_created created, execEcreate_absent (s := { s with ers := Ers.absent 0 }) rfl,
      execEcreate_absent absent, rfl⟩

/-! ### Bit 31 of the answer (rules R110, R410) -/

section
variable {s t : State} {i : Instr}

theorem rsp_zero_bit31 : (0 : Word).getLsbD 31 = false := by decide

theorem rsp_one_bit31 : (1 : Word).getLsbD 31 = false := by decide

theorem rspStatus_bit31 (st : Status) : (rspStatus st).getLsbD 31 = false := by cases st <;> decide

theorem rspRate_bit31 (r : Rate) : (rspRate r).getLsbD 31 = false := by cases r <;> decide

/-- The answer of a FETCH that ran: 0, or a flip count that leaves bit 31 free. -/
theorem fetchNext_bit31 (f : Functions)
    (table : frozenOk (Params.frozen s.params s.dec.mode.frozenSel) s.dec.mode.mesgBits = true) :
    (fetchNext f s).dec.rsp.getLsbD 31 = false := by
  cases selected : selectLane s.params (lanesOf f (Params.frozen s.params s.dec.mode.frozenSel) s.dec.mode.mesgBits
      (s.dec.lengthened f s.params)) with
  | none =>
    rw [fetchNext_rsp_of_no_lane f selected]
    rfl
  | some lane =>
    rw [(fetchNext_of_lane f selected).1]
    exact (rspFetch_fields (flipCount_lengthened_lt f s.params.soft lane table)).2.1

/-- An answer is `ERR` where the operation could not be done, and else has bit 31 clear. -/
theorem completes_dec_err (h : Completes s i t) (unit : i.unit = .dec) :
    (t.dec.rsp = rspErr ∧ (i.wf = false ∨ (s.dec.alive = .absent ∧ i ∈ [Instr.destroy, .rate, .cached, .fetch]))) ∨
      (t.dec.rsp.getLsbD 31 = false ∧
        ¬ (i.wf = false ∨ (s.dec.alive = .absent ∧ i ∈ [Instr.destroy, .rate, .cached, .fetch]))) := by
  cases h with
  | illegal illformed =>
    rw [unit]
    exact .inl ⟨rfl, .inl illformed⟩
  | decAbsent absent guarded => exact .inl ⟨rfl, .inr ⟨absent, guarded⟩⟩
  | createFails => exact .inr ⟨rsp_zero_bit31, by simp [Instr.wf]⟩
  | creates => exact .inr ⟨rsp_one_bit31, by simp [Instr.wf]⟩
  | destroys created => exact .inr ⟨rsp_zero_bit31, by simp [Instr.wf, created]⟩
  | rates created => exact .inr ⟨rspRate_bit31 _, by simp [Instr.wf, created]⟩
  | heap _ legal => exact .inr ⟨rspStatus_bit31 .heap, by simp [Instr.wf, channelLegal, legal]⟩
  | processes _ channel work =>
    obtain ⟨-, -, turn, -, rfl⟩ := processWith_next_iff.mp work
    have legal := (channelOfSel_isSome_iff _).mp (Option.isSome_of_eq_some channel)
    exact .inr ⟨rspStatus_bit31 _, by simp [Instr.wf, channelLegal, legal]⟩
  | reportsCached created => exact .inr ⟨rsp_zero_bit31, by simp [Instr.wf, created]⟩
  | fetches created _ table => exact .inr ⟨fetchNext_bit31 _ table, by simp [Instr.wf, created]⟩
  | ecreateFails | ecreates | edestroys | chunkFails | chunks | recovers => cases unit
  | ersAbsent _ other => cases unit.symm.trans other

theorem completes_ers_err (h : Completes s i t) (unit : i.unit = .ers) :
    (t.ers.rsp = rspErr ∧ (i.wf = false ∨ (s.ers.alive = .absent ∧ i ≠ .ecreate))) ∨
      (t.ers.rsp.getLsbD 31 = false ∧ ¬ (i.wf = false ∨ (s.ers.alive = .absent ∧ i ≠ .ecreate))) := by
  cases h with
  | illegal illformed =>
    rw [unit]
    exact .inl ⟨rfl, .inl illformed⟩
  | ersAbsent absent _ guarded => exact .inl ⟨rfl, .inr ⟨absent, guarded⟩⟩
  | ecreateFails => exact .inr ⟨rsp_zero_bit31, by simp [Instr.wf]⟩
  | ecreates => exact .inr ⟨rsp_one_bit31, by simp [Instr.wf]⟩
  | edestroys created | chunkFails created => exact .inr ⟨rsp_zero_bit31, by simp [Instr.wf, created]⟩
  | chunks created => exact .inr ⟨rsp_one_bit31, by simp [Instr.wf, created]⟩
  | recovers created legal => exact .inr ⟨rsp_zero_bit31, by simp [Instr.wf, created, legal]⟩
  | createFails | creates | destroys | rates | heap | processes | reportsCached | fetches => cases unit
  | decAbsent _ guarded =>
    simp only [List.mem_cons, List.not_mem_nil, or_false] at guarded
    rcases guarded with rfl | rfl | rfl | rfl <;> cases unit

/-- Bit 31 tells `ERR` from every other answer. -/
theorem err_bit_iff {rsp : Word} {refused : Prop}
    (h : (rsp = rspErr ∧ refused) ∨ (rsp.getLsbD 31 = false ∧ ¬ refused)) :
    (rsp.getLsbD 31 = true ↔ refused) ∧ (rsp.getLsbD 31 = true → rsp = 0x80000000#32) := by
  obtain ⟨rfl, because⟩ | ⟨clear, done⟩ := h
  · exact ⟨iff_of_true (by decide) because, fun _ => rfl⟩
  · rw [clear]
    exact ⟨iff_of_false nofun done, nofun⟩

end

/-- Settles O27: by the answer of each operation. -/
theorem errBitMeansIllegalOrAbsent : Obligations.ErrBitMeansIllegalOrAbsent := fun _ _ _ hx =>
  ⟨fun unit => err_bit_iff (completes_dec_err (exec_next_iff.mp hx) unit),
    fun unit => err_bit_iff (completes_ers_err (exec_next_iff.mp hx) unit)⟩

/-! ### `payload_ready` (rule R36) -/

/-- What a turn of the burst machine does to `payload_ready`: nothing, or it is set by DONE or cleared by SYNC. -/
theorem machineStep_payloadReady {f : Functions} {p : Params} {d : Dec} {turn : Turn}
    (machine : d.machineStep f p = .ok turn) :
    turn.dec.payloadReady = d.payloadReady ∨
      (d.fsm = .synced ∧ turn.dec.payloadReady = true ∧ turn.dec.fsm = .done ∧ turn.status = .done) ∨
      (turn.dec.payloadReady = false ∧ turn.dec.fsm = .synced ∧ turn.status = .sync) := by
  have settled {rejected : Fsm} (detection : d.detection f p rejected = .ok turn) :
      turn.dec.payloadReady = d.payloadReady ∨
        (turn.dec.payloadReady = false ∧ turn.dec.fsm = .synced ∧ turn.status = .sync) := by
    obtain ⟨xs, -, rfl⟩ := detection_cases detection
    cases preambleResult f p (Rate.lSym d.rate) (derotate f.num d.cfoRad xs) with
    | fail | nope => exact .inl rfl
    | okay => exact .inr ⟨rfl, rfl, rfl⟩
  rcases machineStep_cases machine with ⟨-, -, rfl⟩ | ⟨-, -, detection⟩ | ⟨burst, -, symbol⟩ | ⟨-, -, -, detection⟩
  · exact .inl rfl
  · exact (settled detection).imp_right .inr
  · obtain ⟨xs, -, -, ⟨-, unit, -⟩ | ⟨-, unit, status⟩⟩ := dataSymbol_cases symbol <;> rw [unit]
    · exact .inl rfl
    · exact .inr (.inl ⟨burst, rfl, rfl, status⟩)
  · exact (settled detection).imp_right .inr

theorem processWith_payloadReady {f : Functions} {ch : Channel} {s t : State} (work : processWith f ch s = .next t) :
    t.dec.payloadReady = s.dec.payloadReady ∨
      (s.dec.fsm = .synced ∧ t.dec.payloadReady = true ∧ t.dec.fsm = .done ∧ t.dec.rsp = 3) ∨
      (t.dec.payloadReady = false ∧ t.dec.fsm = .synced ∧ t.dec.rsp = 2) := by
  obtain ⟨-, -, turn, machine, rfl⟩ := processWith_next_iff.mp work
  obtain ⟨kept, -⟩ := sampleLoop_spec f s.params ch (processFrames ch s) s.dec
  rw [processNext_dec]
  rcases machineStep_payloadReady machine with same | ⟨burst, ready, fsm, status⟩ | ⟨ready, fsm, status⟩
  · exact .inl (same.trans kept.payloadReady)
  · exact .inr (.inl ⟨kept.fsm.symm.trans burst, ready, fsm, by rw [status]; rfl⟩)
  · exact .inr (.inr ⟨ready, fsm, by rw [status]; rfl⟩)

/-- What an operation other than PROCESS does to `payload_ready`. -/
theorem completes_payloadReady {s t : State} {i : Instr} (h : Completes s i t) (other : ∀ ch, i ≠ .process ch) :
    t.dec.payloadReady = s.dec.payloadReady ∨
      (t.dec.payloadReady = false ∧ (i = .fetch ∨ i = .destroy ∨ ∃ sel, i = .create sel)) := by
  cases h with
  | illegal => cases i.unit <;> exact .inl rfl
  | creates => exact .inr ⟨rfl, .inr (.inr ⟨_, rfl⟩)⟩
  | destroys => exact .inr ⟨rfl, .inr (.inl rfl)⟩
  | heap | processes => exact absurd rfl (other _)
  | fetches =>
    obtain ⟨rsp, unit⟩ := fetchNext_dec Config.functions s
    rw [unit]
    exact .inr ⟨rfl, .inl rfl⟩
  | decAbsent | ersAbsent | createFails | rates | reportsCached | ecreateFails | ecreates | edestroys | chunkFails
  | chunks | recovers => exact .inl rfl

/-- What a PROCESS does to `payload_ready`. -/
theorem completes_process_payloadReady {s t : State} {ch : BitVec 3} (h : Completes s (.process ch) t) :
    t.dec.payloadReady = s.dec.payloadReady ∨
      (s.dec.alive = .created ∧ s.dec.fsm = .synced ∧ t.dec.payloadReady = true ∧ t.dec.fsm = .done ∧ t.dec.rsp = 3) ∨
      (t.dec.payloadReady = false ∧ t.dec.fsm = .synced ∧ t.dec.rsp = 2) := by
  cases h with
  | illegal | heap => exact .inl rfl
  | processes created _ work =>
    exact (processWith_payloadReady work).imp_right (.imp_left fun done => ⟨created, done⟩)
  | decAbsent _ guarded => simp at guarded
  | ersAbsent _ unit => cases unit

/-- Settles O29: DONE sets it, SYNC, FETCH, CREATE and DESTROY clear it, and everything else leaves it. -/
theorem payloadReadyIsSetByDoneOnly : Obligations.PayloadReadyIsSetByDoneOnly := by
  refine ⟨fun i s t hx before after => ?_, fun i s t hx before after => ?_⟩
  all_goals
    have h := exec_next_iff.mp hx
    by_cases process : ∃ ch, i = .process ch
  · obtain ⟨ch, rfl⟩ := process
    rcases completes_process_payloadReady h with same | ⟨created, burst, -, done⟩ | ⟨cleared, -⟩
    · simp [before, after] at same
    · exact ⟨⟨ch, rfl⟩, created, burst, done⟩
    · simp [after] at cleared
  · rcases completes_payloadReady h fun ch e => process ⟨ch, e⟩ with same | ⟨cleared, -⟩
    · simp [before, after] at same
    · simp [after] at cleared
  · obtain ⟨ch, rfl⟩ := process
    rcases completes_process_payloadReady h with same | ⟨-, -, set, -⟩ | ⟨-, sync⟩
    · simp [before, after] at same
    · simp [after] at set
    · exact .inr (.inr (.inr ⟨⟨ch, rfl⟩, sync⟩))
  · rcases completes_payloadReady h fun ch e => process ⟨ch, e⟩ with same | ⟨-, clears⟩
    · simp [before, after] at same
    · exact clears.imp_right (.imp_right .inl)

end Sys2Proof.Machine
end

section
/-! SUPPORT. What an operation reads and writes (rules R83, R85), and operations done twice (rule R78). -/

namespace Sys2Proof.Machine

/-! ### The other unit and its buffers (rule R83) -/

/-- The state with another erasure unit and other buffers of the erasure unit. -/
def State.withErasureSide (s : State) (e : Ers) (chunkin out : Buffer 8) : State :=
  { s with ers := e, bufs := { s.bufs with chunkin := chunkin, out := out } }

/-- The state with another decoder unit and other buffers of the decoder unit. -/
def State.withDecoderSide (s : State) (d : Dec) (b : Buffers) : State :=
  { s with dec := d, bufs := { b with chunkin := s.bufs.chunkin, out := s.bufs.out } }

section
variable {s t : State} {i : Instr}

/-- PROCESS is handed no buffer of the erasure unit. -/
theorem processLengths_withErasureSide (s : State) (e : Ers) (chunkin out : Buffer 8) {r : Rate} {ch : Channel}
    (fits : ∀ need ∈ processLengths r ch, s.bufs.lenOf need.1 = need.2) :
    ∀ need ∈ processLengths r ch, (s.withErasureSide e chunkin out).bufs.lenOf need.1 = need.2 := by
  simp only [processLengths, List.forall_mem_cons] at fits ⊢
  obtain ⟨audio, spec, sgram, cons, peak, -⟩ := fits
  exact ⟨audio, spec, sgram, cons, peak, nofun⟩

theorem processWith_withErasureSide {f : Functions} {ch : Channel} (e : Ers) (chunkin out : Buffer 8)
    (work : processWith f ch s = .next t) :
    processWith f ch (s.withErasureSide e chunkin out) = .next (t.withErasureSide e chunkin out) := by
  obtain ⟨apart, fits, turn, machine, rfl⟩ := processWith_next_iff.mp work
  exact processWith_next_iff.mpr ⟨apart, processLengths_withErasureSide s e chunkin out fits, turn, machine, rfl⟩

/-- The state after a FETCH that wrote the given bytes; naming them keeps their 5380 elements folded. -/
def fetchedState (s : State) (draws : Nat) (bytes : List Byte) (code : List SoftBit) (rsp : Word) : State :=
  { s with
    draws := draws
    bufs := { s.bufs with payload := s.bufs.payload.writeFrom 0 bytes }
    dec := s.dec.fetched code rsp }

theorem fetchNext_eq (f : Functions) (s : State) : fetchNext f s =
    match selectLane s.params (lanesOf f (Params.frozen s.params s.dec.mode.frozenSel) s.dec.mode.mesgBits
      (s.dec.lengthened f s.params)) with
    | some lane => fetchedState s s.draws (payloadBytes s.params lane.message) (s.dec.lengthened f s.params)
        (rspFetch (flipCount s.params.soft (s.dec.lengthened f s.params) lane))
    | none => fetchedState s (s.draws + 1) (freePayload f s.draws) (s.dec.lengthened f s.params) 0 := by
  unfold fetchNext fetchedState
  rfl

theorem fetchedState_withErasureSide (s : State) (e : Ers) (chunkin out : Buffer 8) (draws : Nat) (bytes : List Byte)
    (code : List SoftBit) (rsp : Word) : fetchedState (s.withErasureSide e chunkin out) draws bytes code rsp =
      (fetchedState s draws bytes code rsp).withErasureSide e chunkin out := rfl

theorem fetchNext_withErasureSide (f : Functions) (s : State) (e : Ers) (chunkin out : Buffer 8) :
    fetchNext f (s.withErasureSide e chunkin out) = (fetchNext f s).withErasureSide e chunkin out := by
  have params : (s.withErasureSide e chunkin out).params = s.params := rfl
  have dec : (s.withErasureSide e chunkin out).dec = s.dec := rfl
  have draws : (s.withErasureSide e chunkin out).draws = s.draws := rfl
  rw [fetchNext_eq, fetchNext_eq, params, dec, draws]
  split <;> exact fetchedState_withErasureSide ..

/-- An operation of the decoder unit leaves the erasure unit's side. -/
theorem completes_dec_keeps (h : Completes s i t) (unit : i.unit = .dec) :
    t.ers = s.ers ∧ t.bufs.chunkin = s.bufs.chunkin ∧ t.bufs.out = s.bufs.out := by
  cases h with
  | illegal =>
    rw [unit]
    exact ⟨rfl, rfl, rfl⟩
  | processes _ _ work =>
    obtain ⟨-, -, turn, -, rfl⟩ := processWith_next_iff.mp work
    rw [processNext_bufs]
    exact ⟨rfl, drawPixels_chunkin .., drawPixels_out ..⟩
  | fetches =>
    obtain ⟨-, -, -, -, ers, bytes, bufs⟩ := fetchNext_rest Config.functions s
    rw [ers, bufs]
    exact ⟨rfl, rfl, rfl⟩
  | decAbsent | createFails | creates | destroys | rates | heap | reportsCached => exact ⟨rfl, rfl, rfl⟩
  | ecreateFails | ecreates | edestroys | chunkFails | chunks | recovers => cases unit
  | ersAbsent _ other => cases unit.symm.trans other

/-- An operation of the decoder unit does the same whatever the erasure unit's side holds. -/
theorem completes_withErasureSide (h : Completes s i t) (unit : i.unit = .dec) (e : Ers) (chunkin out : Buffer 8) :
    Completes (s.withErasureSide e chunkin out) i (t.withErasureSide e chunkin out) := by
  cases h with
  | illegal illformed =>
    have answer : (s.err i.unit).withErasureSide e chunkin out = (s.withErasureSide e chunkin out).err i.unit := by
      rw [unit]
      rfl
    exact answer ▸ .illegal illformed
  | decAbsent absent guarded => exact .decAbsent (s := s.withErasureSide e chunkin out) absent guarded
  | createFails fails => exact .createFails (s := s.withErasureSide e chunkin out) fails
  | creates absent rate alloc => exact .creates (s := s.withErasureSide e chunkin out) absent rate alloc
  | destroys created => exact .destroys (s := s.withErasureSide e chunkin out) created
  | rates created => exact .rates (s := s.withErasureSide e chunkin out) created
  | heap absent legal => exact .heap (s := s.withErasureSide e chunkin out) absent legal
  | processes created legal work => exact .processes created legal (processWith_withErasureSide e chunkin out work)
  | reportsCached created any len => exact .reportsCached (s := s.withErasureSide e chunkin out) created any len
  | fetches created ready table len =>
    rw [← fetchNext_withErasureSide]
    exact .fetches (s := s.withErasureSide e chunkin out) created ready table len
  | ecreateFails | ecreates | edestroys | chunkFails | chunks | recovers => cases unit
  | ersAbsent _ other => cases unit.symm.trans other

/-- An operation of the erasure unit leaves every buffer but OUT. -/
theorem completes_ers_keeps (h : Completes s i t) (unit : i.unit = .ers) :
    t.bufs = { s.bufs with out := t.bufs.out } := by
  cases h with
  | illegal =>
    rw [unit]
    rfl
  | ersAbsent | ecreateFails | ecreates | edestroys | chunkFails | chunks | recovers => rfl
  | createFails | creates | destroys | rates | heap | processes | reportsCached | fetches => cases unit
  | decAbsent _ guarded =>
    simp only [List.mem_cons, List.not_mem_nil, or_false] at guarded
    rcases guarded with rfl | rfl | rfl | rfl <;> cases unit

/-- An operation of the erasure unit does the same whatever the decoder unit's side holds. -/
theorem completes_withDecoderSide (h : Completes s i t) (unit : i.unit = .ers) (d : Dec) (b : Buffers) :
    Completes (s.withDecoderSide d b) i (t.withDecoderSide d b) := by
  cases h with
  | illegal illformed =>
    have answer : (s.err i.unit).withDecoderSide d b = (s.withDecoderSide d b).err i.unit := by
      rw [unit]
      rfl
    exact answer ▸ .illegal illformed
  | ersAbsent absent other guarded => exact .ersAbsent (s := s.withDecoderSide d b) absent other guarded
  | ecreateFails created => exact .ecreateFails (s := s.withDecoderSide d b) created
  | ecreates absent => exact .ecreates (s := s.withDecoderSide d b) absent
  | edestroys created => exact .edestroys (s := s.withDecoderSide d b) created
  | chunkFails created noSlot => exact .chunkFails (s := s.withDecoderSide d b) created noSlot
  | chunks created slot long => exact .chunks (s := s.withDecoderSide d b) created slot long
  | recovers created legal ready => exact .recovers (s := s.withDecoderSide d b) created legal ready
  | createFails | creates | destroys | rates | heap | processes | reportsCached | fetches => cases unit
  | decAbsent _ guarded =>
    simp only [List.mem_cons, List.not_mem_nil, or_false] at guarded
    rcases guarded with rfl | rfl | rfl | rfl <;> cases unit

end

/-- Settles O30: by the operation; its guards and its result name no part of the other unit's side. -/
theorem unitsShareNothing : Obligations.UnitsShareNothing := by
  refine ⟨fun i s t e chunkin out unit hx => ?_, fun i s t d b unit hx => ?_⟩
  · have h := exec_next_iff.mp hx
    obtain ⟨ers, sameChunkin, sameOut⟩ := completes_dec_keeps h unit
    exact ⟨ers, sameChunkin, sameOut, exec_of_completes (completes_withErasureSide h unit e chunkin out)⟩
  · have h := exec_next_iff.mp hx
    have kept := completes_ers_keeps h unit
    have chunkin : t.bufs.chunkin = s.bufs.chunkin := by rw [kept]
    have next := exec_of_completes (completes_withDecoderSide h unit d b)
    rw [State.withDecoderSide, State.withDecoderSide, chunkin] at next
    exact ⟨exec_ers_dec unit hx, kept, next⟩

/-! ### The ranges written (rule R85) -/

section
variable {s t : State} {i : Instr}

theorem buffers_sameFrom_refl (b : Buffers) (n : Space → Nat) : b.SameFrom b n := by
  constructor <;> exact buffer_sameFrom_refl ..

theorem countLegal_pos {count : BitVec 4} (legal : countLegal count = true) : 0 < count.toNat := by
  rw [countLegal, Bool.and_eq_true, decide_eq_true_eq] at legal
  exact legal.1

/-- An operation writes from index 0 of the spaces its row of R85 names, no further than the row says. -/
theorem completes_sameFrom (h : Completes s i t) : s.bufs.SameFrom t.bufs (writeRange i) := by
  have same := buffers_sameFrom_refl s.bufs (writeRange i)
  cases h with
  | illegal =>
    rw [err_bufs]
    exact same
  | processes _ _ work =>
    obtain ⟨-, -, turn, -, rfl⟩ := processWith_next_iff.mp work
    exact drawBuffers_sameFrom ..
  | reportsCached =>
    exact { same with call9 := buffer_sameFrom_write _ _ (Nat.le_of_eq (length_base37Digits _ 9)) }
  | fetches =>
    obtain ⟨bytes, length, written⟩ := fetchNext_payload Config.functions s
    rw [written]
    exact { same with payload := buffer_sameFrom_write _ _ (Nat.le_of_eq length) }
  | recovers _ legal =>
    exact { same with
      out := buffer_sameFrom_write _ _ (Nat.le_of_eq (recovered_length s.params s.ers (countLegal_pos legal))) }
  | decAbsent | ersAbsent | createFails | creates | destroys | rates | heap | ecreateFails | ecreates | edestroys
  | chunkFails | chunks => exact same

end

/-- Settles O31: by the operation; on an ABSENT unit PROCESS only answers. -/
theorem operationsWriteOnlyTheirRanges : Obligations.OperationsWriteOnlyTheirRanges := by
  refine ⟨fun i s t hx => completes_sameFrom (exec_next_iff.mp hx), fun ch s t absent hx => ?_⟩
  obtain ⟨rsp, rfl⟩ | ⟨c, legal, -⟩ := execProcess_next hx
  · rfl
  · have answered := execProcess_absent ((channelOfSel_isSome_iff ch).mp (Option.isSome_of_eq_some legal)) absent
    cases answered.symm.trans hx
    rfl

/-! ### The same operation again (rule R78) -/

section
variable {w : Nat}

/-- Canonical elements are given by what they read. -/
theorem cells_ext {hi hi' : Nat} : ∀ {lo lo' : Nat} {c c' : Cells w}, Cells.wfIn lo hi c = true →
    Cells.wfIn lo' hi' c' = true → (∀ k, Cells.read c k = Cells.read c' k) → c = c'
  | _, _, [], [], _, _, _ => rfl
  | _, _, [], (j, x) :: rest, _, hc', same => by
    simp only [Cells.wfIn, Bool.and_eq_true, decide_eq_true_eq] at hc'
    exact absurd (by simpa [Cells.read] using (same j).symm) hc'.1.2
  | _, _, (i, v) :: rest, [], hc, _, same => by
    simp only [Cells.wfIn, Bool.and_eq_true, decide_eq_true_eq] at hc
    exact absurd (by simpa [Cells.read] using same i) hc.1.2
  | _, _, (i, v) :: rest, (j, x) :: rest', hc, hc', same => by
    simp only [Cells.wfIn, Bool.and_eq_true, decide_eq_true_eq] at hc hc'
    obtain ⟨⟨-, nonzero⟩, tail⟩ := hc
    obtain ⟨⟨-, nonzero'⟩, tail'⟩ := hc'
    obtain below | rfl | above := Nat.lt_trichotomy i j
    · have zero : Cells.read ((j, x) :: rest') i = 0 := by
        simp [Cells.read, below.ne, cells_read_below (Nat.lt_succ_of_lt below) tail']
      exact absurd (by simpa [Cells.read, below.ne, zero] using (same i).trans zero) nonzero
    · have value : v = x := by simpa [Cells.read] using same i
      rw [value, cells_ext tail tail' fun k => ?_]
      obtain rfl | other := eq_or_ne k i
      · rw [cells_read_below (Nat.lt_succ_self k) tail, cells_read_below (Nat.lt_succ_self k) tail']
      · simpa [Cells.read, other] using same k
    · have zero : Cells.read ((i, v) :: rest) j = 0 := by
        simp [Cells.read, above.ne, cells_read_below (Nat.lt_succ_of_lt above) tail]
      exact absurd (by simpa [Cells.read] using (same j).symm.trans zero) nonzero'

/-- Writing the same elements again changes nothing. -/
theorem buffer_writeFrom_writeFrom {b : Buffer w} {vs : List (BitVec w)} (wf : b.wf = true) (fits : vs.length ≤ b.len) :
    (b.writeFrom 0 vs).writeFrom 0 vs = b.writeFrom 0 vs := by
  have once : (b.writeFrom 0 vs).wf = true := buffer_writeFrom_wf wf (by omega)
  have twice : ((b.writeFrom 0 vs).writeFrom 0 vs).wf = true := buffer_writeFrom_wf once (by simpa using fits)
  have same (k : Nat) : ((b.writeFrom 0 vs).writeFrom 0 vs).read k = (b.writeFrom 0 vs).read k := by
    obtain inside | outside := Nat.lt_or_ge k vs.length
    · rw [buffer_read_write_zero once fits inside, buffer_read_write_zero wf fits inside]
    · exact buffer_read_writeFrom_outside (.inr (by omega))
  exact congrArg (Buffer.mk b.len) (cells_ext twice once same)

end

section
variable {s t : State}

theorem cachedNext_cachedNext (f : Functions) (bufs : s.bufs.wf = true) (len : s.bufs.call9.len = 9) :
    cachedNext f (cachedNext f s) = cachedNext f s := by
  obtain ⟨-, -, -, -, -, call9, -⟩ := buffers_wf_iff.mp bufs
  have text : (base37Text s.dec.cachedCall.toNat).length = 9 := length_base37Digits _ 9
  have again := buffer_writeFrom_writeFrom call9 (text.trans len.symm).le
  simp only [cachedNext, again]

theorem chunkNext_chunkNext (s : State) {idx : Nat} (ident : BitVec 16) (slot : idx < 12) :
    chunkNext (chunkNext s idx ident slot) idx ident slot = chunkNext s idx ident slot := by
  have again : (s.ers.slots.set idx (chunkSlot s ident) slot).set idx (chunkSlot s ident) slot =
      s.ers.slots.set idx (chunkSlot s ident) slot := Vector.set_set ..
  have copied : chunkSlot (chunkNext s idx ident slot) ident = chunkSlot s ident := rfl
  rw [chunkNext, copied]
  simp only [chunkNext, again]

end

/-- Settles O32: each answer is given again, CALL9 gets the same text and the slot the same copy. -/
theorem rateCachedAndChunkAreRepeatable : Obligations.RateCachedAndChunkAreRepeatable := by
  intro i s t repeatable bufs hx
  refine exec_of_completes ?_
  obtain rfl | rfl | ⟨idx, ident, rfl⟩ := repeatable
  · cases exec_next_iff.mp hx with
    | illegal illformed => cases illformed
    | decAbsent absent guarded => exact .decAbsent (s := s.decRespond rspErr) absent guarded
    | ersAbsent _ unit => cases unit
    | rates created => exact .rates (s := s.decRespond _) created
  · cases exec_next_iff.mp hx with
    | illegal illformed => cases illformed
    | decAbsent absent guarded => exact .decAbsent (s := s.decRespond rspErr) absent guarded
    | ersAbsent _ unit => cases unit
    | reportsCached created any len =>
      have again := Completes.reportsCached (s := cachedNext Config.functions s) created any len
      rwa [cachedNext_cachedNext _ bufs len] at again
  · cases exec_next_iff.mp hx with
    | illegal illformed => cases illformed
    | decAbsent _ guarded => simp at guarded
    | ersAbsent absent unit guarded => exact .ersAbsent (s := s.ersRespond rspErr) absent unit guarded
    | chunkFails created noSlot => exact .chunkFails (s := s.ersRespond 0) created noSlot
    | chunks created slot long =>
      have again := Completes.chunks (s := chunkNext s idx.toNat ident slot) (ident := ident) created slot long
      rwa [chunkNext_chunkNext] at again

end Sys2Proof.Machine
end

section
/-! SUPPORT. PROCESS: the ring and the correlator's step (rules R30, R155), when it completes (rules R157, R363), what it
reads (rule R85), and why an operation refuses (rule R411). -/

namespace Sys2Proof.Machine

/-! ### The ring and the correlator's step (rules R30, R155) -/

section
variable {f : Functions} {p : Params} {ch : Channel} {d b : Dec} {fr : Frame} {z : Cplx} {cs : List Word}

/-- What the correlator's step is given after a frame was conditioned and appended. -/
theorem condition_append_input (conditioned : d.condition f p ch fr = (b, z)) :
    (b.append z).rate = d.rate ∧ (b.append z).corrState = d.corrState ∧ (b.append z).nW = d.nW + 1 := by
  obtain ⟨st, h, left, -⟩ := condition_dec f p ch d fr
  rw [conditioned] at left
  subst left
  exact ⟨rfl, rfl, rfl⟩

theorem sampleStep_of_condition (conditioned : d.condition f p ch fr = (b, z)) :
    d.sampleStep f p ch fr = (b.append z).correlate f := by rw [Dec.sampleStep, conditioned]

theorem append_ringAt_older (d : Dec) (z : Cplx) {k : Nat} (low : 1 ≤ k)
    (high : k < Rate.ringCap d.rate) : (d.append z).ringAt ((d.nW : Int) - k) = d.ringAt ((d.nW : Int) - k) := by
  obtain ⟨j, rfl⟩ := Nat.exists_eq_add_of_le' low
  have newPlace : (((d.nW + 1 : Nat) : Int) - 1 - ((d.nW : Int) - ((j + 1 : Nat) : Int))).toNat = j + 1 := by omega
  have oldPlace : ((d.nW : Int) - 1 - ((d.nW : Int) - ((j + 1 : Nat) : Int))).toNat = j := by omega
  rw [Dec.ringAt, Dec.ringAt, append_nW, append_rate, append_ring, newPlace, oldPlace, if_pos (by omega),
    if_pos (by omega), List.getElem?_take_of_lt high, List.getElem?_cons_succ]

theorem append_ringAt_outside (d : Dec) (z : Cplx) {n : Int}
    (outside : n ≤ (d.nW : Int) - Rate.ringCap d.rate ∨ (d.nW : Int) < n) : (d.append z).ringAt n = none := by
  rw [Dec.ringAt, append_nW, append_rate, if_neg (by omega)]

end

/-- Settles O34: the correlator steps on what the append leaves, and sample `n_w - k` moves one place down the ring. -/
theorem ringReturnsTheSampleWrittenKStepsAgo : Obligations.RingReturnsTheSampleWrittenKStepsAgo := by
  refine ⟨fun f p ch d fr b z cs conditioned => ?_, fun d z full => ⟨rfl, ?_, append_ringAt_self d z,
    fun k low high => ⟨append_ringAt_older d z low high, ?_⟩, fun n => append_ringAt_outside d z⟩⟩
  · obtain ⟨rate, corr, count⟩ := condition_append_input conditioned
    rw [sampleStep_of_condition conditioned, ← rate, ← corr, ← count]
    exact ⟨correlate_of_none, fun pos cfo => correlate_of_some⟩
  · simp [full]
  · rw [ringAt_eq_some_iff full]
    omega

/-! ### When PROCESS completes (rules R157, R363) -/

section
variable {f : Functions} {p : Params} {ch : Channel} {d : Dec} {s t : State} {turn : Turn}

theorem processWith_of_turn (apart : s.overlaps = []) (fits : ∀ need ∈ processLengths s.dec.rate ch,
    s.bufs.lenOf need.1 = need.2) (machine : processTurn f ch s = .ok turn) :
    processWith f ch s = .next (processNext f ch s turn) :=
  processWith_next_iff.mpr ⟨by rw [apart, spacesOverlap_nil], fits, turn, machine, rfl⟩

/-- A detection whose metadata symbol the ring holds is not refused. -/
theorem detection_ok (held : (d.window (d.symbolPosAbs + Rate.lExt d.rate)).isSome) (rejected : Fsm) :
    ∃ turn, d.detection f p rejected = .ok turn := by
  obtain ⟨xs, window⟩ := Option.isSome_iff_exists.mp held
  exact ⟨_, detection_of_samples (metadataSamples_of_window window) rejected⟩

/-- With P6 the turn of a live unit is not refused: a data symbol is held in every burst, and a detected metadata symbol
by P6 (rules R30, R157). -/
theorem processTurn_of_P6 (p6 : Functions.P6 f) (live : s.dec.Live) (ch : Channel) : ∃ turn, processTurn f ch s = .ok turn := by
  obtain ⟨kept, -, ring⟩ := processLoop_spec f ch s live.ring
  have holds := p6 s.params ch s.dec (processFrames ch s) live (framesOf_length ..)
  by_cases symbol : s.dec.fsm = .synced ∧
      (s.params.resync = .ignore ∨ (s.dec.sampleLoop f s.params ch (processFrames ch s)).detPending = false)
  · obtain ⟨turn, machine, -⟩ := processTurn_in_burst f ch live symbol.1 symbol.2
    exact ⟨turn, machine⟩
  unfold processTurn
  generalize s.dec.sampleLoop f s.params ch (processFrames ch s) = d at *
  have detected (pending : d.detPending = true) (rejected : Fsm) :
      ∃ turn, d.detection f s.params rejected = .ok turn := by
    have held := holds pending
    rw [← kept.rate] at held ring
    exact detection_ok ((window_isSome_iff ring).mpr held) rejected
  by_cases burst : d.fsm = .synced
  · obtain ⟨restart, pending⟩ := not_or.mp (not_and.mp symbol (kept.fsm.symm.trans burst))
    have resync : s.params.resync = .restart := by cases h : s.params.resync <;> simp [h] at restart ⊢
    rw [machineStep_of_restart burst (by simpa using pending) resync]
    exact detected (by simpa using pending) .idle
  · cases pending : d.detPending with
    | false => exact ⟨_, machineStep_of_no_detection burst pending⟩
    | true =>
      rw [machineStep_of_detection burst pending]
      exact detected pending d.fsm

/-- No turn of the burst machine answers HEAP (rule R400). -/
theorem machineStep_status (machine : d.machineStep f p = .ok turn) : turn.status ≠ .heap := by
  have settled {rejected : Fsm} (detection : d.detection f p rejected = .ok turn) : turn.status ≠ .heap := by
    obtain ⟨xs, -, rfl⟩ := detection_cases detection
    cases preambleResult f p (Rate.lSym d.rate) (derotate f.num d.cfoRad xs) with
    | fail | nope | okay => exact nofun
  rcases machineStep_cases machine with ⟨-, -, rfl⟩ | ⟨-, -, detection⟩ | ⟨-, -, symbol⟩ | ⟨-, -, -, detection⟩
  · exact nofun
  · exact settled detection
  · obtain ⟨xs, -, -, ⟨-, -, status⟩ | ⟨-, -, status⟩⟩ := dataSymbol_cases symbol <;> rw [status] <;> exact nofun
  · exact settled detection

theorem rspStatus_toNat_mem {st : Status} (h : st ≠ .heap) : (rspStatus st).toNat ∈ [0, 1, 2, 3, 5] := by
  cases st with
  | heap => exact absurd rfl h
  | okay | fail | sync | done | nope => decide

end

/-- Settles O48: the turn is one data symbol, and the next one is as far from `n_w` because both advance by a block. -/
theorem processInABurstTakesOneSymbol : Obligations.ProcessInABurstTakesOneSymbol := by
  intro s sel ch legal created live burst ignore apart fits
  obtain ⟨turn, machine, symbol⟩ := processTurn_in_burst Config.functions ch live burst (.inl ignore)
  have work := processWith_of_turn apart fits machine
  have around := processWith_sameAround work
  have latches := processWith_sameLatches work burst ignore
  have count := processWith_nW work
  obtain ⟨kept, -⟩ := processLoop_spec Config.functions ch s live.ring
  obtain ⟨xs, -, -, next⟩ := dataSymbol_cases symbol
  have number : (processNext Config.functions ch s turn).dec.symbolNumber = s.dec.symbolNumber + 1 := by
    obtain ⟨-, unit, -⟩ | ⟨-, unit, -⟩ := next <;>
      exact (congrArg Dec.symbolNumber unit).trans (congrArg (· + 1) kept.symbolNumber)
  refine ⟨_, (execProcess_created legal created).trans work, count, number, latches.mode, ?_, ?_⟩
  · rw [Dec.dataBase, Dec.dataBase, latches.symbolPositionAbs, around.rate, number, count]
    push_cast
    ring
  · rw [processNext_dec]
    dsimp only at next
    rw [kept.symbolNumber, kept.mode] at next
    obtain ⟨more, unit, status⟩ | ⟨last, unit, status⟩ := next <;> rw [unit, status]
    · rw [if_pos more]
      exact ⟨rfl, kept.fsm.trans burst, kept.payloadReady⟩
    · rw [if_neg (Nat.not_lt.mpr last)]
      exact ⟨rfl, rfl, rfl⟩

/-- Settles O49: P6 gives the turn, whose status is not HEAP; with no report and no burst it is the turn without a
detection. -/
theorem processCompletesWithP6 : Obligations.ProcessCompletesWithP6 := by
  refine ⟨fun sel ch s legal created => execProcess_created legal created, fun f ch s p6 live apart fits => ?_⟩
  obtain ⟨turn, machine⟩ := processTurn_of_P6 p6 live ch
  refine ⟨_, processWith_of_turn apart fits machine, rspStatus_toNat_mem (machineStep_status machine),
    fun outside quiet => ?_⟩
  obtain ⟨kept, -⟩ := processLoop_spec f ch s live.ring
  have still := machineStep_of_no_detection (f := f) (p := s.params) (kept.fsm.trans_ne outside)
    (sampleLoop_no_report f s.params ch _ _ live.pending quiet)
  cases still.symm.trans machine
  exact ⟨rfl, kept.fsm⟩

/-! ### What PROCESS reads (rule R85) -/

section
variable {f : Functions} {ch : Channel} {s : State} {b : Buffers}

/-- The frames of a block are made of the samples R72 counts. -/
theorem framesOf_congr {audio audio' : Buffer 16} {r : Rate}
    (same : ∀ k < audioLen r ch, audio'.read k = audio.read k) : framesOf audio' ch r = framesOf audio ch r := by
  refine List.map_congr_left fun k mem => ?_
  have inside : k < Rate.lExt r := List.mem_range.mp mem
  cases ch with
  | mono => rw [frameAt, frameAt, same k inside]
  | left | right | sum | iq =>
    rw [frameAt, frameAt, same (2 * k) (by simp only [audioLen]; omega),
      same (2 * k + 1) (by simp only [audioLen]; omega)]

/-- Two buffers written with one list read the same there. -/
theorem buffer_read_written_same {w : Nat} {b b' : Buffer w} {vs : List (BitVec w)} (wf : b.wf = true)
    (wf' : b'.wf = true) (len : vs.length = b.len) (len' : vs.length = b'.len) {k : Nat} (hk : k < vs.length) :
    (b'.writeFrom 0 vs).read k = (b.writeFrom 0 vs).read k := by
  rw [buffer_read_write_zero wf' len'.le hk, buffer_read_write_zero wf len.le hk]

end

/-- Settles O51: the same frames give the same turn, and the turn and the old rows of SGRAM give the pictures. -/
theorem processReadsOnlyItsFrames : Obligations.ProcessReadsOnlyItsFrames := by
  intro f ch s t b work wf wf' lens audio sgram
  obtain ⟨apart, fits, turn, machine, rfl⟩ := processWith_next_iff.mp work
  have frames : processFrames ch { s with bufs := b } = processFrames ch s := framesOf_congr audio
  have fits' : ∀ need ∈ processLengths s.dec.rate ch, b.lenOf need.1 = need.2 := fun need mem =>
    (lens need.1).trans (fits need mem)
  have machine' : processTurn f ch { s with bufs := b } = .ok turn := by
    rw [← machine, processTurn, processTurn, frames]
  obtain ⟨-, wfSpec, wfSgram, wfCons, wfPeak, -⟩ := buffers_wf_iff.mp wf
  obtain ⟨-, wfSpec', wfSgram', wfCons', wfPeak', -⟩ := buffers_wf_iff.mp wf'
  obtain ⟨lenSpec, lenSgram, lenCons, lenPeak⟩ := processLengths_pixels fits
  obtain ⟨lenSpec', lenSgram', lenCons', lenPeak'⟩ := processLengths_pixels fits'
  refine ⟨_, processWith_next_iff.mpr ⟨apart, fits', turn, machine', rfl⟩, ?_, fun k hk => ?_, fun k hk => ?_,
    fun k hk => ?_, fun k hk => ?_⟩
  · unfold processNext
    rw [frames]
  · simp only [processNext_bufs, drawPixels_spec]
    exact buffer_read_written_same wfSpec wfSpec' (by rw [specImage_length, lenSpec]) (by rw [specImage_length, lenSpec'])
      (by rwa [specImage_length])
  · rw [processNext_sgram_read (s := { s with bufs := b }) wfSgram' fits' hk, processNext_sgram_read wfSgram fits hk]
    split
    · rfl
    · exact sgram (k - 640) (by omega)
  · simp only [processNext_bufs, drawPixels_cons]
    exact buffer_read_written_same wfCons wfCons' (by rw [consImage_length, lenCons]) (by rw [consImage_length, lenCons'])
      (by rwa [consImage_length])
  · simp only [processNext_bufs, drawPixels_peak, frames]
    exact buffer_read_written_same wfPeak wfPeak' (by rw [peakImage_length, lenPeak]) (by rw [peakImage_length, lenPeak'])
      (by rwa [peakImage_length])

end Sys2Proof.Machine
end

section
/-! SUPPORT. CACHED (rule R365), and why an operation refuses (rule R411). -/

namespace Sys2Proof.Machine

/-! ### CACHED (rule R365) -/

/-- Nine spaces stand for the call that was cleared (rules R18, R201). -/
theorem base37Text_zero {k : Nat} (hk : k < 9) : (base37Text 0).getD k 0 = 0x20#8 := by
  have spaces : ∀ k < 9, (base37Text 0).getD k 0 = 0x20#8 := by decide
  exact spaces k hk

/-- Settles O19: CACHED completes with its next state, whose CALL9 reads back the text. -/
theorem cachedReportsTheLastPreamble : Obligations.CachedReportsTheLastPreamble := by
  intro s created any len wf
  have text : (base37Text s.dec.cachedCall.toNat).length = 9 := length_base37Digits _ 9
  have written : ∀ k < 9, (cachedNext Config.functions s).bufs.call9.read k =
      (base37Text s.dec.cachedCall.toNat).getD k 0 := fun k hk => by
    rw [List.getD_eq_getElem _ _ (hk.trans_eq text.symm)]
    exact buffer_read_write_zero wf (by omega) (by omega)
  refine ⟨_, execCached_completes created any len, rfl, buffer_sameFrom_write _ _ text.le, written, fun none k hk => ?_⟩
  rw [written k hk, none]
  exact base37Text_zero hk

/-! ### The buffers of PROCESS (rules R72, R86) -/

section
variable {s : State} {sel : BitVec 3} {ch : Channel} {r : Refusal}

theorem channelOfSel_eq_mono_iff (legal : Channel.ofSel sel = some ch) : ch = .mono ↔ sel = 0 := by
  have table : ∀ sel, Channel.ofSel sel = some .mono ↔ sel = 0 := by decide
  rw [← table, legal, Option.some.injEq]

theorem processLengths_eq_processTable (rate : Rate) (legal : Channel.ofSel sel = some ch) :
    processLengths rate ch = processTable rate sel := by
  have audio : audioLen rate ch = if sel = 0 then Rate.lExt rate else 2 * Rate.lExt rate := by
    have mono := channelOfSel_eq_mono_iff legal
    cases ch with
    | mono => rw [if_pos (mono.mp rfl)]; rfl
    | left | right | sum | iq => rw [if_neg fun zero => by cases mono.mpr zero]; rfl
  rw [processLengths, processTable, audio]

/-- The overlap check of PROCESS, whatever the channel. -/
theorem spacesOverlap_iff (s : State) (ch : Channel) :
    spacesOverlap s.overlaps ((processLengths s.dec.rate ch).map Prod.fst) = true ↔ processBuffersOverlap s := by
  have handed : (processLengths s.dec.rate ch).map Prod.fst = (processTable s.dec.rate 0).map Prod.fst := rfl
  rw [handed, spacesOverlap, List.any_eq_true, processBuffersOverlap]
  simp only [Bool.and_eq_true, decide_eq_true_eq, List.contains_iff_mem, and_assoc]

/-! ### Refusals (rule R411) -/

theorem whenDecCreated_refused {body : Result} (hx : whenDecCreated s body = .refused r) :
    s.dec.alive = .created ∧ body = .refused r := by
  cases alive : s.dec.alive with
  | absent => cases (whenDecCreated_absent alive body).symm.trans hx
  | created => exact ⟨rfl, (whenDecCreated_created alive body).symm.trans hx⟩

theorem whenErsCreated_refused {body : Result} (hx : whenErsCreated s body = .refused r) :
    s.ers.alive = .created ∧ body = .refused r := by
  cases alive : s.ers.alive with
  | absent => cases (whenErsCreated_absent alive body).symm.trans hx
  | created => exact ⟨rfl, (whenErsCreated_created alive body).symm.trans hx⟩

/-- The construction and destruction operations and RATE always complete. -/
theorem exec_never_refuses {i : Instr} (always : (∃ sel, i = .create sel) ∨ i ∈ [.destroy, .rate, .ecreate, .edestroy]) :
    exec i s ≠ .refused r := by
  intro hx
  obtain ⟨sel, rfl⟩ | always := always
  · obtain ⟨u, h⟩ := completes_create (s := s) (sel := sel)
    cases (exec_of_completes h).symm.trans hx
  simp only [List.mem_cons, List.not_mem_nil, or_false] at always
  obtain rfl | rfl | rfl | rfl := always
  · cases (whenDecCreated_refused hx).2
  · cases (whenDecCreated_refused hx).2
  · cases alive : s.ers.alive with
    | absent => cases (execEcreate_absent alive).symm.trans hx
    | created => cases (execEcreate_created alive).symm.trans hx
  · cases (whenErsCreated_refused hx).2

/-- A turn that is refused is a ring read outside, and no P6 excludes it on a live unit. -/
theorem processTurn_refused {f : Functions} (hx : processTurn f ch s = .error r) :
    r = .ringReadOutside ∧ (s.dec.Live → ¬ Functions.P6 f) := by
  refine ⟨machineStep_error hx, fun live p6 => ?_⟩
  obtain ⟨turn, machine⟩ := processTurn_of_P6 p6 live ch
  cases machine.symm.trans hx

theorem execProcess_refused (hx : execProcess sel s = .refused r) : s.dec.alive = .created ∧ sel.toNat ≤ 4 ∧
    ((r = .buffersOverlap ∧ processBuffersOverlap s) ∨
      (∃ sp n, r = .bufferWrongLength sp ∧ (sp, n) ∈ processTable s.dec.rate sel ∧ s.bufs.lenOf sp ≠ n) ∨
      (r = .ringReadOutside ∧ (s.dec.Live → ¬ Functions.P6 Config.functions))) := by
  cases legal : Channel.ofSel sel with
  | none => cases (execProcess_illegal legal).symm.trans hx
  | some ch =>
    have range := (channelOfSel_isSome_iff sel).mp (Option.isSome_of_eq_some legal)
    cases alive : s.dec.alive with
    | absent => cases (execProcess_absent range alive).symm.trans hx
    | created =>
      rw [execProcess_created legal alive] at hx
      refine ⟨rfl, range, ?_⟩
      rcases processWith_refused hx with ⟨why, overlap⟩ | misfit | turn
      · exact .inl ⟨why, (spacesOverlap_iff s ch).mp overlap⟩
      · rw [← processLengths_eq_processTable _ legal]
        exact .inr (.inl misfit)
      · exact .inr (.inr (processTurn_refused turn))

/-- Outside its window CACHED refuses (rule R365). -/
theorem execCached_of_nothing (created : s.dec.alive = .created) (none : s.dec.cachedAny = false) :
    execCached s = .refused .cachedNothing := by
  rw [execCached, whenDecCreated_created created, none]
  rfl

/-- One buffer of the wrong length is refused (rule R72). -/
theorem whenLengthsFit_one {sp : Space} {n : Nat} (misfit : s.bufs.lenOf sp ≠ n) (body : Result) :
    whenLengthsFit s [(sp, n)] body = .refused (.bufferWrongLength sp) :=
  whenLengthsFit_of_misfit (by rw [misfitBuffer, if_neg misfit]) body

theorem execCached_of_misfit (created : s.dec.alive = .created) (any : s.dec.cachedAny = true)
    (misfit : s.bufs.call9.len ≠ 9) : execCached s = .refused (.bufferWrongLength (.byte .call9)) := by
  rw [execCached, whenDecCreated_created created, if_pos any]
  exact whenLengthsFit_one (sp := .byte .call9) misfit _

theorem execCached_refused (hx : execCached s = .refused r) :
    (r = .cachedNothing ∧ s.dec.cachedAny = false) ∨
      (r = .bufferWrongLength (.byte .call9) ∧ s.bufs.call9.len ≠ 9) := by
  obtain ⟨created, -⟩ := whenDecCreated_refused hx
  cases any : s.dec.cachedAny with
  | false =>
    cases (execCached_of_nothing created any).symm.trans hx
    exact .inl ⟨rfl, rfl⟩
  | true =>
    by_cases len : s.bufs.call9.len = 9
    · cases (execCached_completes created any len).symm.trans hx
    · cases (execCached_of_misfit created any len).symm.trans hx
      exact .inr ⟨rfl, len⟩

/-- Outside its window FETCH refuses (rule R366). -/
theorem execFetch_of_no_payload (created : s.dec.alive = .created) (none : s.dec.payloadReady = false) :
    execFetch s = .refused .noPayload := by
  rw [execFetch, whenDecCreated_created created, none]
  rfl

theorem execFetch_of_wrong_table (created : s.dec.alive = .created) (ready : s.dec.payloadReady = true)
    (wrong : frozenOk (Params.frozen s.params s.dec.mode.frozenSel) s.dec.mode.mesgBits = false) :
    execFetch s = .refused .frozenTableCount := by
  rw [execFetch, whenDecCreated_created created, if_pos ready, wrong]
  rfl

theorem execFetch_of_misfit (created : s.dec.alive = .created) (ready : s.dec.payloadReady = true)
    (table : frozenOk (Params.frozen s.params s.dec.mode.frozenSel) s.dec.mode.mesgBits = true)
    (misfit : s.bufs.payload.len ≠ payloadLen) : execFetch s = .refused (.bufferWrongLength (.byte .payload)) := by
  rw [execFetch, whenDecCreated_created created, if_pos ready, if_pos table]
  exact whenLengthsFit_one (sp := .byte .payload) misfit _

theorem execFetch_refused (hx : execFetch s = .refused r) :
    (r = .noPayload ∧ s.dec.payloadReady = false) ∨
      (r = .frozenTableCount ∧ frozenOk (Params.frozen s.params s.dec.mode.frozenSel) s.dec.mode.mesgBits = false) ∨
      (r = .bufferWrongLength (.byte .payload) ∧ s.bufs.payload.len ≠ 5380) := by
  obtain ⟨created, -⟩ := whenDecCreated_refused hx
  cases ready : s.dec.payloadReady with
  | false =>
    cases (execFetch_of_no_payload created ready).symm.trans hx
    exact .inl ⟨rfl, rfl⟩
  | true =>
    cases table : frozenOk (Params.frozen s.params s.dec.mode.frozenSel) s.dec.mode.mesgBits with
    | false =>
      cases (execFetch_of_wrong_table created ready table).symm.trans hx
      exact .inr (.inl ⟨rfl, rfl⟩)
    | true =>
      by_cases len : s.bufs.payload.len = payloadLen
      · cases (execFetch_completes created ready table len).symm.trans hx
      · cases (execFetch_of_misfit created ready table len).symm.trans hx
        exact .inr (.inr ⟨rfl, len⟩)

/-- A FETCH leaves no payload to fetch. -/
theorem execFetch_after_fetch {t : State} (created : s.dec.alive = .created) (hx : execFetch s = .next t) :
    execFetch t = .refused .noPayload := by
  obtain ⟨-, -, -, rfl⟩ := execFetch_next created hx
  obtain ⟨rsp, unit⟩ := fetchNext_dec Config.functions s
  refine execFetch_of_no_payload ?_ ?_ <;> rw [unit]
  · exact created
  · rfl

theorem execChunk_refused {idx : BitVec 4} {ident : BitVec 16} (hx : execChunk idx ident s = .refused r) :
    r = .bufferTooShort (.byte .chunkin) ∧ s.bufs.chunkin.len < s.params.chunkHdr + 5376 := by
  obtain ⟨created, -⟩ := whenErsCreated_refused hx
  obtain slot | noSlot := Nat.lt_or_ge idx.toNat 12
  · obtain short | long := Nat.lt_or_ge s.bufs.chunkin.len (s.params.chunkHdr + chunkLen)
    · cases (execChunk_of_short ident created slot short).symm.trans hx
      exact ⟨rfl, short⟩
    · cases (execChunk_of_long ident created slot long).symm.trans hx
  · cases (execChunk_of_no_slot ident created noSlot).symm.trans hx

theorem execRecover_refused_iff {count : BitVec 4} {total : BitVec 20} (created : s.ers.alive = .created)
    (legal : countLegal count = true) :
    execRecover count total s = .refused r ↔ recoverRefusal s total.toNat count.toNat = some r := by
  cases refusal : recoverRefusal s total.toNat count.toNat with
  | none => simp [execRecover_next created legal refusal]
  | some r' => simp [execRecover_refused created legal refusal]

theorem recover_refused {count : BitVec 4} {total : BitVec 20} (hx : execRecover count total s = .refused r) :
    countLegal count = true ∧ recoverRefusal s total.toNat count.toNat = some r := by
  cases legal : countLegal count with
  | false => cases (exec_of_illformed (i := .recover count total) legal s).symm.trans hx
  | true =>
    cases alive : s.ers.alive with
    | absent => cases (execRecover_absent total legal alive).symm.trans hx
    | created => exact ⟨rfl, (execRecover_refused_iff alive legal).mp hx⟩

/-- PROCESS checks its buffers before it works (rules R72, R86). -/
theorem execProcess_of_overlap (created : s.dec.alive = .created) (range : sel.toNat ≤ 4)
    (overlap : processBuffersOverlap s) : execProcess sel s = .refused .buffersOverlap := by
  obtain ⟨ch, legal⟩ := Option.isSome_iff_exists.mp ((channelOfSel_isSome_iff sel).mpr range)
  rw [execProcess_created legal created, processWith, if_pos ((spacesOverlap_iff s ch).mpr overlap)]

theorem execProcess_of_misfit (created : s.dec.alive = .created) (range : sel.toNat ≤ 4)
    (apart : ¬ processBuffersOverlap s) {sp : Space} {n : Nat} (need : (sp, n) ∈ processTable s.dec.rate sel)
    (misfit : s.bufs.lenOf sp ≠ n) : ∃ sp', execProcess sel s = .refused (.bufferWrongLength sp') := by
  obtain ⟨ch, legal⟩ := Option.isSome_iff_exists.mp ((channelOfSel_isSome_iff sel).mpr range)
  rw [← processLengths_eq_processTable _ legal] at need
  have found : misfitBuffer s.bufs (processLengths s.dec.rate ch) ≠ none := fun fits =>
    misfit (misfitBuffer_eq_none_iff.mp fits _ need)
  obtain ⟨sp', first⟩ := Option.ne_none_iff_exists'.mp found
  rw [execProcess_created legal created, processWith, if_neg (mt (spacesOverlap_iff s ch).mp apart)]
  exact ⟨sp', whenLengthsFit_of_misfit first _⟩

end

/-- Settles O28: by the operation, each with its own checks in their order. -/
theorem refusalsAreTheListedOnes : Obligations.RefusalsAreTheListedOnes := by
  refine ⟨fun i s r hx => ?_, fun s => execCached_of_nothing, fun s => execFetch_of_no_payload,
    fun s t => execFetch_after_fetch, fun s sel => execProcess_of_overlap,
    fun s sel sp n created range apart => execProcess_of_misfit created range apart, fun s => execCached_of_misfit,
    fun s => execFetch_of_misfit⟩
  cases i with
  | create sel => exact exec_never_refuses (.inl ⟨sel, rfl⟩) hx
  | destroy | rate | ecreate | edestroy => exact exec_never_refuses (.inr (by simp)) hx
  | process => exact execProcess_refused hx
  | cached => exact execCached_refused hx
  | fetch => exact execFetch_refused hx
  | chunk => exact execChunk_refused hx
  | recover => exact recover_refused hx

end Sys2Proof.Machine
end

section
/-! SUPPORT. RECOVER's preconditions slot by slot, what it leaves, and the inverse in the field (rules R302 to R318). -/

namespace Sys2Proof.Machine

/-- Settles O59: `gfVal` embeds the elements in a field and takes `gfMul` and `gfInv` to its product and inverse. -/
theorem fieldElementsHaveInverses : Obligations.FieldElementsHaveInverses := by
  intro poly a irr nonzero
  have deg := log2_of_gfIrreducible irr
  have : Fact (Irreducible (bitPoly poly)) := ⟨irreducible_of_gfIrreducible irr⟩
  apply gfVal_injective deg
  rw [gfVal_gfMul deg, gfVal_gfInv deg, gfVal_one]
  exact mul_inv_cancel₀ ((gfVal_eq_zero_iff deg).not.mpr nonzero)

/-! ### The preconditions, element by element (rules R302, R307, R313) -/

theorem not_nodup_iff_getD {α : Type*} {l : List α} {n : Nat} (length : l.length = n) (d : α) :
    ¬ l.Nodup ↔ ∃ a b, a < b ∧ b < n ∧ l.getD a d = l.getD b d := by
  subst length
  rw [List.nodup_iff_getElem?_ne_getElem?]
  push Not
  refine exists₂_congr fun a b => and_congr_right fun hab => and_congr_right fun hb => ?_
  simp [hab.trans hb, hb]

theorem columnPoints_getD (p : Params) {count j : Nat} (hj : j < count) :
    (columnPoints p count).getD j 0 = p.crsCol.toList.getD j 0 := by
  simp [columnPoints, List.getD_eq_getElem?_getD, List.getElem?_take_of_lt hj]

theorem columnPoints_not_nodup_iff (p : Params) {count : Nat} (high : count ≤ 12) : ¬ (columnPoints p count).Nodup ↔
    ∃ a b, a < b ∧ b < count ∧ p.crsCol.toList.getD a 0 = p.crsCol.toList.getD b 0 := by
  rw [not_nodup_iff_getD (columnPoints_length p high) 0]
  refine exists₂_congr fun a b => and_congr_right fun hab => and_congr_right fun hb => ?_
  rw [columnPoints_getD p (hab.trans hb), columnPoints_getD p hb]

theorem idents_not_nodup_iff (e : Ers) (count : Nat) : ¬ (e.idents count).Nodup ↔
    ∃ a b, a < b ∧ b < count ∧ (e.slot a).ident = (e.slot b).ident := by
  rw [not_nodup_iff_getD (idents_length e count) 0]
  refine exists₂_congr fun a b => and_congr_right fun hab => and_congr_right fun hb => ?_
  rw [idents_getD e (hab.trans hb), idents_getD e hb]

theorem mem_columnPoints_iff (p : Params) {count : Nat} (high : count ≤ 12) (x : Half) : x ∈ columnPoints p count ↔
    ∃ j < count, x = p.crsCol.toList.getD j 0 := by
  rw [List.mem_iff_getElem]
  have length := columnPoints_length p high
  constructor
  · rintro ⟨j, inside, rfl⟩
    have hj := inside.trans_eq length
    exact ⟨j, hj, by rw [← columnPoints_getD p hj, List.getD_eq_getElem]⟩
  · rintro ⟨j, hj, rfl⟩
    have inside := hj.trans_eq length.symm
    exact ⟨j, inside, by rw [← columnPoints_getD p hj, List.getD_eq_getElem]⟩

theorem ident_is_column_iff (p : Params) (e : Ers) {count : Nat} (high : count ≤ 12) :
    (¬ ∀ x ∈ e.idents count, x ∉ columnPoints p count) ↔
      ∃ r < count, ∃ j < count, (e.slot r).ident = p.crsCol.toList.getD j 0 := by
  simp only [Ers.idents, List.forall_mem_map, List.mem_range, not_forall, not_not, exists_prop,
    mem_columnPoints_iff p high]

theorem exists_recoverRefusal_iff {s : State} {total count : Nat} :
    (∃ r, recoverRefusal s total count = some r) ↔ recoverRefusal s total count ≠ none :=
  Option.ne_none_iff_exists'.symm

/-- Settles O56: a refusal is the failure of one of the preconditions. -/
theorem recoverRefusesExactlyBrokenPreconditions : Obligations.RecoverRefusesExactlyBrokenPreconditions := by
  intro s count total created low high
  have refused (r : Refusal) : exec (.recover count total) s = .refused r ↔ _ :=
    execRecover_refused_iff created (countLegal_of_range low high)
  simp only [refused, exists_recoverRefusal_iff, ne_eq, recoverRefusal_eq_none_iff]
  simp only [Classical.not_and_iff_not_or_not, columnPoints_not_nodup_iff _ high, idents_not_nodup_iff,
    ident_is_column_iff _ _ high, Bool.not_eq_true, Nat.not_le, not_forall, exists_prop]

/-! ### What RECOVER leaves (rules R310, R316 to R318) -/

/-- The CRC over bytes is the CRC over their bits, each byte from bit 0 (rule R316). -/
theorem crcErasure_eq_crcBitsOf (p : Params) (bytes : List Byte) :
    crcErasure p bytes = crcBitsOf p.crcConv.erasure 0x8F6E37A0#32 0#32 (bytes.flatMap bitsLow) :=
  List.foldl_flatMap.symm

theorem map_read_range_write_zero {b : Buffer 8} {bytes : List Byte} (wf : b.wf = true) (fits : bytes.length ≤ b.len) :
    (List.range bytes.length).map (b.writeFrom 0 bytes).read = bytes :=
  List.ext_getElem (by simp) fun k _ hk => by
    rw [List.getElem_map, List.getElem_range, buffer_read_write_zero wf fits hk]

/-- Settles O57: the bytes written are those of the blocks, CRC is that of the bytes written. -/
theorem recoverWritesTheBlocks : Obligations.RecoverWritesTheBlocks := by
  intro s count total created low high ready wf
  obtain ⟨-, -, -, -, -, -, fits⟩ := recoverRefusal_eq_none_iff.mp ready
  have length := recovered_length s.params s.ers (total := total.toNat) low
  refine ⟨_, execRecover_next created (countLegal_of_range low high) ready, rfl,
    buffer_sameFrom_write _ _ length.le, fun i hi b hb => recoverNext_read wf hi fits hb, ?_,
    fun k _ => recoverNext_slot s _ _ k⟩
  have bytes := map_read_range_write_zero wf (length.trans_le fits)
  rw [recoverNext_crc, crcErasure_eq_crcBitsOf, recoverNext_out]
  conv_lhs => rw [← bytes, length, List.flatMap_map]
  rfl

end Sys2Proof.Machine
end

section
/-! SUPPORT. The stages of FETCH bit by bit: lengthening, the lane that wins, the flip count, the descrambler (rules R263,
R276 to R282). -/

namespace Sys2Proof.Machine

/-! ### The descrambler (rule R282) -/

theorem scrambleFrom_getElem? : ∀ (n : Nat) (y : Word) {t : Nat}, t < n →
    (scrambleFrom y n)[t]? = some ((xorshift32^[t + 1] y).extractLsb' 0 8)
  | _ + 1, _, 0, _ => rfl
  | n + 1, y, t + 1, ht => by
    rw [scrambleFrom, List.getElem?_cons_succ, scrambleFrom_getElem? n _ (Nat.lt_of_succ_lt_succ ht),
      Function.iterate_succ_apply _ (t + 1)]

/-- Settles O26: the bytes are packed from bit 0 and meet the stream byte by byte; the stream is a run of the generator. -/
theorem payloadBitsAreDescrambledLsbFirst : Obligations.PayloadBitsAreDescrambledLsbFirst :=
  ⟨fun p msg => ⟨payloadBytes_length p msg, fun _ hk => payloadBytes_getLsbD p msg hk⟩,
    fun p _ ht => scrambleFrom_getElem? payloadLen p.scrambleSeed ht⟩

/-! ### Which lane wins (rules R277, R280) -/

/-- The float variant's order on lanes with their numbers: by metric, then by number. -/
def laneBefore (a b : Lane × Nat) : Bool := decide (toLex (a.1.metric, a.2) < toLex (b.1.metric, b.2))

theorem laneBefore_irrefl (a : Lane × Nat) : laneBefore a a = false := by simp [laneBefore]

theorem laneBefore_trans {a b c : Lane × Nat} (hab : laneBefore a b = true) (hbc : laneBefore b c = true) :
    laneBefore a c = true :=
  decide_eq_true ((of_decide_eq_true hab).trans (of_decide_eq_true hbc))

theorem laneBefore_eq_false_iff {a b : Lane × Nat} : laneBefore b a = false ↔
    a.1.metric < b.1.metric ∨ (a.1.metric = b.1.metric ∧ a.2 ≤ b.2) := by
  rw [laneBefore, decide_eq_false_iff_not, not_lt, Prod.Lex.toLex_le_toLex]

section
variable {α β : Type} {before : α → α → Bool} {before' : β → β → Bool} {g : α → β}

theorem map_insertBy {x : α} {ys : List α} (same : ∀ y ∈ ys, before x y = before' (g x) (g y)) :
    (insertBy before x ys).map g = insertBy before' (g x) (ys.map g) := by
  induction ys with
  | nil => rfl
  | cons y ys ih =>
    have ⟨here, later⟩ := List.forall_mem_cons.mp same
    rw [insertBy, List.map_cons, insertBy, ← here]
    split
    · rfl
    · rw [List.map_cons, ih later]

theorem sortBy_concat (xs : List α) (x : α) : sortBy before (xs ++ [x]) = insertBy before x (sortBy before xs) := by
  simp [sortBy]

end

/-- The float variant's sort keeps equal metrics in the order of the lane numbers. -/
theorem laneOrder_float_eq_map (lanes : List Lane) :
    laneOrder .float lanes = (sortBy laneBefore lanes.zipIdx).map Prod.fst := by
  unfold laneOrder
  induction lanes using List.reverseRecOn with
  | nil => rfl
  | append_singleton lanes lane ih =>
    have tags : (lanes ++ [lane]).zipIdx = lanes.zipIdx ++ [(lane, lanes.length)] := by simp [List.zipIdx_append]
    rw [tags, sortBy_concat, sortBy_concat, map_insertBy (before' := fun a b => decide (a.metric < b.metric)), ← ih]
    rintro ⟨other, j⟩ mem
    have earlier : j < lanes.length := by
      simpa using List.snd_lt_of_mem_zipIdx ((sortBy_perm _).mem_iff.mp mem)
    rw [laneBefore, decide_eq_decide, Prod.Lex.toLex_lt_toLex]
    simp [earlier.le]

theorem selectLane_eq_none_iff {p : Params} {lanes : List Lane} :
    selectLane p lanes = none ↔ ∀ l ∈ lanes, lanePasses p l = false := by
  simp [selectLane, (laneOrder_perm p.soft lanes).mem_iff]

/-- The float variant selects a passing lane of least metric, and of least number among these. -/
theorem selectLane_float {p : Params} {lanes : List Lane} {l : Lane} (float : p.soft = .float)
    (selected : selectLane p lanes = some l) : ∃ i : Nat, lanes[i]? = some l ∧ lanePasses p l = true ∧
      ∀ (j : Nat) l', lanes[j]? = some l' → lanePasses p l' = true →
        l.metric < l'.metric ∨ (l.metric = l'.metric ∧ i ≤ j) := by
  rw [selectLane, float, laneOrder_float_eq_map, List.find?_map, Option.map_eq_some_iff] at selected
  obtain ⟨⟨l, i⟩, found, rfl⟩ := selected
  obtain ⟨passes, before, after, order, failing⟩ := List.find?_eq_some_iff_append.mp found
  have tagged (m : Lane) (k : Nat) : lanes[k]? = some m ↔ (m, k) ∈ before ++ (l, i) :: after := by
    rw [← order, (sortBy_perm _).mem_iff, List.mem_zipIdx_iff_getElem?]
  refine ⟨i, (tagged l i).mpr (by simp), passes, fun j l' here passes' => ?_⟩
  have sorted := order ▸ sortBy_sorted laneBefore_irrefl laneBefore_trans lanes.zipIdx
  obtain early | rest := List.mem_append.mp ((tagged l' j).mp here)
  · exact absurd passes' (by simpa using failing _ early)
  obtain ⟨rfl, rfl⟩ | late := (List.mem_cons.mp rest).imp_left Prod.mk.inj
  · exact .inr ⟨rfl, le_rfl⟩
  · exact laneBefore_eq_false_iff.mp ((List.pairwise_cons.mp (List.pairwise_append.mp sorted).2.1).1 _ late)

/-- The int8 variant selects the passing lane of least number. -/
theorem selectLane_int8 {p : Params} {lanes : List Lane} {l : Lane} (int8 : p.soft = .int8)
    (selected : selectLane p lanes = some l) : ∃ i : Nat, lanes[i]? = some l ∧ lanePasses p l = true ∧
      ∀ (j : Nat) l', lanes[j]? = some l' → lanePasses p l' = true → i ≤ j := by
  rw [selectLane, int8, laneOrder] at selected
  obtain ⟨passes, i, inside, rfl, failing⟩ := List.find?_eq_some_iff_getElem.mp selected
  refine ⟨i, List.getElem?_eq_getElem inside, passes, fun j l' here passes' => ?_⟩
  by_contra earlier
  obtain ⟨_, rfl⟩ := List.getElem?_eq_some_iff.mp here
  exact absurd passes' (by simpa using failing j (Nat.lt_of_not_le earlier))

/-! ### The flip count (rule R280) -/

theorem flipCount_int8 {code : List SoftBit} {lane : Lane} (received : code.length = codeLen)
    (word : lane.word.length = codeLen) : flipCount .int8 code lane =
      ((List.range codeLen).filter fun i =>
        (code.map SoftBit.hard).getD i false != lane.word.getD i false).length := by
  have bits : List.zipWith (fun s x => SoftBit.hard s != x) code lane.word =
      (List.range codeLen).map fun i => (code.map SoftBit.hard).getD i false != lane.word.getD i false := by
    refine List.ext_getElem (by simp [received, word]) fun i _ hi => ?_
    have inside : i < codeLen := by simpa using hi
    simp [received, word, inside]
  rw [flipCount, bits, List.count_eq_countP, List.countP_map, List.countP_eq_length_filter]
  simp [Function.comp_def]

/-- Settles O23: the float variant's stable sort orders the lanes by metric, then number. -/
theorem laneSelectionFollowsTheVariant : Obligations.LaneSelectionFollowsTheVariant :=
  ⟨fun _ _ => decide_eq_true_iff,
    fun _ _ float => ⟨selectLane_eq_none_iff, fun _ => selectLane_float float⟩,
    fun _ _ int8 => ⟨selectLane_eq_none_iff, fun _ => selectLane_int8 int8⟩,
    fun _ _ received word => ⟨rfl, flipCount_int8 received word⟩⟩

/-! ### Lengthening (rule R263) -/

section
variable (limit : Nat) (frozen : List Bool) (flag : Bool) {i : Nat}

theorem countBelow_succ (keep : Nat → Bool) (n : Nat) : countBelow keep (n + 1) = countBelow keep n + (keep n).toNat := by
  rw [countBelow, List.range_succ, List.filter_append, List.length_append, countBelow]
  cases here : keep n <;> simp [here]

theorem countBelow_mono (keep : Nat → Bool) : Monotone (countBelow keep) :=
  monotone_nat_of_le_succ fun n => (countBelow_succ keep n).symm ▸ Nat.le_add_right _ _

theorem countBelow_lt_of_keep {keep : Nat → Bool} {n : Nat} (here : keep i = true) (inside : i < n) :
    countBelow keep i < countBelow keep n := by
  have next := countBelow_mono keep inside
  rwa [Nat.succ_eq_add_one, countBelow_succ, here] at next

theorem messageIndex_concat (inside : i ≤ frozen.length) :
    messageIndex (frozen ++ [flag]) i = messageIndex frozen i := by
  rw [messageIndex, List.take_append_of_le_length inside, messageIndex]

theorem receives_concat (inside : i < frozen.length) :
    receives limit (frozen ++ [flag]) i = receives limit frozen i := by
  rw [receives, List.getD_append _ _ _ _ inside, messageIndex_concat _ _ inside.le, receives]

theorem receives_concat_last : receives limit (frozen ++ [flag]) frozen.length =
    (flag || decide (frozen.count false < limit)) := by
  rw [receives, messageIndex_concat _ _ le_rfl, messageIndex, List.take_length]
  simp

theorem countBelow_receives_concat (inside : i ≤ frozen.length) :
    countBelow (receives limit (frozen ++ [flag])) i = countBelow (receives limit frozen) i := by
  unfold countBelow
  congr 1
  refine List.filter_congr fun k hk => receives_concat limit frozen flag ?_
  have := List.mem_range.mp hk
  omega

/-- The frozen positions and the message positions below the limit receive soft bits. -/
theorem countBelow_receives :
    countBelow (receives limit frozen) frozen.length = frozen.count true + min limit (frozen.count false) := by
  induction frozen using List.reverseRecOn with
  | nil => simp [countBelow]
  | append_singleton frozen flag ih =>
    rw [List.length_append, List.length_singleton, countBelow_succ, countBelow_receives_concat _ _ _ le_rfl, ih,
      receives_concat_last, List.count_append, List.count_append]
    cases flag with
    | true =>
      simp
      omega
    | false =>
      obtain below | above := Nat.lt_or_ge (frozen.count false) limit
      · simp [below]
        omega
      · simp [above.not_gt]
        omega

end

/-- What lengthening puts on position i. -/
def lengthened (limit : Nat) (konst : SoftBit) (frozen : List Bool) (code : List SoftBit) (i : Nat) : SoftBit :=
  if receives limit frozen i then code.getD (countBelow (receives limit frozen) i) konst else konst

theorem lengthened_concat (limit : Nat) (konst : SoftBit) (frozen : List Bool) (flag : Bool) (code : List SoftBit)
    {i : Nat} (inside : i < frozen.length) :
    lengthened limit konst (frozen ++ [flag]) code i = lengthened limit konst frozen code i := by
  rw [lengthened, receives_concat _ _ _ inside, countBelow_receives_concat _ _ _ inside.le, lengthened]

theorem reverse_take_succ {α : Type} {xs : List α} {n : Nat} (inside : n < xs.length) (d : α) :
    (xs.take (n + 1)).reverse = xs.getD n d :: (xs.take n).reverse := by
  rw [List.take_succ_eq_append_getElem inside, List.reverse_append, List.getD_eq_getElem _ _ inside]
  rfl

/-- One step of the downward loop, m non-frozen positions below it. -/
theorem lengthenDown_cons (limit : Nat) (konst : SoftBit) (flag : Bool) (flags : List Bool) (m : Nat)
    (rx out : List SoftBit) : lengthenDown limit konst (flag :: flags) (m + (!flag).toNat) rx out =
      if flag || decide (m < limit) then lengthenDown limit konst flags m rx.tail (rx.headD konst :: out)
      else lengthenDown limit konst flags m rx (konst :: out) := by
  cases flag <;> simp [lengthenDown]

/-- The downward loop fills the positions of its flags, the highest first. -/
theorem lengthenDown_eq (limit : Nat) (konst : SoftBit) (frozen : List Bool) (code out : List SoftBit)
    (enough : countBelow (receives limit frozen) frozen.length ≤ code.length) :
    lengthenDown limit konst frozen.reverse (frozen.count false)
        (code.take (countBelow (receives limit frozen) frozen.length)).reverse out =
      (List.range frozen.length).map (lengthened limit konst frozen code) ++ out := by
  induction frozen using List.reverseRecOn generalizing out with
  | nil => rfl
  | append_singleton frozen flag ih =>
    have total : countBelow (receives limit (frozen ++ [flag])) (frozen ++ [flag]).length =
        countBelow (receives limit frozen) frozen.length + (flag || decide (frozen.count false < limit)).toNat := by
      rw [List.length_append, List.length_singleton, countBelow_succ, countBelow_receives_concat _ _ _ le_rfl,
        receives_concat_last]
    have below : (List.range frozen.length).map (lengthened limit konst (frozen ++ [flag]) code) =
        (List.range frozen.length).map (lengthened limit konst frozen code) :=
      List.map_congr_left fun i hi => lengthened_concat _ _ _ _ _ (List.mem_range.mp hi)
    have last : lengthened limit konst (frozen ++ [flag]) code frozen.length =
        if flag || decide (frozen.count false < limit) then
          code.getD (countBelow (receives limit frozen) frozen.length) konst else konst := by
      rw [lengthened, receives_concat_last, countBelow_receives_concat _ _ _ le_rfl]
    rw [total] at enough ⊢
    have zeros : (frozen ++ [flag]).count false = frozen.count false + (!flag).toNat := by
      cases flag <;> simp
    rw [List.reverse_concat, List.length_append, List.length_singleton, List.range_succ, List.map_append, below,
      List.map_singleton, last, List.append_assoc, List.singleton_append, zeros, lengthenDown_cons]
    cases receiving : flag || decide (frozen.count false < limit) with
    | true =>
      rw [receiving] at enough
      rw [Bool.toNat_true, reverse_take_succ enough konst]
      exact ih _ (Nat.le_of_succ_le enough)
    | false =>
      rw [receiving] at enough
      exact ih _ enough

/-- Settles O24: the loop takes the soft bits from the last down while it meets receiving positions from the top down. -/
theorem lengtheningPlacesEverySoftBit : Obligations.LengtheningPlacesEverySoftBit := by
  intro limit cons mesg konst frozen code zeros below total enough
  have count : countBelow (receives limit frozen) frozen.length = cons := by
    have flags := List.count_true_add_count_false frozen
    rw [countBelow_receives]
    omega
  refine ⟨lengthen_length .., count, fun i hi => ?_⟩
  rw [lengthen, ← count, ← zeros, lengthenDown_eq _ _ _ _ _ (count.trans_le enough), List.append_nil,
    List.getElem?_map, List.getElem?_range hi, Option.map_some, lengthened]
  split
  next receiving =>
    have inCode := (countBelow_lt_of_keep receiving hi).trans_le (count.trans_le enough)
    rw [List.getD_eq_getElem _ _ inCode, List.getElem?_eq_getElem inCode]
  next => rfl

end Sys2Proof.Machine
end

section
/-! SUPPORT. The polar transform is linear, its own inverse and the sum over supersets; the systematic word of a lane
(rule R279). -/

namespace Sys2Proof.Machine

/-! ### Linearity and the inverse -/

theorem halves_length {n : Nat} {u : List Bool} (length : u.length = 2 ^ (n + 1)) :
    (u.take (2 ^ n)).length = 2 ^ n ∧ (u.drop (2 ^ n)).length = 2 ^ n := by
  rw [List.length_take, List.length_drop]
  omega

theorem zipWith_xor_xor_comm (a b c d : List Bool) :
    List.zipWith Bool.xor (List.zipWith Bool.xor a b) (List.zipWith Bool.xor c d) =
      List.zipWith Bool.xor (List.zipWith Bool.xor a c) (List.zipWith Bool.xor b d) := by
  refine List.ext_getElem (by simp [Nat.min_comm, Nat.min_left_comm]) fun i _ _ => ?_
  simp [Bool.xor_left_comm]

theorem zipWith_xor_cancel {a b : List Bool} (length : a.length = b.length) :
    List.zipWith Bool.xor (List.zipWith Bool.xor a b) b = a :=
  List.ext_getElem (by simp [length]) fun i _ _ => by simp

theorem polarTransform_xor : ∀ (n : Nat) (a b : List Bool), a.length = 2 ^ n → b.length = 2 ^ n →
    polarTransform n (List.zipWith Bool.xor a b) =
      List.zipWith Bool.xor (polarTransform n a) (polarTransform n b)
  | 0, _, _, _, _ => rfl
  | n + 1, a, b, ha, hb => by
    obtain ⟨lowA, highA⟩ := halves_length ha
    obtain ⟨lowB, highB⟩ := halves_length hb
    simp only [polarTransform, List.take_zipWith, List.drop_zipWith]
    rw [polarTransform_xor n _ _ lowA lowB, polarTransform_xor n _ _ highA highB, List.zipWith_append,
      zipWith_xor_xor_comm]
    simp [polarTransform_length, *]

theorem polarTransform_polarTransform : ∀ (n : Nat) (u : List Bool), u.length = 2 ^ n →
    polarTransform n (polarTransform n u) = u
  | 0, _, _ => rfl
  | n + 1, u, hu => by
    obtain ⟨lowU, highU⟩ := halves_length hu
    have low := polarTransform_length n _ lowU
    have high := polarTransform_length n _ highU
    have both : (List.zipWith Bool.xor (polarTransform n (u.take (2 ^ n)))
        (polarTransform n (u.drop (2 ^ n)))).length = 2 ^ n := by rw [List.length_zipWith, low, high, Nat.min_self]
    simp only [polarTransform, List.take_left' both, List.drop_left' both]
    rw [polarTransform_xor n _ _ low high, polarTransform_polarTransform n _ lowU,
      polarTransform_polarTransform n _ highU, zipWith_xor_cancel (lowU.trans highU.symm), List.take_append_drop]

/-! ### The sum over supersets -/

/-- The sum modulo 2 of f below n. -/
def parityBelow (f : Nat → Bool) (n : Nat) : Bool := ((List.range n).filter f).length % 2 == 1

theorem parityBelow_add (f : Nat → Bool) (m n : Nat) :
    parityBelow f (m + n) = Bool.xor (parityBelow f m) (parityBelow (fun j => f (m + j)) n) := by
  have parts (a b : Nat) : ((a + b) % 2 == 1) = Bool.xor (a % 2 == 1) (b % 2 == 1) := by
    obtain ha | ha := Nat.mod_two_eq_zero_or_one a <;> obtain hb | hb := Nat.mod_two_eq_zero_or_one b <;>
      simp [Nat.add_mod, ha, hb]
  rw [parityBelow, List.range_add, List.filter_append, List.length_append, parts, List.filter_map, List.length_map]
  rfl

theorem parityBelow_congr {f g : Nat → Bool} {n : Nat} (same : ∀ j < n, f j = g j) :
    parityBelow f n = parityBelow g n := by
  rw [parityBelow, parityBelow, List.filter_congr fun j hj => same j (List.mem_range.mp hj)]

theorem parityBelow_false (n : Nat) : parityBelow (fun _ => false) n = false := by simp [parityBelow]

/-- Position j lies above position i and holds a one. -/
def superset (u : List Bool) (i j : Nat) : Bool := decide (j &&& i = i) && u.getD j false

theorem two_pow_add_eq_or {n j : Nat} (hj : j < 2 ^ n) : 2 ^ n + j = 2 ^ n ||| j := by
  simpa using Nat.two_pow_add_eq_or_of_lt hj 1

section
variable {u : List Bool} {i j n : Nat} (hi : i < 2 ^ n) (hj : j < 2 ^ n)

include hj in
theorem superset_take : superset (u.take (2 ^ n)) i j = superset u i j := by
  simp [superset, hj]

include hi hj in
theorem superset_drop : superset (u.drop (2 ^ n)) i j = superset u i (2 ^ n + j) := by
  have same : (2 ^ n + j) &&& i = j &&& i := by
    have apart : 2 ^ n &&& i = 0 := by
      rw [Nat.two_pow_and, Nat.testBit_lt_two_pow hi, Bool.toNat_false, Nat.mul_zero]
    rw [two_pow_add_eq_or hj, Nat.and_or_distrib_right, apart, Nat.zero_or]
  simp [superset, same]

include hj in
/-- No position of the low half lies above one of the high half. -/
theorem superset_high_low : superset u (2 ^ n + i) j = false := by
  have below : j &&& (2 ^ n + i) ≤ j := Nat.and_le_left
  have apart : j &&& (2 ^ n + i) ≠ 2 ^ n + i := by omega
  simp [superset, apart]

include hi hj in
theorem superset_high_high : superset u (2 ^ n + i) (2 ^ n + j) = superset (u.drop (2 ^ n)) i j := by
  have sum : (2 ^ n + j) &&& (2 ^ n + i) = 2 ^ n + (j &&& i) := by
    rw [two_pow_add_eq_or hj, two_pow_add_eq_or hi, two_pow_add_eq_or (Nat.and_lt_two_pow j hi),
      Nat.or_and_distrib_left]
  simp [superset, sum]

end

/-- Output i of the transform is the sum of the inputs at the positions above i. -/
theorem polarTransform_getElem? : ∀ (n : Nat) (u : List Bool), u.length = 2 ^ n → ∀ {i : Nat}, i < 2 ^ n →
    (polarTransform n u)[i]? = some (parityBelow (superset u i) (2 ^ n))
  | 0, [b], _, 0, _ => by cases b <;> rfl
  | n + 1, u, hu, i, hi => by
    obtain ⟨lowU, highU⟩ := halves_length hu
    have low := polarTransform_length n _ lowU
    have high := polarTransform_length n _ highU
    have double : 2 ^ (n + 1) = 2 ^ n + 2 ^ n := by omega
    rw [polarTransform, double, parityBelow_add]
    obtain lower | ⟨i, rfl⟩ := (Nat.lt_or_ge i (2 ^ n)).imp_right Nat.exists_eq_add_of_le
    · rw [← parityBelow_congr fun j hj => superset_take hj, ← parityBelow_congr fun j hj => superset_drop lower hj,
        List.getElem?_append_left (by simpa [low, high] using lower), List.getElem?_zipWith,
        polarTransform_getElem? n _ lowU lower, polarTransform_getElem? n _ highU lower]
    · have upper : i < 2 ^ n := by omega
      rw [parityBelow_congr fun j hj => superset_high_low hj, parityBelow_false, Bool.false_xor,
        parityBelow_congr fun j hj => superset_high_high upper hj,
        List.getElem?_append_right (by simp [low, high])]
      simp only [List.length_zipWith, low, high, Nat.min_self, Nat.add_sub_cancel_left]
      exact polarTransform_getElem? n _ highU upper

/-! ### The word and the message of a lane -/

theorem scatter_getElem? : ∀ (flags u : List Bool) {j : Nat}, j < flags.length →
    (scatter flags u)[j]? = some (!flags.getD j false && u.getD (messageIndex flags j) false)
  | true :: flags, u, 0, _ => rfl
  | false :: flags, u, 0, _ => by cases u <;> rfl
  | true :: flags, u, j + 1, hj => by
    rw [scatter, List.getElem?_cons_succ, scatter_getElem? flags u (Nat.lt_of_succ_lt_succ hj)]
    simp [messageIndex]
  | false :: flags, u, j + 1, hj => by
    rw [scatter, List.getElem?_cons_succ, scatter_getElem? flags u.tail (Nat.lt_of_succ_lt_succ hj)]
    simp [messageIndex]

theorem gather_getElem? : ∀ (flags xs : List Bool) {i : Nat}, i < flags.length → flags.getD i false = false →
    (gather flags xs)[messageIndex flags i]? = xs[i]?
  | false :: flags, [], i, _, _ => by simp [gather]
  | true :: flags, [], i, _, _ => by simp [gather]
  | false :: flags, x :: xs, 0, _, _ => rfl
  | true :: flags, x :: xs, i + 1, hi, zero => by
    have later := gather_getElem? flags xs (Nat.lt_of_succ_lt_succ hi) (by simpa using zero)
    simpa [gather, messageIndex] using later
  | false :: flags, x :: xs, i + 1, hi, zero => by
    have later := gather_getElem? flags xs (Nat.lt_of_succ_lt_succ hi) (by simpa using zero)
    simpa [gather, messageIndex] using later

theorem messageIndex_lt_count {frozen : List Bool} {j : Nat} (hj : j < frozen.length)
    (zero : frozen.getD j false = false) : messageIndex frozen j < frozen.count false := by
  have here : frozen[j] = false := by rwa [List.getD_eq_getElem _ _ hj] at zero
  have upTo : (frozen.take (j + 1)).count false = messageIndex frozen j + 1 := by
    rw [List.take_succ_eq_append_getElem hj, List.count_append, here, messageIndex]
    rfl
  have := (List.take_sublist (j + 1) frozen).count_le false
  omega

theorem laneOf_word_getElem? (f : Functions) {frozen : List Bool} {mesg : Nat} (code : List SoftBit) (l : Nat)
    (table : frozenOk frozen mesg = true) {i : Nat} (hi : i < 2 ^ codeOrder) :
    (laneOf f frozen mesg code l).word[i]? = some (parityBelow (fun j => decide (j &&& i = i) && !frozen.getD j false &&
      f.sclBit code frozen l (messageIndex frozen j)) (2 ^ codeOrder)) := by
  obtain ⟨length, zeros⟩ := frozenOk_iff.mp table
  have input : (scatter frozen ((List.range mesg).map (f.sclBit code frozen l))).length = 2 ^ codeOrder :=
    (scatter_length _ _).trans length
  refine (polarTransform_getElem? codeOrder _ input hi).trans (congrArg some (parityBelow_congr fun j hj => ?_))
  have inTable : j < frozen.length := hj.trans_eq length.symm
  rw [superset, List.getD_eq_getElem?_getD, scatter_getElem? _ _ inTable, Option.getD_some, Bool.and_assoc]
  congr 1
  cases zero : frozen.getD j false with
  | true => rfl
  | false =>
    have := messageIndex_lt_count inTable zero
    simp [← zeros, this]

/-- Settles O25: the transform is linear and halves at the top bit, where the superset sums halve too. -/
theorem polarTransformIsItsOwnInverse : Obligations.PolarTransformIsItsOwnInverse := by
  refine ⟨fun n u hu => ⟨polarTransform_polarTransform n u hu, fun i hi => polarTransform_getElem? n u hu hi⟩, ?_⟩
  intro f frozen mesg code l table
  obtain ⟨word, message⟩ := laneOf_lengths f code l table
  have length := (frozenOk_iff.mp table).1
  exact ⟨word, message, rfl, fun i hi => laneOf_word_getElem? f code l table hi,
    fun i hi zero => gather_getElem? _ _ (hi.trans_eq length.symm) zero⟩

end Sys2Proof.Machine
end

section
/-! SUPPORT. The systematic BCH word modulo the generator, in both position maps (rules R189, R190). -/

namespace Sys2Proof.Machine

/-! ### Remainders as residues -/

theorem residue_add_self (q a : Nat) : residue q a + residue q a = 0 := by
  rw [← residue_xor, Nat.xor_self, residue_zero]

theorem bitVec_toNat_append_eq_xor {m n : Nat} (x : BitVec m) (y : BitVec n) :
    (x ++ y).toNat = x.toNat <<< n ^^^ y.toNat := by
  rw [BitVec.toNat_append]
  refine Nat.eq_of_testBit_eq fun i => ?_
  rw [Nat.testBit_or, Nat.testBit_xor, Nat.testBit_shiftLeft]
  obtain low | high := Nat.lt_or_ge i n
  · simp [Nat.not_le.mpr low]
  · simp [BitVec.testBit_toNat, BitVec.getLsbD_of_ge y i high]

theorem residue_append (q : Nat) {m n : Nat} (x : BitVec m) (y : BitVec n) :
    residue q (x ++ y).toNat = residue q x.toNat * AdjoinRoot.root (bitPoly q) ^ n + residue q y.toNat := by
  rw [bitVec_toNat_append_eq_xor, residue_xor, residue_shiftLeft]

/-- The degree of a generator (rule R189). -/
theorem log2_of_bchGenOk {g : Nat} (ok : bchGenOk g = true) : g.log2 = 184 ∧ g ≠ 0 := by
  simp only [bchGenOk, Bool.and_eq_true, decide_eq_true_eq] at ok
  obtain ⟨⟨low, high⟩, -⟩ := ok
  have nonzero : g ≠ 0 := by omega
  exact ⟨(Nat.log2_eq_iff nonzero).mpr ⟨low, high⟩, nonzero⟩

/-- The generator divides `x^255 + 1`. -/
theorem root_pow_of_bchGenOk {g : Nat} (ok : bchGenOk g = true) : AdjoinRoot.root (bitPoly g) ^ 255 = 1 := by
  simp only [bchGenOk, Bool.and_eq_true, decide_eq_true_eq] at ok
  have divides := residue_polyRem g 184 72 (2 ^ 255 + 1)
  have sum : 2 ^ 255 + 1 = 1 <<< 255 ^^^ 1 := by decide
  rw [ok.2, residue_zero, sum, residue_xor, residue_shiftLeft, residue_one, one_mul] at divides
  have self := residue_add_self g 1
  rw [residue_one] at self
  exact add_right_cancel (divides.symm.trans self.symm)

section
variable {g d n r : Nat} (deg : g.log2 = d) (nonzero : g ≠ 0) (hr : r < 2 ^ (d + n))
include deg nonzero hr

theorem polyRem_lt_two_pow : polyRem g d n r < 2 ^ d := by
  subst deg
  exact polyRem_lt nonzero hr

theorem polyRem_eq_zero_of_residue (zero : residue g r = 0) : polyRem g d n r = 0 := by
  subst deg
  exact polyRem_eq_zero_of_dvd nonzero hr ((residue_eq_zero_iff g).mp zero)

end

/-! ### The systematic word -/

/-- The remainder of a message moved up by the degree. -/
def bchRemainder (g : Nat) (m : BitVec 71) : BitVec 184 := BitVec.ofNat 184 (polyRem g 184 71 (m.toNat <<< 184))

theorem residue_bchRemainder {g : Nat} (ok : bchGenOk g = true) (m : BitVec 71) :
    residue g (bchRemainder g m).toNat = residue g m.toNat * AdjoinRoot.root (bitPoly g) ^ 184 := by
  obtain ⟨deg, nonzero⟩ := log2_of_bchGenOk ok
  have moved : m.toNat <<< 184 < 2 ^ (184 + 71) := by
    rw [Nat.shiftLeft_eq]
    omega
  rw [bchRemainder, BitVec.toNat_ofNat, Nat.mod_eq_of_lt (polyRem_lt_two_pow deg nonzero moved), residue_polyRem,
    residue_shiftLeft]

theorem bchEncode_ascending {p : Params} (position : p.bchPos = .ascending) (msg : BitVec 71) :
    bchEncode p msg = bchRemainder p.bchGen msg ++ msg := by
  simp [bchEncode, bchParity, bchRemainder, bchPoly, position]

theorem bchEncode_descending {p : Params} (position : p.bchPos = .descending) (msg : BitVec 71) :
    (bchEncode p msg).reverse = msg.reverse ++ bchRemainder p.bchGen msg.reverse := by
  have parity : bchParity p msg = (bchRemainder p.bchGen msg.reverse).reverse := by
    simp [bchParity, bchRemainder, bchPoly, position]
  rw [bchEncode, parity]
  refine BitVec.reverse_append.trans ?_
  rw [BitVec.reverse_reverse_eq, BitVec.cast_eq]

theorem residue_bchPoly_bchEncode {p : Params} (ok : bchGenOk p.bchGen = true) (msg : BitVec 71) :
    residue p.bchGen (bchPoly p.bchPos (bchEncode p msg)) = 0 := by
  cases position : p.bchPos with
  | ascending =>
    rw [bchPoly, bchEncode_ascending position, residue_append, residue_bchRemainder ok, mul_assoc, ← pow_add,
      root_pow_of_bchGenOk ok, mul_one, residue_add_self]
  | descending =>
    rw [bchPoly, bchEncode_descending position, residue_append, residue_bchRemainder ok, ← residue_bchRemainder ok,
      residue_add_self]

theorem bchPoly_lt {n : Nat} (pos : BchPos) (cw : BitVec n) : bchPoly pos cw < 2 ^ n := by
  cases pos with
  | ascending => exact cw.isLt
  | descending => exact cw.reverse.isLt

/-- Settles O42: modulo the generator the parity is the message moved up by 184; 71 further positions move it by 255, that
is not at all. -/
theorem bchEncodingGivesCodewords : Obligations.BchEncodingGivesCodewords := by
  intro p msg ok
  obtain ⟨deg, nonzero⟩ := log2_of_bchGenOk ok
  refine ⟨decide_eq_true (polyRem_eq_zero_of_residue deg nonzero (bchPoly_lt _ _) (residue_bchPoly_bchEncode ok msg)),
    fun j hj => ?_⟩
  rw [bchEncode, BitVec.getLsbD_append, if_pos hj]

end Sys2Proof.Machine
end

section
/-! SUPPORT. The differential demapper: where it erases, and what it gives for zeros (rule R17). -/

namespace Sys2Proof.Machine

/-! ### Zero as a float32 -/

theorem magnitude_eq_zero {e m : Nat} (zero : F32.magnitude e m = 0) : e = 0 ∧ m = 0 := by
  obtain rfl | pos := Nat.eq_zero_or_pos e
  · rw [magnitude_subnormal] at zero
    simpa using zero
  · rw [magnitude_normal pos] at zero
    have : ((2 ^ 23 + m : Nat) : Rat) * 2 ^ ((e : ℤ) - 150) ≠ 0 := by positivity
    exact absurd zero this

/-- Only +0 and −0 have the value 0, and they have the place of 0. -/
theorem key_of_value_zero {x : F32} (value : F32.toRat? x = some 0) : F32.key x = 0 := by
  have zero : F32.magnitude (F32.exponent x) (F32.fraction x) = 0 := by
    simp only [F32.toRat?, Option.ite_none_right_eq_some, Option.some.injEq] at value
    obtain ⟨-, signed⟩ := value
    split at signed
    · exact neg_eq_zero.mp signed
    · exact signed
  obtain ⟨exponent, fraction⟩ := magnitude_eq_zero zero
  have low : (x.extractLsb' 0 31).toNat = 0 := by
    simp only [F32.exponent, F32.fraction, BitVec.extractLsb'_toNat, Nat.shiftRight_eq_div_pow] at exponent fraction ⊢
    omega
  simp [F32.key, low]

theorem isNaN_of_isFinite {x : F32} (finite : F32.isFinite x = true) : F32.isNaN x = false := by
  simp only [F32.isFinite, decide_eq_true_eq] at finite
  simp [F32.isNaN, finite]

theorem le_zero_of_value_zero {x : F32} (value : F32.toRat? x = some 0) : F32.le x 0 = true := by
  have number := isNaN_of_isFinite (toRat?_isSome_iff.mp (Option.isSome_of_eq_some value))
  have zero : F32.isNaN 0 = false ∧ F32.key 0 = 0 := by decide
  rw [F32.le, number, zero.1, key_of_value_zero value, zero.2]
  rfl

section
variable (num : Numerics)

theorem sub_zero_zero : F32.sub num 0 0 = 0 := by
  rw [F32.sub, arith, toRat?_zero]
  show narrow num (0 - 0) = 0
  rw [sub_zero, narrow_zero]

theorem zero_mul_of_finite {x : F32} (finite : F32.isFinite x = true) : F32.mul num 0 x = 0 := by
  obtain ⟨q, value⟩ := Option.isSome_iff_exists.mp (toRat?_isSome_iff.mpr finite)
  rw [F32.mul, arith, toRat?_zero, value]
  show narrow num (0 * q) = 0
  rw [zero_mul, narrow_zero]

theorem zero_div_of_value {x : F32} {q : Rat} (value : F32.toRat? x = some q) (nonzero : q ≠ 0) :
    F32.div num 0 x = 0 := by
  rw [F32.div, arith, toRat?_zero, value]
  simp only [exactOp, if_neg nonzero, zero_div, narrow_zero]

theorem norm_zero : Cplx.norm num Cplx.zero = 0 := by
  rw [Cplx.norm, show Cplx.zero.re = 0 from rfl, show Cplx.zero.im = 0 from rfl,
    zero_mul_of_finite num (by decide), add_zero_zero]

/-- A zero over a finite reference of finite norm above 0 is zero. -/
theorem zero_div_cplx {prev : Cplx} (re : F32.isFinite prev.re = true) (im : F32.isFinite prev.im = true)
    (finite : F32.isFinite (Cplx.norm num prev) = true) (above : F32.le (Cplx.norm num prev) 0 = false) :
    Cplx.div num Cplx.zero prev = Cplx.zero := by
  obtain ⟨q, value⟩ := Option.isSome_iff_exists.mp (toRat?_isSome_iff.mpr finite)
  have nonzero : q ≠ 0 := by
    rintro rfl
    cases above.symm.trans (le_zero_of_value_zero value)
  have products : F32.mul num 0 prev.re = 0 ∧ F32.mul num 0 prev.im = 0 :=
    ⟨zero_mul_of_finite num re, zero_mul_of_finite num im⟩
  simp only [Cplx.div, Cplx.zero, products, add_zero_zero, sub_zero_zero, zero_div_of_value num value nonzero]

/-! ### The demapper -/

variable {num} {curr prev : Cplx}

theorem demodOrErase_of_small_reference (small : F32.le (Cplx.norm num prev) 0 = true) :
    demodOrErase num curr prev = Cplx.zero := by
  simp only [demodOrErase, small, if_true, ite_self]

/-- An erasure, or the ratio with a norm that is a number and not above 4. -/
theorem demodOrErase_eq_zero_or_div (num : Numerics) (curr prev : Cplx) : demodOrErase num curr prev = Cplx.zero ∨
    demodOrErase num curr prev = Cplx.div num curr prev ∧
      F32.isNaN (Cplx.norm num (Cplx.div num curr prev)) = false ∧
      F32.lt F32.four (Cplx.norm num (Cplx.div num curr prev)) = false := by
  unfold demodOrErase
  split
  · exact .inl rfl
  split
  · exact .inl rfl
  dsimp only
  split
  · exact .inl rfl
  next kept =>
    simp only [Bool.or_eq_true, not_or, Bool.not_eq_true] at kept
    obtain ⟨⟨-, number⟩, bound⟩ := kept
    exact .inr ⟨rfl, number, bound⟩

end

/-- Settles O38: each test of the demapper in its order; the last two clauses by exact arithmetic on zeros. -/
theorem demodOrEraseFollowsItsSteps : Obligations.DemodOrEraseFollowsItsSteps := by
  intro num curr prev
  refine ⟨fun nan => ?_, demodOrErase_of_small_reference, fun above => ?_, fun nan => ?_,
    fun currOk prevOk reference ratioOk bound => ?_, ?_, ?_, fun re im finite => ?_⟩
  · simp [demodOrErase, nan]
  · simp [demodOrErase, above]
  · simp [demodOrErase, nan]
  · simp only [F32.le, Bool.and_eq_true, Bool.not_eq_true', decide_eq_true_eq] at bound
    obtain ⟨⟨number, -⟩, place⟩ := bound
    have within : F32.lt F32.four (Cplx.norm num (Cplx.div num curr prev)) = false := by
      simp [F32.lt, place]
    simp only [demodOrErase, currOk, prevOk, reference, ratioOk, number, within, Bool.or_self, Bool.false_eq_true,
      if_false]
  · have zeroBound : F32.le 0 F32.four = true := by decide
    obtain erased | ⟨ratio, number, bound⟩ := demodOrErase_eq_zero_or_div num curr prev
    · rw [erased, norm_zero, zeroBound]
    · rw [ratio]
      exact F32.le_of_lt_eq_false number (by decide) bound
  · exact demodOrErase_of_small_reference (by rw [norm_zero]; decide)
  · cases reference : F32.le (Cplx.norm num prev) 0 with
    | true => exact demodOrErase_of_small_reference reference
    | false =>
      obtain erased | ⟨ratio, -, -⟩ := demodOrErase_eq_zero_or_div num Cplx.zero prev
      · exact erased
      · rw [ratio, zero_div_cplx num re im finite reference]

end Sys2Proof.Machine
end
